-- ==== Sys2Proof/Word.lean ====
section
/-! DEFINITION. The word types of IPT-CORE (spec/00_scope.md R8, R16). -/

namespace Sys2Proof

/-- A byte of memory or a pixel channel (R16, R53). -/
abbrev Byte := BitVec 8

/-- A register-port word, `REG_BITS` = 32 (R8, R20). -/
abbrev Word := BitVec 32

/-- The size of the memory space, 2^`ADDR_BITS` bytes (R8, R50). -/
abbrev addressSpace : Nat := 2 ^ 32

end Sys2Proof
end

