-- ==== Sys2Proof/Syntax.lean ====
section
/-! DEFINITION. The ten operations of IPT-CORE with the variant flags each of them allows
(spec/30_encoding.md R72 to R77), the register names of the map (spec/10_state.md), the host's steps
(R20, R50, R83, R200) and host-script statements (R83, R85). -/

namespace Sys2Proof

/-- BORDER, bit 8 (R73). -/
inductive Border
  | skip
  | clamp
  deriving DecidableEq, Repr

/-- KEEPA, bit 9 (R74): the alpha byte of a None pixel. -/
inductive NoneAlpha
  | zero
  | keep
  deriving DecidableEq, Repr

/-- DEGEN, bit 10 (R75): the table used when the table formula's denominator is zero. -/
inductive Degen
  | identity
  | zero
  deriving DecidableEq, Repr

/-- GINV, bit 11 (R76): the exponent of the gamma curve, `1/γ` or `γ`. -/
inductive GammaExp
  | inverse
  | direct
  deriving DecidableEq, Repr

/-- The operations, one constructor for each row of the opcode table. A flag that R72 does not allow for
an operation cannot be written, so every term is a legal command (R77). -/
inductive Instr
  | sobel (border : Border)
  | prewitt (border : Border)
  | laplacian (border : Border)
  | canny (border : Border) (alpha : NoneAlpha)
  | clahe (degen : Degen)
  | equalize (degen : Degen)
  | hist
  | gamma (exponent : GammaExp)
  | sigmoid
  | lutapply
  deriving DecidableEq, Repr

/-- The mnemonics of R72, R82. -/
inductive Mnemonic
  | SOBEL | PREWITT | LAPLACIAN | CANNY | CLAHE | EQUALIZE | HIST | GAMMA | SIGMOID | LUTAPPLY
  deriving DecidableEq, Repr

/-- The flag letters of R82: C = BORDER, K = KEEPA, Z = DEGEN, I = GINV. -/
inductive Flag
  | C | K | Z | I
  deriving DecidableEq, Repr

/-- The named registers of the register map (spec/10_state.md section 2). -/
inductive RegName
  | CMD | STATUS | IEN | SRC_BASE | DST_BASE | WIDTH | HEIGHT | THRESH
  | CLIP_LIMIT | GRID_SIZE | GAMMA | CONTRAST
  | HIST (i : Fin 256)
  | LUT (i : Fin 256)
  deriving DecidableEq, Repr

/-- One turn of the schedule: an atomic action of the host (R20, R50, R200), the host's `WAIT` (R83), or
a turn given to the engine (R44). -/
inductive HostStep
  /-- `RegRead(off)` (R20). -/
  | regRead (off : Nat)
  /-- `RegWrite(off, v)` (R20). -/
  | regWrite (off : Nat) (v : Word)
  /-- An access of `bytes` bytes at `off`, narrower than a word: not part of the interface (R20, M9). -/
  | narrow (off bytes : Nat)
  /-- The host reads `n` bytes of memory from `a` (R50, `MR` of R83). -/
  | memRead (a n : Nat)
  /-- The host writes the bytes `bs` at increasing addresses from `a` (R50, `MW` of R83). -/
  | memWrite (a : Nat) (bs : List Byte)
  /-- The host repeats a read of STATUS until BUSY reads 0 (`WAIT` of R83). -/
  | wait
  /-- `rst` is asserted (R200). -/
  | rst
  /-- The engine's turn: it completes the pending operation, if there is one (R44). -/
  | engine
  deriving DecidableEq, Repr

/-- Host-script statements and pseudo-statements (R83, R85). -/
inductive Stmt
  | WR (reg : RegName) (value : Word)
  | RD (reg : RegName)
  | MW (addr : Nat) (bytes : List Byte)
  | MR (addr n : Nat)
  | WAIT
  | START (cmd : Instr)
  | RUN (cmd : Instr)
  | CLR
  | IMG (w h : Word)
  | BUF (s d : Word)
  | CANNYT (low high : Byte)
  deriving DecidableEq, Repr

end Sys2Proof
end

