-- ==== Sys2Proof/WellFormed.lean ====
section
/-! DEFINITION. Well-formedness: which command words are legal (spec/30_encoding.md R77, R78) and which
host steps belong to the interface (spec/10_state.md R20, spec/20_memory.md R50). A term of `Instr` needs
no check: its flags are those R72 allows. -/

namespace Sys2Proof

/-- The complete list of legal command words (R77). -/
def legalWords : List Word :=
  [0x001, 0x101, 0x002, 0x102, 0x003, 0x103, 0x004, 0x104, 0x204, 0x304, 0x005, 0x405,
   0x006, 0x406, 0x007, 0x008, 0x808, 0x009, 0x00A]

/-- A command word is legal when R77 lists it. -/
def legalWord (v : Word) : Bool := legalWords.contains v

/-- An offset the register port accepts: inside the 4096-byte window and a multiple of 4 (R20). -/
def portOffset (off : Nat) : Bool := decide (off < 4096) && decide (off % 4 = 0)

/-- `n` bytes from `a` lie inside the memory space without wrapping (R50, R55). -/
def addressable (a n : Nat) : Bool := decide (a + n ≤ addressSpace)

/-- A host step of the interface the spec describes (R20, R50). -/
def HostStep.wellFormed : HostStep → Bool
  | .regRead off => portOffset off
  | .regWrite off _ => portOffset off
  | .narrow _ _ => false
  | .memRead a n => addressable a n
  | .memWrite a bs => addressable a bs.length
  | .wait => true
  | .rst => true
  | .engine => true

end Sys2Proof
end

