-- ==== Sys2Proof/Decode.lean ====
section
/-! DEFINITION. Decoding a command word (spec/30_encoding.md R71, R72, R86), encoding an operation
(R71, R77), and the mnemonic syntax of R82. -/

namespace Sys2Proof

/-- Why a command word is illegal (R78); every reason is the E_CMD case. -/
inductive DecodeError
  /-- A bit of [7:4] or [31:12] is 1. -/
  | reservedBits
  /-- OP is 0x0 or 0xB to 0xF. -/
  | reservedOp
  /-- A flag bit is 1 that R72 does not allow for the operation. -/
  | flagNotAllowed
  deriving DecidableEq, Repr

/-- The operation of a 4-bit OP (R72). -/
def opcodeMnemonic : Nat → Option Mnemonic
  | 0x1 => some .SOBEL
  | 0x2 => some .PREWITT
  | 0x3 => some .LAPLACIAN
  | 0x4 => some .CANNY
  | 0x5 => some .CLAHE
  | 0x6 => some .EQUALIZE
  | 0x7 => some .HIST
  | 0x8 => some .GAMMA
  | 0x9 => some .SIGMOID
  | 0xA => some .LUTAPPLY
  | _ => none

/-- The flags an operation allows (R72). -/
def allowedFlags : Mnemonic → List Flag
  | .SOBEL => [.C]
  | .PREWITT => [.C]
  | .LAPLACIAN => [.C]
  | .CANNY => [.C, .K]
  | .CLAHE => [.Z]
  | .EQUALIZE => [.Z]
  | .HIST => []
  | .GAMMA => [.I]
  | .SIGMOID => []
  | .LUTAPPLY => []

/-- The bit of the command word that holds a flag (R71). -/
def flagBit : Flag → Nat
  | .C => 8
  | .K => 9
  | .Z => 10
  | .I => 11

/-- The four flags in the canonical order of R82. -/
def allFlags : List Flag := [.C, .K, .Z, .I]

def borderOf (b : Bool) : Border := if b then .clamp else .skip
def alphaOf (b : Bool) : NoneAlpha := if b then .keep else .zero
def degenOf (b : Bool) : Degen := if b then .zero else .identity
def exponentOf (b : Bool) : GammaExp := if b then .direct else .inverse

/-- The operation with the given mnemonic and flag values (R73 to R76); a flag it does not have is not
looked at. -/
def withFlags (set : Flag → Bool) : Mnemonic → Instr
  | .SOBEL => .sobel (borderOf (set .C))
  | .PREWITT => .prewitt (borderOf (set .C))
  | .LAPLACIAN => .laplacian (borderOf (set .C))
  | .CANNY => .canny (borderOf (set .C)) (alphaOf (set .K))
  | .CLAHE => .clahe (degenOf (set .Z))
  | .EQUALIZE => .equalize (degenOf (set .Z))
  | .HIST => .hist
  | .GAMMA => .gamma (exponentOf (set .I))
  | .SIGMOID => .sigmoid
  | .LUTAPPLY => .lutapply

/-- `decode(v)`, total on all 32-bit words (R86). -/
def decode (v : Word) : Except DecodeError Instr :=
  if v.extractLsb' 4 4 ≠ 0 ∨ v.extractLsb' 12 20 ≠ 0 then .error .reservedBits
  else
    match opcodeMnemonic (v.extractLsb' 0 4).toNat with
    | none => .error .reservedOp
    | some m =>
      if allFlags.any (fun f => v.getLsbD (flagBit f) && !(allowedFlags m).contains f) then
        .error .flagNotAllowed
      else .ok (withFlags (fun f => v.getLsbD (flagBit f)) m)

/-- The command word of an operation, from the fields of R71 and the numbers of R72. -/
def encode : Instr → Word
  | .sobel b => 0x001 ||| borderField b
  | .prewitt b => 0x002 ||| borderField b
  | .laplacian b => 0x003 ||| borderField b
  | .canny b a => 0x004 ||| borderField b ||| (match a with | .zero => 0 | .keep => 0x200)
  | .clahe d => 0x005 ||| degenField d
  | .equalize d => 0x006 ||| degenField d
  | .hist => 0x007
  | .gamma e => 0x008 ||| (match e with | .inverse => 0 | .direct => 0x800)
  | .sigmoid => 0x009
  | .lutapply => 0x00A
where
  borderField : Border → Word
    | .skip => 0
    | .clamp => 0x100
  degenField : Degen → Word
    | .identity => 0
    | .zero => 0x400

/-- The instruction the decoder reads from a word given as a number with bit 0 the least significant bit
of the command word; bits above `nbits` are 0. The register port takes a command word whole, so there are
no bytes to order (R20, R52, R70). -/
def decodeTableWord (nbits w : Nat) : Option Instr :=
  match decode (BitVec.ofNat 32 (w % 2 ^ nbits)) with
  | .ok i => some i
  | .error _ => none

/-- A textual command, mnemonic and flag letters in any order (R82); a letter the mnemonic does not allow
is an assembly error (`none`). The text is taken as tokens (assumption log 25). -/
def assemble (m : Mnemonic) (letters : List Flag) : Option Instr :=
  if letters.all (fun f => (allowedFlags m).contains f) then
    some (withFlags (fun f => letters.contains f) m)
  else none

/-- The mnemonic of an operation (R72). -/
def Instr.mnemonic : Instr → Mnemonic
  | .sobel _ => .SOBEL
  | .prewitt _ => .PREWITT
  | .laplacian _ => .LAPLACIAN
  | .canny _ _ => .CANNY
  | .clahe _ => .CLAHE
  | .equalize _ => .EQUALIZE
  | .hist => .HIST
  | .gamma _ => .GAMMA
  | .sigmoid => .SIGMOID
  | .lutapply => .LUTAPPLY

/-- The flags of an operation that are 1, in canonical order (R82). -/
def Instr.flags : Instr → List Flag
  | .sobel b => borderLetters b
  | .prewitt b => borderLetters b
  | .laplacian b => borderLetters b
  | .canny b a => borderLetters b ++ (match a with | .zero => [] | .keep => [.K])
  | .clahe d => degenLetters d
  | .equalize d => degenLetters d
  | .hist => []
  | .gamma e => (match e with | .inverse => [] | .direct => [.I])
  | .sigmoid => []
  | .lutapply => []
where
  borderLetters : Border → List Flag
    | .skip => []
    | .clamp => [.C]
  degenLetters : Degen → List Flag
    | .identity => []
    | .zero => [.Z]

def Mnemonic.spelling : Mnemonic → String
  | .SOBEL => "SOBEL"
  | .PREWITT => "PREWITT"
  | .LAPLACIAN => "LAPLACIAN"
  | .CANNY => "CANNY"
  | .CLAHE => "CLAHE"
  | .EQUALIZE => "EQUALIZE"
  | .HIST => "HIST"
  | .GAMMA => "GAMMA"
  | .SIGMOID => "SIGMOID"
  | .LUTAPPLY => "LUTAPPLY"

def Flag.letter : Flag → String
  | .C => "C"
  | .K => "K"
  | .Z => "Z"
  | .I => "I"

/-- The canonical text of an operation, for example `CANNY.C.K` (R82). -/
def Instr.text (i : Instr) : String :=
  i.flags.foldl (fun t f => t ++ "." ++ f.letter) i.mnemonic.spelling

end Sys2Proof
end

