-- ==== Sys2Proof/Config.lean ====
section
/-! DEFINITION. What is fixed when the block is built (spec/10_state.md R48) and the free values that
stand for what the spec leaves unspecified. -/

namespace Sys2Proof.Config

open Sys2Proof

/-- A 3×3 kernel of signed integers, row-major: row `dy + 1`, column `dx + 1` (R9). -/
abbrev Kernel := List (List Int)

/-- The coefficient of row `r` and column `c`. -/
def coef (k : Kernel) (r c : Nat) : Int := (k.getD r []).getD c 0

/-- The kernel ROM as a record, so that a claim can quantify over it (R9). -/
structure Kernels where
  sobelX : Kernel
  sobelY : Kernel
  prewittX : Kernel
  prewittY : Kernel
  laplacian : Kernel
  deriving DecidableEq, Repr

/-- The kernels this hardware takes (R9; the values are the spec's general knowledge G1 to G3,
assumption log 13). -/
def kernels : Kernels where
  sobelX := [[-1, 0, 1], [-2, 0, 2], [-1, 0, 1]]
  sobelY := [[-1, -2, -1], [0, 0, 0], [1, 2, 1]]
  prewittX := [[-1, 0, 1], [-1, 0, 1], [-1, 0, 1]]
  prewittY := [[-1, -1, -1], [0, 0, 0], [1, 1, 1]]
  laplacian := [[0, -1, 0], [-1, 4, -1], [0, -1, 0]]

/-- The two readings of the equaliser's `CDF_min` (R11, R146). -/
inductive CdfMinRule
  | firstNonzero
  | bin0
  deriving DecidableEq, Repr

/-- `CDF_MIN_RULE = FIRST_NONZERO`, the value this hardware takes (R11, assumption log 14). -/
def cdfMinRule : CdfMinRule := .firstNonzero

/-- What a byte of memory that nothing has written reads as. DESIGN CHOICE, unsafe: the spec leaves it
to the platform (R50, assumption log 2). -/
def unlistedByte : Byte := 0

/-- Free 32-bit values, one for each index (assumption log 17): HIST after CLAHE (R135), HIST read while
BUSY (R46), HIST after a broken ownership (R206). -/
opaque freeWord : Nat → Word

/-- Free bytes, one for each index (assumption log 17): LUT after CLAHE (R135), LUT read while BUSY (R46),
destination bytes and LUT after a broken ownership (R206). -/
opaque freeByte : Nat → Byte

/-- Free choices between the two values a rule allows, one for each index (assumption log 17): old or new
(R202, R206), the host's or the engine's (R206). -/
opaque freeChoice : Nat → Bool

end Sys2Proof.Config
end

