-- ==== Sys2Proof/Machine/State.lean ====
section
/-! DEFINITION. The architectural state of IPT-CORE (spec/10_state.md), the memory space it works on
(spec/20_memory.md R50), and the reasons a step can stop. -/

namespace Sys2Proof.Machine

open Sys2Proof

/-- The memory space as (address, byte) pairs, addresses strictly rising, no entry equal to
`Config.unlistedByte` (R50). -/
abbrev Memory := List Host.Cell

/-- A table of 256 byte entries: the LUT file and the tables the operations build (R38). -/
abbrev Table := Vector Byte 256

/-- A file of 256 counters: the HIST file (R37). -/
abbrev Histogram := Vector Word 256

/-- STATUS (R33); the reserved bits read 0 and are not stored. -/
structure Status where
  busy : Bool
  done : Bool
  err : Bool
  wrbusy : Bool
  errcode : Byte
  deriving DecidableEq, Repr

/-- IEN (R35); the other bits are hardwired 0. -/
structure Ien where
  doneIe : Bool
  errIe : Bool
  deriving DecidableEq, Repr

/-- The engine's ownership of the regions of one accepted command, from its acceptance until the host has
observed its completion (R61, R206; assumption logs 9 and 30). -/
structure Claim where
  /-- First byte of the source region, latched at acceptance (R51). -/
  src : Nat
  /-- First byte of the destination region, latched at acceptance (R51). -/
  dst : Nat
  /-- Length of each region, `4·W·H` (R51). -/
  len : Nat
  /-- The operation writes a destination (all but HIST, R58). -/
  hasDst : Bool
  /-- The operation writes HIST (R39). -/
  writesHist : Bool
  /-- The operation writes LUT (R39). -/
  writesLut : Bool
  /-- The operation reads LUT: LUTAPPLY (R167). -/
  readsLut : Bool
  /-- The host wrote a byte of the source region (R206). -/
  srcHit : Bool
  /-- Destination bytes the host wrote before completion (R206). -/
  dstHit : List Nat
  /-- Memory as it was before the completion, while that is not yet observed (R206: old or new). -/
  before : Memory
  /-- Memory and LUT as they stood when an earlier result among the operands of this pending operation became
  unspecified; `none` while they stand (R61: it reads its source as of acceptance; assumption log 30). -/
  seen : Option (Memory × Table)
  deriving DecidableEq, Repr

/-- Everything the spec gives the machine, and six fields of the model's own (`inputs`, `rdata`, `mdata`,
`free` and the ownership records `claim` and `earlier`). -/
structure State where
  /-- CMD, the last accepted command word (R32). -/
  cmd : Word
  /-- STATUS (R33). -/
  status : Status
  /-- IEN (R35). -/
  ien : Ien
  /-- SRC_BASE (R23). -/
  srcBase : Word
  /-- DST_BASE (R24). -/
  dstBase : Word
  /-- WIDTH.W (R25). -/
  width : BitVec 16
  /-- HEIGHT.H (R26). -/
  height : BitVec 16
  /-- THRESH.LOW (R27). -/
  threshLow : Byte
  /-- THRESH.HIGH (R27). -/
  threshHigh : Byte
  /-- CLIP_LIMIT, UQ16.16 (R28). -/
  clipLimit : Word
  /-- GRID_SIZE.G (R29). -/
  gridSize : BitVec 16
  /-- GAMMA, UQ16.16 (R30). -/
  gamma : Word
  /-- CONTRAST, SQ15.16 (R31). -/
  contrast : Word
  /-- HIST[0 … 255] (R37). -/
  hist : Histogram
  /-- LUT[0 … 255] (R38). -/
  lut : Table
  /-- The memory space (R50). -/
  mem : Memory
  /-- The ownership of the last accepted command (R61); `none` once its completion is observed. -/
  claim : Option Claim
  /-- The ownerships of the commands before it whose completions the host has not observed, oldest first
  (R61, R206; assumption log 30). -/
  earlier : List Claim
  /-- The model's own: the turns still to come, in order (assumption log 1). -/
  inputs : List HostStep
  /-- The model's own: the value the last register read returned (R20, assumption log 19). -/
  rdata : Word
  /-- The model's own: the bytes the last host memory read returned (R83, assumption log 19). -/
  mdata : List Byte
  /-- The model's own: the index of the next free value (assumption log 17). -/
  free : Nat
  deriving DecidableEq, Repr

/-- Why the machine stops with a fault. -/
inductive Fault
  /-- Raised by a host memory access, or by the engine in a state no run reaches, that would leave the
  2^32 bytes of memory (R50, R55). Safe: no such byte exists. -/
  | outsideAddressSpace
  /-- Raised by the engine's turn when BUSY = 1 and CMD holds an illegal word, which no run reaches (R32,
  R42). Safe. -/
  | illegalPending
  deriving DecidableEq, Repr

/-- Why the machine has no meaning for what it is asked. -/
inductive Refusal
  /-- Raised by an arm of `exec` whose instruction has no meaning yet. Safe. -/
  | notModelled (mnemonic : String)
  /-- Raised by a register-port access that is narrower than a word, misaligned or outside the window: not
  part of the interface (R20, M9). Safe. -/
  | notAWordAccess
  deriving DecidableEq, Repr

/-- The machine right after reset (R47, R201), over memory that nothing has written (assumption log 2) and
with no turn scheduled (assumption log 1). -/
def State.reset : State where
  cmd := 0
  status := ⟨false, false, false, false, 0⟩
  ien := ⟨false, false⟩
  srcBase := 0
  dstBase := 0
  width := 0
  height := 0
  threshLow := 50
  threshHigh := 150
  clipLimit := 0
  gridSize := 0
  gamma := 0
  contrast := 0
  hist := Vector.ofFn fun _ => 0
  lut := Vector.ofFn fun i => BitVec.ofNat 8 i.val
  mem := []
  claim := none
  earlier := []
  inputs := []
  rdata := 0
  mdata := []
  free := 0

end Sys2Proof.Machine
end

