-- ==== Sys2Proof/Machine/Ops.lean ====
section
/-! DEFINITION. The shared operations: the arithmetic primitives of spec/00_scope.md R17, memory
(spec/20_memory.md), pixels, images and tables, raising InvalidInput (spec/60_exceptions.md R176) and the
engine's completion (spec/10_state.md R44). -/

namespace Sys2Proof.Machine

open Sys2Proof

/-! ### Arithmetic primitives (R17) -/

/-- `rhu(p, q)`, the non-negative rational `p/q` rounded half up (R17, R18). -/
def rhu (p q : Nat) : Nat := (2 * p + q) / (2 * q)

/-- `ceil_div(a, b)` (R17). -/
def ceilDiv (a b : Nat) : Nat := (a + b - 1) / b

/-- `clamp255` of a non-negative value (R17). -/
def clamp255 (v : Nat) : Nat := min 255 v

/-- The largest number below `acc + 2^k` that `p` accepts, for a `p` that is true up to some point at or
above `acc` and false from there on. -/
def bitSearch (p : Nat → Bool) : Nat → Nat → Nat
  | 0, acc => acc
  | k + 1, acc => bitSearch p k (if p (acc + 2 ^ k) then acc + 2 ^ k else acc)

/-- `isqrt(n)`, the largest `r` with `r·r ≤ n` (R17). -/
def isqrt (n : Nat) : Nat := bitSearch (fun r => decide (r * r ≤ n)) (n.log2 / 2 + 1) 0

/-- `sext_32` (R16). -/
def sext32 (v : Word) : Int := v.toInt

/-! ### Memory (R17, R50) -/

/-- `Mem[a]`: the byte at an address (R17, R50). -/
def Memory.read : Memory → Nat → Byte
  | [], _ => Config.unlistedByte
  | (a, v) :: m, k => if a = k then v else Memory.read m k

/-- `Mem[a] <- v`, keeping the canonical form (R17, R50). -/
def Memory.write : Memory → Nat → Byte → Memory
  | [], k, v => if v = Config.unlistedByte then [] else [(k, v)]
  | (a, w) :: m, k, v =>
    if k < a then
      if v = Config.unlistedByte then (a, w) :: m else (k, v) :: (a, w) :: m
    else if k = a then
      if v = Config.unlistedByte then m else (k, v) :: m
    else (a, w) :: Memory.write m k v

/-- The bytes `bs` stored at increasing addresses from `a`. -/
def Memory.writeBytes : Memory → Nat → List Byte → Memory
  | m, _, [] => m
  | m, a, b :: bs => Memory.writeBytes (m.write a b) (a + 1) bs

/-- The `n` bytes at increasing addresses from `a`. -/
def Memory.readBytes (m : Memory) (a n : Nat) : List Byte :=
  (List.range n).map fun k => m.read (a + k)

/-- The little-endian value of a list of bytes, `Σ bs[k]·256^k` (R52). -/
def littleEndian : List Byte → Nat
  | [] => 0
  | b :: bs => b.toNat + 256 * littleEndian bs

/-- `MemRead(a, n)` (R17, R52). -/
def Memory.readNat (m : Memory) (a n : Nat) : Nat := littleEndian (m.readBytes a n)

/-- `MemWrite(a, n, v)` (R17, R52). -/
def Memory.writeNat (m : Memory) (a n v : Nat) : Memory :=
  m.writeBytes a ((List.range n).map fun k => BitVec.ofNat 8 (v / 256 ^ k % 256))

/-- The canonical form: addresses strictly rising and inside the memory space, no entry equal to what an
unlisted address reads as. -/
def Memory.wf (m : Memory) : Bool :=
  decide (m.Pairwise fun c d => c.1 < d.1) &&
    m.all fun c => decide (c.1 < addressSpace) && decide (c.2 ≠ Config.unlistedByte)

/-! ### Pixels and images (R19, R53) -/

/-- A pixel, four unsigned bytes (R53, R67). -/
structure Pixel where
  r : Byte
  g : Byte
  b : Byte
  a : Byte
  deriving DecidableEq, Repr

/-- The bytes of a pixel at increasing addresses (R53). -/
def Pixel.bytes (p : Pixel) : List Byte := [p.r, p.g, p.b, p.a]

/-- The pixel whose first byte is at address `a` (R53). -/
def Memory.pixel (m : Memory) (a : Nat) : Pixel :=
  ⟨m.read a, m.read (a + 1), m.read (a + 2), m.read (a + 3)⟩

/-- An image of `w × h` pixels, row-major: pixel `(x, y)` has index `y·w + x` (R19). -/
structure Image where
  w : Nat
  h : Nat
  px : List Pixel
  deriving DecidableEq, Repr

/-- The pixel at `(x, y)` (R19). -/
def Image.at (img : Image) (x y : Nat) : Pixel := img.px.getD (y * img.w + x) ⟨0, 0, 0, 0⟩

/-- The image whose pixel `(x, y)` is `f x y`. -/
def Image.ofFn (w h : Nat) (f : Nat → Nat → Pixel) : Image where
  w := w
  h := h
  px := (List.range (w * h)).map fun p => f (p % w) (p / w)

/-- The image whose every pixel is `f` of the pixel of `img` at the same place. -/
def Image.mapPixels (f : Pixel → Pixel) (img : Image) : Image := { img with px := img.px.map f }

/-- The bytes of an image in memory order (R53). -/
def Image.bytes (img : Image) : List Byte := img.px.flatMap Pixel.bytes

/-- Clamped sampling `samp(I, x, y)` (R91). -/
def Image.samp (img : Image) (x y : Int) : Pixel :=
  img.at (min ((img.w : Int) - 1) (max 0 x)).toNat (min ((img.h : Int) - 1) (max 0 y)).toNat

/-! ### Grey values (R93, R127) -/

/-- `luma1000` (R12, R93). -/
def luma1000 (p : Pixel) : Nat := 299 * p.r.toNat + 587 * p.g.toNat + 114 * p.b.toNat

/-- `sum3` (R93). -/
def sum3 (p : Pixel) : Nat := p.r.toNat + p.g.toNat + p.b.toNat

/-- The histogram bin of a pixel: its luma rounded half up (R127, R141). -/
def bin (p : Pixel) : Nat := (luma1000 p + 500) / 1000

/-! ### Histograms and tables (R37, R38) -/

/-- `h[i]`, the number of pixels in bin `i`, for `i = 0 … 255` (R127, R141). -/
def histogramOf (ps : List Pixel) : List Nat :=
  let bins := ps.map bin
  (List.range 256).map fun i => bins.count i

/-- The running sums of a list that starts from `acc`. -/
def runningSums (acc : Nat) : List Nat → List Nat
  | [] => []
  | n :: ns => (acc + n) :: runningSums (acc + n) ns

/-- `CDF[i] = Σ_{j ≤ i} h[j]` (R129, R144). -/
def cdfOf (h : List Nat) : List Nat := runningSums 0 h

/-- The table with entry `f i` at `i`. -/
def tableOf (f : Nat → Nat) : Table := Vector.ofFn fun i => BitVec.ofNat 8 (f i.val)

/-- The table used when the formula's denominator is zero (R75, R131, R148). -/
def degenerateTable : Degen → Table
  | .identity => tableOf fun i => i
  | .zero => tableOf fun _ => 0

/-- The HIST file that holds the counts `h` (R37). -/
def histogramFile (h : List Nat) : Histogram := Vector.ofFn fun i => BitVec.ofNat 32 (h.getD i.val 0)

/-- `T[v]`. -/
def Table.at (t : Table) (v : Byte) : Byte := t[v.toNat]'v.isLt

/-- Each colour byte looked up in the table, alpha unchanged (R132, R149, R156). -/
def Table.apply (t : Table) (p : Pixel) : Pixel := ⟨Table.at t p.r, Table.at t p.g, Table.at t p.b, p.a⟩

/-- A table of free bytes with indices from `n` (R135, R206). -/
def freeTable (n : Nat) : Table := Vector.ofFn fun i => Config.freeByte (n + i.val)

/-- A file of free words with indices from `n` (R135, R206). -/
def freeHistogram (n : Nat) : Histogram := Vector.ofFn fun i => Config.freeWord (n + i.val)

/-! ### Taking an exception (R175 to R177) -/

/-- The sub-codes of InvalidInput, the block's only error (R177). -/
inductive InvalidInput
  | E_CMD
  | E_DIM
  | E_ALIGN
  | E_RANGE
  | E_OVERLAP
  | E_CLIP
  | E_GRID
  | E_GAMMA
  | E_CONTRAST
  deriving DecidableEq, Repr

/-- ERRCODE of a sub-code (R177). -/
def InvalidInput.code : InvalidInput → Byte
  | .E_CMD => 1
  | .E_DIM => 2
  | .E_ALIGN => 3
  | .E_RANGE => 4
  | .E_OVERLAP => 5
  | .E_CLIP => 6
  | .E_GRID => 7
  | .E_GAMMA => 8
  | .E_CONTRAST => 9

/-- `raise InvalidInput(e)` (R176): ERR and ERRCODE, nothing else. -/
def State.raiseInvalidInput (s : State) (e : InvalidInput) : State :=
  { s with status := { s.status with err := true, errcode := e.code } }

/-- What stands in the place of a return from exception (R181): the host's acknowledgement, a write of 1s to
DONE, ERR or WRBUSY (R34). Clearing ERR clears ERRCODE. -/
def State.acknowledge (s : State) (done err wrbusy : Bool) : State :=
  { s with status :=
      { s.status with
        done := s.status.done && !done
        err := s.status.err && !err
        errcode := if err then 0 else s.status.errcode
        wrbusy := s.status.wrbusy && !wrbusy } }

/-! ### The engine's completion (R44) -/

/-- What an operation does to one of the files HIST and LUT (R39). -/
inductive FileEffect (α : Type)
  | unchanged
  | wrote (v : α)
  | unspecified
  deriving DecidableEq, Repr

/-- The content of a file after completion: a file the rules leave unspecified, or one that was written
after the host broke the ownership (R206), takes the free content. -/
def FileEffect.settle {α : Type} (violated : Bool) (old free : α) : FileEffect α → α
  | .unchanged => old
  | .wrote v => if violated then free else v
  | .unspecified => free

/-- What an operation computes from the registers and the source region (R39, R58): the destination image,
if it writes one, and the new files. -/
structure Effect where
  dst : Option Image
  hist : FileEffect Histogram
  lut : FileEffect Table
  deriving DecidableEq, Repr

/-- The host wrote a byte of the source region of the pending operation (R206). -/
def State.srcHit (s : State) : Bool :=
  match s.claim with
  | some c => c.srcHit
  | none => false

/-- The host wrote the byte at `a` of the destination region of the pending operation (R206). -/
def State.dstHit (s : State) (a : Nat) : Bool :=
  match s.claim with
  | some c => c.dstHit.contains a
  | none => false

/-- The byte at offset `k` of the destination after completion, where the operation computes `b`: that byte
if the host kept to the ownership (R61); any byte if it wrote the source; its own or the engine's if it
wrote this byte (R206, assumption log 10). -/
def State.settledByte (s : State) (dst k : Nat) (b : Byte) : Byte :=
  if s.srcHit then Config.freeByte (s.free + k)
  else if s.dstHit (dst + k) && Config.freeChoice (s.free + k) then s.mem.read (dst + k)
  else b

/-- The ownership after completion: it ends at once when `irq` reports DONE, else it lasts until the host
reads STATUS (R61, assumption log 9). -/
def State.claimAfterCompletion (s : State) : Option Claim :=
  if s.ien.doneIe then none else s.claim.map fun c => { c with before := s.mem, seen := none }

/-- The earlier ownerships after completion: they end with the present one (R61, assumption log 30). -/
def State.earlierAfterCompletion (s : State) : List Claim := if s.ien.doneIe then [] else s.earlier

/-- Free values are drawn for `len` destination bytes, then for HIST, then for LUT. -/
def drawn (len : Nat) : Nat := len + 512

/-- The state after the completion step (R44): destination, HIST and LUT written, BUSY 0, DONE 1. -/
def State.finish (s : State) (dst len : Nat) (e : Effect) : State :=
  { s with
    mem := match e.dst with
      | some img => s.mem.writeBytes dst (img.bytes.mapIdx fun k b => s.settledByte dst k b)
      | none => s.mem
    hist := e.hist.settle s.srcHit s.hist (freeHistogram (s.free + len))
    lut := e.lut.settle s.srcHit s.lut (freeTable (s.free + len + 256))
    status := { s.status with busy := false, done := true }
    claim := s.claimAfterCompletion
    earlier := s.earlierAfterCompletion
    free := s.free + drawn len }

end Sys2Proof.Machine
end

