-- ==== Sys2Proof/Machine/Operands.lean ====
section
/-! DEFINITION. Operand sources (spec/30_encoding.md R79, R80): the parameter registers as numbers, the
regions they name (spec/20_memory.md R51) and the source image (R53). -/

namespace Sys2Proof.Machine

open Sys2Proof

/-- `W = WIDTH.W` (R19, R25). -/
def State.imgW (s : State) : Nat := s.width.toNat

/-- `H = HEIGHT.H` (R19, R26). -/
def State.imgH (s : State) : Nat := s.height.toNat

/-- `N = W·H`, the pixel count (R19). -/
def State.pixelCount (s : State) : Nat := s.imgW * s.imgH

/-- `4·W·H`, the length of a region (R51). -/
def State.regionLen (s : State) : Nat := 4 * s.pixelCount

/-- `SRC_BASE` as an address (R23). -/
def State.srcAddr (s : State) : Nat := s.srcBase.toNat

/-- `DST_BASE` as an address (R24). -/
def State.dstAddr (s : State) : Nat := s.dstBase.toNat

/-- The effective address of pixel `(x, y)` of a buffer at base `b` (R68). -/
def State.pixelAddr (s : State) (b x y : Nat) : Nat := b + 4 * (y * s.imgW + x)

/-- The memory the pending operation reads its source from: as of its acceptance (R61), which is the present one
unless an earlier result among its operands has become unspecified since (R206, assumption log 30). -/
def State.operandMem (s : State) : Memory :=
  match s.claim.bind Claim.seen with
  | some v => v.1
  | none => s.mem

/-- The LUT the pending operation reads (R167), likewise. -/
def State.operandLut (s : State) : Table :=
  match s.claim.bind Claim.seen with
  | some v => v.2
  | none => s.lut

/-- `src(x, y)` for every pixel of the source region (R51, R53). -/
def State.source (s : State) : Image where
  w := s.imgW
  h := s.imgH
  px := (List.range s.pixelCount).map fun p => s.operandMem.pixel (s.srcAddr + 4 * p)

/-- The operation writes a destination region: all but HIST (R58, R178). -/
def writesDst (i : Instr) : Bool :=
  match i with
  | .hist => false
  | _ => true

/-- Completing an operation (R44): it reads the source region and writes the destination region, which
`validate` made sure exist (R55); in a state no run reaches, where they do not, the engine faults
(assumption log 5). -/
def complete (e : Effect) (s : State) : Host.Outcome State Fault Refusal :=
  if addressable s.srcAddr s.regionLen && (e.dst.isNone || addressable s.dstAddr s.regionLen) then
    .next (s.finish s.dstAddr s.regionLen e)
  else .fault .outsideAddressSpace

/-- The offset of a named register (register map, spec/10_state.md section 2). -/
def regOffset : RegName → Nat
  | .CMD => 0x000
  | .STATUS => 0x004
  | .IEN => 0x008
  | .SRC_BASE => 0x00C
  | .DST_BASE => 0x010
  | .WIDTH => 0x014
  | .HEIGHT => 0x018
  | .THRESH => 0x01C
  | .CLIP_LIMIT => 0x020
  | .GRID_SIZE => 0x024
  | .GAMMA => 0x028
  | .CONTRAST => 0x02C
  | .HIST i => 0x400 + 4 * i.val
  | .LUT i => 0x800 + 4 * i.val

/-- The register at a word-aligned offset; `none` for a reserved offset (R36). -/
def regAt (off : Nat) : Option RegName :=
  if off < 0x030 then
    [RegName.CMD, .STATUS, .IEN, .SRC_BASE, .DST_BASE, .WIDTH, .HEIGHT, .THRESH, .CLIP_LIMIT,
      .GRID_SIZE, .GAMMA, .CONTRAST][off / 4]?
  else if off < 0x400 then none
  else if off < 0x800 then some (.HIST (Fin.ofNat 256 ((off - 0x400) / 4)))
  else if off < 0xC00 then some (.LUT (Fin.ofNat 256 ((off - 0x800) / 4)))
  else none

/-- The parameter registers an operation reads (R79). -/
def paramsRead : Instr → List RegName
  | .sobel _ => [.SRC_BASE, .DST_BASE, .WIDTH, .HEIGHT]
  | .prewitt _ => [.SRC_BASE, .DST_BASE, .WIDTH, .HEIGHT]
  | .laplacian _ => [.SRC_BASE, .DST_BASE, .WIDTH, .HEIGHT]
  | .canny _ _ => [.SRC_BASE, .DST_BASE, .WIDTH, .HEIGHT, .THRESH]
  | .clahe _ => [.SRC_BASE, .DST_BASE, .WIDTH, .HEIGHT, .CLIP_LIMIT, .GRID_SIZE]
  | .equalize _ => [.SRC_BASE, .DST_BASE, .WIDTH, .HEIGHT]
  | .hist => [.SRC_BASE, .WIDTH, .HEIGHT]
  | .gamma _ => [.SRC_BASE, .DST_BASE, .WIDTH, .HEIGHT, .GAMMA]
  | .sigmoid => [.SRC_BASE, .DST_BASE, .WIDTH, .HEIGHT, .CONTRAST]
  | .lutapply => [.SRC_BASE, .DST_BASE, .WIDTH, .HEIGHT]

end Sys2Proof.Machine
end

