-- ==== Sys2Proof/Machine/Gradient.lean ====
section
/-! DEFINITION. The convolution pipeline (spec/40_gradient.md): SOBEL, PREWITT, LAPLACIAN. -/

namespace Sys2Proof.Machine

open Sys2Proof

/-- A pixel at least one away from every edge (R92). -/
def interior (w h x y : Nat) : Bool :=
  decide (1 ≤ x) && decide (x + 2 ≤ w) && decide (1 ≤ y) && decide (y + 2 ≤ h)

/-- The pixels a gradient stage computes a response for (R92). -/
def processed (b : Border) (w h x y : Nat) : Bool :=
  match b with
  | .clamp => true
  | .skip => interior w h x y

/-- The neighbour that row `r` and column `c` of a kernel weigh (R94). -/
def Image.neighbour (img : Image) (x y r c : Nat) : Pixel :=
  img.samp ((x : Int) + c - 1) ((y : Int) + r - 1)

/-- The sum of `f r c` over the nine places of a 3×3 window. -/
def windowSum (f : Nat → Nat → Int) : Int :=
  ((List.range 3).map fun r => ((List.range 3).map fun c => f r c).sum).sum

/-- Directional response (R94). -/
def resp (k : Config.Kernel) (g : Pixel → Nat) (img : Image) (x y : Nat) : Int :=
  windowSum fun r c => Config.coef k r c * (g (img.neighbour x y r c) : Int)

/-- `S = GX1000² + GY1000²` (R95, R113). -/
def squaredMagnitude (kx ky : Config.Kernel) (img : Image) (x y : Nat) : Nat :=
  (resp kx luma1000 img x y).natAbs ^ 2 + (resp ky luma1000 img x y).natAbs ^ 2

/-- `magb`, the magnitude byte of `S` (R95). -/
def magByte (sq : Nat) : Nat := min 255 ((isqrt sq + 500) / 1000)

/-- The magnitude byte of a Laplacian response `L3` (R100). -/
def laplacianByte (l3 : Int) : Nat := min 255 ((l3.natAbs + 1) / 3)

/-- A grey pixel with the given alpha. -/
def greyPixel (m : Nat) (a : Byte) : Pixel := ⟨BitVec.ofNat 8 m, BitVec.ofNat 8 m, BitVec.ofNat 8 m, a⟩

/-- The output of the gradient operations: `m` in the colour bytes of a processed pixel, 0 in those of an
unprocessed one, alpha of the same pixel (R96, R97). -/
def gradientImage (b : Border) (m : Nat → Nat → Nat) (img : Image) : Image :=
  Image.ofFn img.w img.h fun x y =>
    greyPixel (if processed b img.w img.h x y then m x y else 0) (img.at x y).a

/-- SOBEL's output for the kernels `ks` (R98). -/
def sobelImage (ks : Config.Kernels) (b : Border) (img : Image) : Image :=
  gradientImage b (fun x y => magByte (squaredMagnitude ks.sobelX ks.sobelY img x y)) img

/-- PREWITT's output for the kernels `ks` (R99). -/
def prewittImage (ks : Config.Kernels) (b : Border) (img : Image) : Image :=
  gradientImage b (fun x y => magByte (squaredMagnitude ks.prewittX ks.prewittY img x y)) img

/-- LAPLACIAN's output for the kernels `ks` (R100). -/
def laplacianImage (ks : Config.Kernels) (b : Border) (img : Image) : Image :=
  gradientImage b (fun x y => laplacianByte (resp ks.laplacian sum3 img x y)) img

/-- What SOBEL computes (R98). -/
def sobelEffect (b : Border) (s : State) : Effect where
  dst := some (sobelImage Config.kernels b s.source)
  hist := .unchanged
  lut := .unchanged

/-- What PREWITT computes (R99). -/
def prewittEffect (b : Border) (s : State) : Effect where
  dst := some (prewittImage Config.kernels b s.source)
  hist := .unchanged
  lut := .unchanged

/-- What LAPLACIAN computes (R100). -/
def laplacianEffect (b : Border) (s : State) : Effect where
  dst := some (laplacianImage Config.kernels b s.source)
  hist := .unchanged
  lut := .unchanged

/-- SOBEL (R98). -/
def execSobel (b : Border) (s : State) : Host.Outcome State Fault Refusal :=
  complete (sobelEffect b s) s

/-- PREWITT (R99). -/
def execPrewitt (b : Border) (s : State) : Host.Outcome State Fault Refusal :=
  complete (prewittEffect b s) s

/-- LAPLACIAN (R100). -/
def execLaplacian (b : Border) (s : State) : Host.Outcome State Fault Refusal :=
  complete (laplacianEffect b s) s

end Sys2Proof.Machine
end

