-- ==== Sys2Proof/Machine/Canny.lean ====
section
/-! DEFINITION. The Canny gradient-magnitude and dual-threshold classifier (spec/41_canny.md). No
non-maximum suppression, no hysteresis, no threshold ordering check, no direction (R114, R121). -/

namespace Sys2Proof.Machine

open Sys2Proof

/-- One channel of the box blur: the sum of nine clamped samples divided by nine, rounded (R10, R111). -/
def blurChannel (img : Image) (ch : Pixel → Byte) (x y : Nat) : Nat :=
  ((windowSum fun r c => ((ch (img.neighbour x y r c)).toNat : Int)).toNat + 4) / 9

/-- Stage 1, box blur of every pixel, colour channels only (R111). -/
def blurImage (img : Image) : Image :=
  Image.ofFn img.w img.h fun x y =>
    ⟨BitVec.ofNat 8 (blurChannel img Pixel.r x y), BitVec.ofNat 8 (blurChannel img Pixel.g x y),
      BitVec.ofNat 8 (blurChannel img Pixel.b x y), (img.at x y).a⟩

/-- The three classes (R115). -/
inductive CannyClass
  | Strong
  | Weak
  | None
  deriving DecidableEq, Repr

/-- The magnitude exceeds a threshold: `S > (1000·T)²`, never for `T = 255` (R115). -/
def exceeds (sq t : Nat) : Bool := decide (t < 255) && decide ((1000 * t) ^ 2 < sq)

/-- Stage 3, classification, Strong tested first (R115, R118). -/
def cannyClass (low high : Nat) (isProcessed : Bool) (sq : Nat) : CannyClass :=
  if isProcessed && exceeds sq high then .Strong
  else if isProcessed && exceeds sq low then .Weak
  else .None

/-- Output mapping (R116). -/
def cannyPixel (alpha : NoneAlpha) (srcAlpha : Byte) : CannyClass → Pixel
  | .Strong => ⟨255, 255, 255, 255⟩
  | .Weak => ⟨128, 128, 128, 255⟩
  | .None =>
    match alpha with
    | .zero => ⟨0, 0, 0, 0⟩
    | .keep => ⟨0, 0, 0, srcAlpha⟩

/-- CANNY's output for the kernels `ks` (R110, R119). -/
def cannyImage (ks : Config.Kernels) (b : Border) (alpha : NoneAlpha) (low high : Nat) (img : Image) :
    Image :=
  let blurred := blurImage img
  Image.ofFn img.w img.h fun x y =>
    cannyPixel alpha (img.at x y).a
      (cannyClass low high (processed b img.w img.h x y)
        (squaredMagnitude ks.sobelX ks.sobelY blurred x y))

/-- What CANNY computes (R119). -/
def cannyEffect (b : Border) (alpha : NoneAlpha) (s : State) : Effect where
  dst := some (cannyImage Config.kernels b alpha s.threshLow.toNat s.threshHigh.toNat s.source)
  hist := .unchanged
  lut := .unchanged

/-- CANNY (R119). -/
def execCanny (b : Border) (alpha : NoneAlpha) (s : State) : Host.Outcome State Fault Refusal :=
  complete (cannyEffect b alpha s) s

end Sys2Proof.Machine
end

