-- ==== Sys2Proof/Machine/Clahe.lean ====
section
/-! DEFINITION. The tiled histogram accumulator with per-tile LUT (spec/42_clahe.md): CLAHE, with clipping,
without redistribution and without interpolation (R128, R133). -/

namespace Sys2Proof.Machine

open Sys2Proof

/-- A tile, half-open: `x1 ≤ x < x2`, `y1 ≤ y < y2` (R126). -/
structure Tile where
  x1 : Nat
  y1 : Nat
  x2 : Nat
  y2 : Nat
  deriving DecidableEq, Repr

/-- `tw = ceil_div(W, G)`, `th = ceil_div(H, G)` (R126). -/
def tileSide (extent grid : Nat) : Nat := ceilDiv extent grid

/-- The number of tile columns (rows) that exist, `ceil_div(W, tw)` (R126). -/
def tileCount (extent grid : Nat) : Nat := ceilDiv extent (tileSide extent grid)

/-- The tile `(tx, ty)`, clipped to the image (R126). -/
def tileAt (w h grid tx ty : Nat) : Tile where
  x1 := tx * tileSide w grid
  y1 := ty * tileSide h grid
  x2 := min w (tx * tileSide w grid + tileSide w grid)
  y2 := min h (ty * tileSide h grid + tileSide h grid)

/-- The pixels of a tile (R126). -/
def Tile.pixels (t : Tile) (img : Image) : List Pixel :=
  (List.range (t.y2 - t.y1)).flatMap fun dy =>
    (List.range (t.x2 - t.x1)).map fun dx => img.at (t.x1 + dx) (t.y1 + dy)

/-- `limit`, the clip limit of a tile of `n` pixels, `CL` in UQ16.16 (R128). -/
def clipBound (cl n : Nat) : Nat := (cl * n + 2 ^ 23) / 2 ^ 24

/-- The clipped histogram; the excess is discarded (R128). -/
def clipped (limit : Nat) (h : List Nat) : List Nat := h.map fun c => min c limit

/-- The tile's table from its CDF (R129 to R131). -/
def claheTable (d : Degen) (cdf : List Nat) : Table :=
  let first := cdf.getD 0 0
  let den := cdf.getD 255 0 - first
  if den = 0 then degenerateTable d
  else tableOf fun i => rhu (255 * (cdf.getD i 0 - first)) den

/-- `LUT_T` of a tile with the pixels `ps` (R127 to R131). -/
def tileTable (d : Degen) (cl : Nat) (ps : List Pixel) : Table :=
  claheTable d (cdfOf (clipped (clipBound cl ps.length) (histogramOf ps)))

/-- The tables of the existing tiles, row by row (R126, R134). -/
def tileTables (d : Degen) (cl grid : Nat) (img : Image) : List Table :=
  (List.range (tileCount img.h grid)).flatMap fun ty =>
    (List.range (tileCount img.w grid)).map fun tx =>
      tileTable d cl ((tileAt img.w img.h grid tx ty).pixels img)

/-- CLAHE's output: each pixel through the table of the one tile that contains it (R132 to R134). -/
def claheImage (d : Degen) (cl grid : Nat) (img : Image) : Image :=
  let tables := tileTables d cl grid img
  Image.ofFn img.w img.h fun x y =>
    Table.apply
      (tables.getD (y / tileSide img.h grid * tileCount img.w grid + x / tileSide img.w grid)
        (degenerateTable .identity))
      (img.at x y)

/-- What CLAHE computes; HIST and LUT become unspecified (R134, R135). -/
def claheEffect (d : Degen) (s : State) : Effect where
  dst := some (claheImage d s.clipLimit.toNat s.gridSize.toNat s.source)
  hist := .unspecified
  lut := .unspecified

/-- CLAHE (R134). -/
def execClahe (d : Degen) (s : State) : Host.Outcome State Fault Refusal :=
  complete (claheEffect d s) s

end Sys2Proof.Machine
end

