-- ==== Sys2Proof/Machine/Equalize.lean ====
section
/-! DEFINITION. The global histogram, CDF and remapping engine (spec/43_equalize.md): HIST, EQUALIZE. -/

namespace Sys2Proof.Machine

open Sys2Proof

/-- `CDF_min` of a histogram under a rule: the count of the first occupied bin, or of bin 0 (R146). -/
def cdfMin (rule : Config.CdfMinRule) (h : List Nat) : Nat :=
  match rule with
  | .firstNonzero => (h.find? fun c => decide (0 < c)).getD 0
  | .bin0 => h.getD 0 0

/-- The global table from the histogram of `n` pixels (R144, R146 to R148). -/
def globalTable (rule : Config.CdfMinRule) (d : Degen) (h : List Nat) (n : Nat) : Table :=
  let cdf := cdfOf h
  let low := cdfMin rule h
  let den := n - low
  if den = 0 then degenerateTable d
  else tableOf fun i =>
    if cdf.getD i 0 < low then 0 else rhu (255 * (cdf.getD i 0 - low)) den

/-- The table EQUALIZE builds from an image (R150). -/
def equalizeTable (rule : Config.CdfMinRule) (d : Degen) (img : Image) : Table :=
  globalTable rule d (histogramOf img.px) img.px.length

/-- What HIST computes (R142). -/
def histEffect (s : State) : Effect where
  dst := none
  hist := .wrote (histogramFile (histogramOf s.source.px))
  lut := .unchanged

/-- What EQUALIZE computes (R149, R150). -/
def equalizeEffect (d : Degen) (s : State) : Effect :=
  let table := equalizeTable Config.cdfMinRule d s.source
  { dst := some (s.source.mapPixels (Table.apply table))
    hist := .wrote (histogramFile (histogramOf s.source.px))
    lut := .wrote table }

/-- HIST (R142). -/
def execHist (s : State) : Host.Outcome State Fault Refusal :=
  complete (histEffect s) s

/-- EQUALIZE (R150). -/
def execEqualize (d : Degen) (s : State) : Host.Outcome State Fault Refusal :=
  complete (equalizeEffect d s) s

end Sys2Proof.Machine
end

