-- ==== Sys2Proof/Machine/Tone.lean ====
section
/-! DEFINITION. The tone-curve LUT applier (spec/44_tone.md): GAMMA, SIGMOID, LUTAPPLY. Both generated tables
are computed in exact integer arithmetic (spec/93_implementation_defined.md M6). -/

namespace Sys2Proof.Machine

open Sys2Proof

/-- The exponent `e = p/q` of the gamma curve in lowest terms (R158): `65536/GAMMA` or `GAMMA/65536`. -/
def gammaExponent (g : Nat) (e : GammaExp) : Nat × Nat :=
  let d := Nat.gcd 65536 g
  match e with
  | .inverse => (65536 / d, g / d)
  | .direct => (g / d, 65536 / d)

/-- `m ≤ 255·(i/255)^(p/q) + 1/2` for `m ≥ 1`, by comparing the `q`-th powers of `(2m − 1)/510` and
`(i/255)^(p/q)` as integers (R157, assumption log 16). -/
def gammaPowersReach (p q i m : Nat) : Bool :=
  decide ((2 * m - 1) ^ q * 255 ^ p ≤ i ^ p * 510 ^ q)

/-- The scale of `log2Scaled`. -/
def logScale : Nat := 65536

/-- `floor(65536·log2 n)` for `0 < n < 65536`, from the length of the 65536th power. -/
def log2Scaled (n : Nat) : Nat := bitSearch (fun l => decide (2 ^ l ≤ n ^ logScale)) 20 0

/-- The comparison of `gammaPowersReach`; where its powers would be huge, it is decided by logarithms if
they are far enough apart to decide it (assumption log 16). -/
def gammaReaches (p q i m : Nat) : Bool :=
  if p ≤ 2 ^ 20 ∧ q ≤ 2 ^ 20 then gammaPowersReach p q i m
  else if q * (log2Scaled (2 * m - 1) + 1) + p * (log2Scaled 255 + 1) ≤
      p * log2Scaled i + q * log2Scaled 510 then true
  else if p * (log2Scaled i + 1) + q * (log2Scaled 510 + 1) ≤
      q * log2Scaled (2 * m - 1) + p * log2Scaled 255 then false
  else gammaPowersReach p q i m

/-- `gamma_lut(GAMMA, GINV)[i]` (R157); `(255/255)^e` is 1 for every `e`. -/
def gammaEntry (g : Nat) (e : GammaExp) (i : Nat) : Nat :=
  if i = 0 then 0
  else if i = 255 then 255
  else
    let pq := gammaExponent g e
    bitSearch (gammaReaches pq.1 pq.2 i) 8 0

/-- `gamma_lut(GAMMA, GINV)` (R157). -/
def gammaTable (g : Nat) (e : GammaExp) : Table := tableOf (gammaEntry g e)

/-- The exponential series at `a/b` from the inside out: each step, for `k = n, n − 1, …, 1`, replaces the
fraction `f` by `1 + (a/(b·k))·f`. From `f = 1` it gives `Σ_{j ≤ n} (a/b)^j / j!`. -/
def expSum (a b : Nat) : Nat → Nat × Nat → Nat × Nat
  | 0, f => f
  | k + 1, f => expSum a b k (b * (k + 1) * f.2 + a * f.1, b * (k + 1) * f.2)

/-- A fraction not above `factor = exp(4·|c|)`, where `4·|c| = |CONTRAST|/16384` (R162): its series up to the
`n`-th term. -/
def factorLow (c : Int) (n : Nat) : Nat × Nat := expSum c.natAbs 16384 n (1, 1)

/-- A fraction not below `factor = exp(4·|c|)` (R162): the last term counted twice outweighs all that follow it,
for `n ≥ 8`. -/
def factorHigh (c : Int) (n : Nat) : Nat × Nat := expSum c.natAbs 16384 n (2, 1)

/-- The entry `i` of R163 for the factor `f`, before the clamp. -/
def scaledBy (f : Nat × Nat) (c : Int) (i : Nat) : Nat :=
  if 0 < c then rhu (i * f.1) f.2 else rhu (i * f.2) f.1

/-- The entry `i` of R163 for `factor = exp(4·|c|)`: the interval around the factor is refined, from `n` terms of
the series to `2·n` and so on, until its two ends round to one number, which is then the exact one (M6). The
refinement always ends so: before its bound of 32 doublings is reached the rounding is decided (assumption
log 15). -/
def scaledExactly (c : Int) (i : Nat) : Nat → Nat → Nat
  | 0, n => scaledBy (factorLow c n) c i
  | fuel + 1, n =>
    if scaledBy (factorLow c n) c i = scaledBy (factorHigh c n) c i then scaledBy (factorLow c n) c i
    else scaledExactly c i fuel (2 * n)

/-- `sigmoid_lut(CONTRAST)[i]` for `c = sext_32(CONTRAST)` (R163). -/
def sigmoidEntry (c : Int) (i : Nat) : Nat :=
  if c = 0 then i else clamp255 (scaledExactly c i 32 32)

/-- `sigmoid_lut(CONTRAST)` (R163). -/
def sigmoidTable (c : Int) : Table := tableOf (sigmoidEntry c)

/-- What GAMMA computes (R160). -/
def gammaEffect (e : GammaExp) (s : State) : Effect :=
  let table := gammaTable s.gamma.toNat e
  { dst := some (s.source.mapPixels (Table.apply table))
    hist := .unchanged
    lut := .wrote table }

/-- What SIGMOID computes (R166). -/
def sigmoidEffect (s : State) : Effect :=
  let table := sigmoidTable (sext32 s.contrast)
  { dst := some (s.source.mapPixels (Table.apply table))
    hist := .unchanged
    lut := .wrote table }

/-- What LUTAPPLY computes with the table the LUT file holds (R167), as of its acceptance (R212). -/
def lutapplyEffect (s : State) : Effect where
  dst := some (s.source.mapPixels (Table.apply s.operandLut))
  hist := .unchanged
  lut := .unchanged

/-- GAMMA (R160). -/
def execGamma (e : GammaExp) (s : State) : Host.Outcome State Fault Refusal :=
  complete (gammaEffect e s) s

/-- SIGMOID (R166). -/
def execSigmoid (s : State) : Host.Outcome State Fault Refusal :=
  complete (sigmoidEffect s) s

/-- LUTAPPLY (R167). -/
def execLutapply (s : State) : Host.Outcome State Fault Refusal :=
  complete (lutapplyEffect s) s

end Sys2Proof.Machine
end

