-- ==== Sys2Proof/Machine/Dispatch.lean ====
section
/-! DEFINITION. The meaning of each operation: its completion step (spec/10_state.md R44). -/

namespace Sys2Proof.Machine

open Sys2Proof

def exec (i : Instr) (s : State) : Host.Outcome State Fault Refusal :=
  match i with
  | .sobel b => Sys2Proof.Machine.execSobel b s
  | .prewitt b => Sys2Proof.Machine.execPrewitt b s
  | .laplacian b => Sys2Proof.Machine.execLaplacian b s
  | .canny b a => Sys2Proof.Machine.execCanny b a s
  | .clahe d => Sys2Proof.Machine.execClahe d s
  | .equalize d => Sys2Proof.Machine.execEqualize d s
  | .hist => Sys2Proof.Machine.execHist s
  | .gamma e => Sys2Proof.Machine.execGamma e s
  | .sigmoid => Sys2Proof.Machine.execSigmoid s
  | .lutapply => Sys2Proof.Machine.execLutapply s

end Sys2Proof.Machine
end

