-- ==== Sys2Proof/Machine/Effects.lean ====
section
/-! DEFINITION. What the pending operation would write, for the rules that speak of it before the completion
step: `rst` while BUSY (spec/70_reset_and_hazards.md R202) and host reads of the destination (R206). -/

namespace Sys2Proof.Machine

open Sys2Proof

/-- What an operation computes from the registers and the source region (R39, R58). -/
def effectOf (i : Instr) (s : State) : Effect :=
  match i with
  | .sobel b => sobelEffect b s
  | .prewitt b => prewittEffect b s
  | .laplacian b => laplacianEffect b s
  | .canny b a => cannyEffect b a s
  | .clahe d => claheEffect d s
  | .equalize d => equalizeEffect d s
  | .hist => histEffect s
  | .gamma e => gammaEffect e s
  | .sigmoid => sigmoidEffect s
  | .lutapply => lutapplyEffect s

/-- The bytes the pending operation `decode(CMD)` would write to its destination (R42, R202). -/
def State.pendingBytes (s : State) : List Byte :=
  match decode s.cmd with
  | .ok i =>
    match (effectOf i s).dst with
    | some img => img.bytes
    | none => []
  | .error _ => []

end Sys2Proof.Machine
end

