-- ==== Sys2Proof/Machine/Flags.lean ====
section
/-! DEFINITION. The block's only flags, STATUS and IEN, as register words (spec/10_state.md R33 to R35), and
the interrupt output (spec/60_exceptions.md R183). -/

namespace Sys2Proof.Machine

open Sys2Proof

/-- A flag at a bit position of a word. -/
def flagWord (b : Bool) (pos : Nat) : Word := if b then BitVec.ofNat 32 (2 ^ pos) else 0

/-- STATUS as the host reads it (R33): BUSY 0, DONE 1, ERR 2, WRBUSY 3, ERRCODE 15:8, the rest 0. -/
def Status.word (st : Status) : Word :=
  flagWord st.busy 0 ||| flagWord st.done 1 ||| flagWord st.err 2 ||| flagWord st.wrbusy 3 |||
    (st.errcode.setWidth 32 <<< 8)

/-- IEN as the host reads it (R35): DONE_IE 1, ERR_IE 2, the rest 0. -/
def Ien.word (e : Ien) : Word := flagWord e.doneIe 1 ||| flagWord e.errIe 2

/-- The fields of a word written to IEN (R35). -/
def Ien.ofWord (v : Word) : Ien := ⟨v.getLsbD 1, v.getLsbD 2⟩

/-- `irq`, level-sensitive, a pure function of current state (R183). -/
def State.irq (s : State) : Bool :=
  (s.status.done && s.ien.doneIe) || (s.status.err && s.ien.errIe)

/-- A write of STATUS (R34): bits 1, 2 and 3 clear DONE, ERR with ERRCODE, and WRBUSY; the rest is
ignored. -/
def State.writeStatus (s : State) (v : Word) : State :=
  s.acknowledge (v.getLsbD 1) (v.getLsbD 2) (v.getLsbD 3)

/-- Enabling DONE_IE while DONE is 1 asserts `irq` in the same step (R184), which is how the host observes the
completion (R61, assumption log 28). -/
def State.ienObserves (s : State) (e : Ien) : Bool := !s.status.busy && s.status.done && e.doneIe

/-- A write of IEN (R35). -/
def State.writeIen (s : State) (v : Word) : State :=
  let e := Ien.ofWord v
  { s with
    ien := e
    claim := if s.ienObserves e then none else s.claim
    earlier := if s.ienObserves e then [] else s.earlier }

end Sys2Proof.Machine
end

