-- ==== Sys2Proof/Machine/Validate.lean ====
section
/-! DEFINITION. `validate` (spec/60_exceptions.md R178, R179): the checks of a command word against the
parameter registers, in priority order. -/

namespace Sys2Proof.Machine

open Sys2Proof

/-- The source and the destination region have a byte in common (R56). -/
def State.regionsMeet (s : State) : Bool :=
  decide (s.srcAddr < s.dstAddr + s.regionLen) && decide (s.dstAddr < s.srcAddr + s.regionLen)

/-- The pointwise operations, which may work in place (R56). -/
def inPlaceAllowed : Instr → Bool
  | .gamma _ => true
  | .sigmoid => true
  | .lutapply => true
  | _ => false

/-- E_DIM: the image has no pixel (R177). -/
def State.failsDim (s : State) : Bool := decide (s.imgW = 0) || decide (s.imgH = 0)

/-- E_ALIGN: a base the operation uses is not a multiple of 4 (R54, R177). -/
def State.failsAlign (s : State) (wd : Bool) : Bool :=
  decide (s.srcAddr % 4 ≠ 0) || (wd && decide (s.dstAddr % 4 ≠ 0))

/-- E_RANGE: a region the operation uses does not fit the memory space (R55, R177). -/
def State.failsRange (s : State) (wd : Bool) : Bool :=
  !addressable s.srcAddr s.regionLen || (wd && !addressable s.dstAddr s.regionLen)

/-- E_OVERLAP: the regions meet and the operation does not allow it (R56, R177). -/
def State.failsOverlap (s : State) (i : Instr) : Bool :=
  writesDst i && s.regionsMeet && !(inPlaceAllowed i && decide (s.srcAddr = s.dstAddr))

/-- E_CONTRAST: the contrast is outside [−1, +1] (R31, R177). -/
def State.failsContrast (s : State) : Bool :=
  decide (sext32 s.contrast < -65536) || decide (sext32 s.contrast > 65536)

/-- The checks of an operation's own parameters (R177, R178). -/
def State.ownParameterError (s : State) : Instr → Option InvalidInput
  | .clahe _ =>
    if s.clipLimit = 0 then some .E_CLIP else if s.gridSize = 0 then some .E_GRID else none
  | .gamma _ => if s.gamma = 0 then some .E_GAMMA else none
  | .sigmoid => if s.failsContrast then some .E_CONTRAST else none
  | _ => none

/-- The checks of a decoded operation, the first failing one reported (R178, R179). -/
def State.validateInstr (s : State) (i : Instr) : Option InvalidInput :=
  if s.failsDim then some .E_DIM
  else if s.failsAlign (writesDst i) then some .E_ALIGN
  else if s.failsRange (writesDst i) then some .E_RANGE
  else if s.failsOverlap i then some .E_OVERLAP
  else s.ownParameterError i

/-- `validate(v)`: the first failing check, or `none` where the rule returns 0 (R178). -/
def State.validate (s : State) (v : Word) : Option InvalidInput :=
  match decode v with
  | .error _ => some .E_CMD
  | .ok i => s.validateInstr i

end Sys2Proof.Machine
end

