-- ==== Sys2Proof/Machine/Host.lean ====
section
/-! DEFINITION. The host's steps: the register port (spec/10_state.md R20 to R46), the CMD write that starts
an operation (R32), memory accesses under the ownership rules (spec/20_memory.md R61,
spec/70_reset_and_hazards.md R206), and `rst` (R200 to R203). -/

namespace Sys2Proof.Machine

open Sys2Proof

/-! ### Ownership of the regions (R61) -/

/-- The operation writes the HIST file (R39). -/
def writesHist : Instr → Bool
  | .clahe _ => true
  | .equalize _ => true
  | .hist => true
  | _ => false

/-- The operation writes the LUT file (R39). -/
def writesLut : Instr → Bool
  | .clahe _ => true
  | .equalize _ => true
  | .gamma _ => true
  | .sigmoid => true
  | _ => false

/-- The operation reads the LUT file (R79, R167). -/
def readsLut : Instr → Bool
  | .lutapply => true
  | _ => false

/-- The ownership an accepted command begins with (R51, R61). -/
def State.claimFor (s : State) (i : Instr) : Claim where
  src := s.srcAddr
  dst := s.dstAddr
  len := s.regionLen
  hasDst := writesDst i
  writesHist := writesHist i
  writesLut := writesLut i
  readsLut := readsLut i
  srcHit := false
  dstHit := []
  before := []
  seen := none

/-- The byte at `a` lies in the owned destination region. -/
def Claim.ownsDst (c : Claim) (a : Nat) : Bool :=
  c.hasDst && decide (c.dst ≤ a) && decide (a < c.dst + c.len)

/-- Some byte of `n` bytes from `a` lies in the owned source region. -/
def Claim.touchesSrc (c : Claim) (a n : Nat) : Bool :=
  decide (max a c.src < min (a + n) (c.src + c.len))

/-- The completions the host has not observed, oldest first (R61, R206; assumption log 30). -/
def State.completed (s : State) : List Claim :=
  s.earlier ++ if s.status.busy then [] else s.claim.toList

/-! ### Starting a command (R32) -/

/-- The state in which the operation of the command word `v` is pending: CMD holds `v`, the previous report
is cleared, BUSY is 1 and the engine owns the regions; it keeps what it owned before, if the host has not
observed that completion (R32, R42, R61). -/
def State.issue (s : State) (v : Word) : State :=
  { s with
    cmd := v
    status := { s.status with busy := true, done := false, err := false, errcode := 0 }
    claim := match decode v with
      | .ok i => some (s.claimFor i)
      | .error _ => none
    earlier := s.completed }

/-- The state in which the command word `v` is stored and the previous report is cleared (R32, R176). -/
def State.present (s : State) (v : Word) : State :=
  { s with
    cmd := v
    status := { s.status with done := false, err := false, errcode := 0 } }

/-- `RegWrite(0x000, v)` while BUSY = 0 (R32): the command is accepted, or InvalidInput is raised. -/
def State.startCommand (s : State) (v : Word) : State :=
  match s.validate v with
  | some e => (s.present v).raiseInvalidInput e
  | none => s.issue v

/-! ### Register writes (R22 to R38, R45) -/

/-- A write to a register other than STATUS and IEN while BUSY = 0: the fields of each register take their
bits, the other bits are ignored. -/
def State.writeIdle (s : State) (r : RegName) (v : Word) : State :=
  match r with
  | .CMD => s.startCommand v
  | .STATUS => s
  | .IEN => s
  | .SRC_BASE => { s with srcBase := v }
  | .DST_BASE => { s with dstBase := v }
  | .WIDTH => { s with width := v.extractLsb' 0 16 }
  | .HEIGHT => { s with height := v.extractLsb' 0 16 }
  | .THRESH => { s with threshLow := v.extractLsb' 0 8, threshHigh := v.extractLsb' 8 8 }
  | .CLIP_LIMIT => { s with clipLimit := v }
  | .GRID_SIZE => { s with gridSize := v.extractLsb' 0 16 }
  | .GAMMA => { s with gamma := v }
  | .CONTRAST => { s with contrast := v }
  | .HIST _ => s
  | .LUT i => { s with lut := s.lut.set i.val (v.extractLsb' 0 8) }

/-- A write dropped because BUSY is 1 (R45). -/
def State.dropWrite (s : State) : State := { s with status := { s.status with wrbusy := true } }

/-- A write to the register at an offset, `none` for a reserved offset (R34, R35, R36, R45). -/
def State.writeReg (s : State) (r : Option RegName) (v : Word) : State :=
  match r with
  | some .STATUS => s.writeStatus v
  | some .IEN => s.writeIen v
  | some r => if s.status.busy then s.dropWrite else s.writeIdle r v
  | none => if s.status.busy then s.dropWrite else s

/-! ### Register reads (R22 to R38, R46) -/

/-- The value of a register (R22 to R38); HIST and LUT read free values while BUSY (R46). -/
def State.regValue (s : State) : RegName → Word
  | .CMD => s.cmd
  | .STATUS => s.status.word
  | .IEN => s.ien.word
  | .SRC_BASE => s.srcBase
  | .DST_BASE => s.dstBase
  | .WIDTH => s.width.setWidth 32
  | .HEIGHT => s.height.setWidth 32
  | .THRESH => s.threshLow.setWidth 32 ||| (s.threshHigh.setWidth 32 <<< 8)
  | .CLIP_LIMIT => s.clipLimit
  | .GRID_SIZE => s.gridSize.setWidth 32
  | .GAMMA => s.gamma
  | .CONTRAST => s.contrast
  | .HIST i => if s.status.busy then Config.freeWord s.free else s.hist[i.val]
  | .LUT i => (if s.status.busy then Config.freeByte s.free else s.lut[i.val]).setWidth 32

/-- The value a read of an offset returns; a reserved offset reads 0 (R36). -/
def State.readValue (s : State) : Option RegName → Word
  | some r => s.regValue r
  | none => 0

/-- A read of STATUS that shows BUSY = 0 is how the host observes a completion (R61). -/
def State.readObserves (s : State) (r : Option RegName) : Bool := decide (r = some .STATUS) && !s.status.busy

/-- A register read returns its value and changes nothing of the block's state (R20). -/
def State.readReg (s : State) (r : Option RegName) : State :=
  { s with
    rdata := s.readValue r
    claim := if s.readObserves r then none else s.claim
    earlier := if s.readObserves r then [] else s.earlier
    free := s.free + 1 }

/-! ### Host memory accesses (R50, R61, R206) -/

/-- The byte of the pending operation's destination the host reads at `a`, at place `k` of its access: the old
byte or the new one, or any byte if the host wrote the source; elsewhere memory's (R206). -/
def State.pendingByte (s : State) (pending : List Byte) (k a : Nat) : Byte :=
  match s.claim with
  | none => s.mem.read a
  | some c =>
    if s.status.busy && c.ownsDst a then
      if Config.freeChoice (s.free + k) then s.mem.read a
      else if c.srcHit then Config.freeByte (s.free + k)
      else pending.getD (a - c.dst) Config.unlistedByte
    else s.mem.read a

/-- The byte the host reads at `a` where completions it has not observed wrote it: `b`, or the byte from before
one of them, by the choices of index `i`, `i + n`, … (R206, assumption logs 9 and 30). -/
def lateByte (a n : Nat) : Nat → Byte → List Claim → Byte
  | _, b, [] => b
  | i, b, c :: cs =>
    lateByte a n (i + n) (if c.ownsDst a && Config.freeChoice i then c.before.read a else b) cs

/-- The byte at `a` that the host reads at place `k` of an access of `n` bytes (R50, R206). -/
def State.hostByte (s : State) (pending : List Byte) (n k a : Nat) : Byte :=
  lateByte a n (s.free + n + k) (s.pendingByte pending k a) s.completed

/-- The host reads `n` bytes from `a` (R50). -/
def State.hostRead (s : State) (a n : Nat) : State :=
  let pending := s.pendingBytes
  { s with
    mdata := (List.range n).map fun k => s.hostByte pending n k (a + k)
    free := s.free + n * (1 + s.completed.length) }

/-- The record of a pending operation after the host wrote `n` bytes from `a` (R206). -/
def Claim.recordWrite (c : Claim) (a n : Nat) : Claim :=
  { c with
    srcHit := c.srcHit || c.touchesSrc a n
    dstHit := c.dstHit ++ ((List.range n).map fun k => a + k).filter c.ownsDst }

/-- The byte stored where the host writes `b` at `a`, at place `k` of its access: inside the destination of a
completion it has not observed, its own or the engine's (R206, assumption log 9). -/
def State.mixedByte (s : State) (k a : Nat) (b : Byte) : Byte :=
  if s.completed.any (·.ownsDst a) && Config.freeChoice (s.free + k) then s.mem.read a else b

/-- The pending operation of `d` reads what the completed one of `c` wrote, in its source region or in LUT (R58,
R167). -/
def Claim.feeds (c d : Claim) : Bool :=
  (c.hasDst && d.touchesSrc c.dst c.len) || (c.writesLut && d.readsLut)

/-- The record of a pending operation before the host writes `n` bytes from `a`: where that makes results
unspecified which the operation reads, its operands stay as they stood (R61, R206: nothing outside the regions of
the completion whose source is written is affected; assumption log 30). -/
def State.holdOperands (s : State) (a n : Nat) (d : Claim) : Claim :=
  if s.completed.any fun c => c.touchesSrc a n && c.feeds d then
    { d with seen := some (d.seen.getD (s.mem, s.lut)) }
  else d

/-- The ownership record of the last command after the host wrote `n` bytes from `a` (R61, R206). -/
def State.claimAfterWrite (s : State) (a n : Nat) : Option Claim :=
  if s.status.busy then s.claim.map fun d => (s.holdOperands a n d).recordWrite a n else s.claim

/-- The host's bytes stored, and the write recorded while an operation is pending (R50, R206). -/
def State.storeBytes (s : State) (a : Nat) (bs : List Byte) : State :=
  { s with
    mem := s.mem.writeBytes a (bs.mapIdx fun k b => s.mixedByte k (a + k) b)
    claim := s.claimAfterWrite a bs.length
    free := s.free + bs.length }

/-- The destination byte at offset `k` of a completion that becomes unspecified: a free value, unless a `newer`
completion wrote that byte (R206, R212). -/
def State.unsettledByte (s : State) (newer : List Claim) (c : Claim) (k : Nat) : Byte :=
  if newer.any (·.ownsDst (c.dst + k)) then s.mem.read (c.dst + k) else Config.freeByte (s.free + k)

/-- What a completion wrote becomes unspecified: every destination byte, and HIST and LUT where the operation
wrote them, are free values (R206, assumption logs 9 and 27), but for what the `newer` completions have written
since, which depends on no earlier operation (R212, assumption log 30). -/
def State.unsettle (s : State) (newer : List Claim) (c : Claim) : State :=
  { s with
    mem :=
      if c.hasDst then s.mem.writeBytes c.dst ((List.range c.len).map (s.unsettledByte newer c)) else s.mem
    hist := if c.writesHist && !newer.any (·.writesHist) then freeHistogram (s.free + c.len) else s.hist
    lut := if c.writesLut && !newer.any (·.writesLut) then freeTable (s.free + c.len + 256) else s.lut
    free := s.free + drawn c.len }

/-- Of the completions given, oldest first, each whose source a host write of `n` bytes from `a` meets becomes
unspecified; no other is affected (R206). -/
def unsettleTouched (a n : Nat) : List Claim → State → State
  | [], s => s
  | c :: newer, s => unsettleTouched a n newer (if c.touchesSrc a n then s.unsettle newer c else s)

/-- The host writes the bytes `bs` from `a` (R50, R61): they are stored, and a completion it has not observed
whose source they meet becomes unspecified (R206). -/
def State.hostWrite (s : State) (a : Nat) (bs : List Byte) : State :=
  unsettleTouched a bs.length s.completed (s.storeBytes a bs)

/-! ### Reset (R200 to R203) -/

/-- A destination byte after `rst` abandons the operation that would have written `b` at offset `k`: the old
byte, or what the operation would have written (R202, assumption log 11). -/
def State.abandonedByte (s : State) (k : Nat) (b : Byte) : Byte :=
  if Config.freeChoice (s.free + k) then s.mem.read (s.dstAddr + k)
  else if s.srcHit then Config.freeByte (s.free + k)
  else b

/-- Memory after `rst`: untouched, but for the destination region of an abandoned operation (R202, R203). -/
def State.memAfterReset (s : State) : Memory :=
  if s.status.busy then s.mem.writeBytes s.dstAddr (s.pendingBytes.mapIdx fun k b => s.abandonedByte k b)
  else s.mem

/-- The ownership of a completion not yet observed after `rst`: HIST and LUT hold their reset values, not its
results (R47, R61, assumption log 12). -/
def Claim.sparingFiles (c : Claim) : Claim := { c with writesHist := false, writesLut := false }

/-- `rst` (R200): every item of architectural state takes its reset value, a pending operation is discarded
without DONE. What the host has read and what it will do next are not the block's; a completion it has not
observed stays unobserved (R61, assumption log 12). -/
def State.assertReset (s : State) : State :=
  { State.reset with
    mem := s.memAfterReset
    earlier := s.completed.map Claim.sparingFiles
    inputs := s.inputs
    rdata := s.rdata
    mdata := s.mdata
    free := s.free + s.regionLen }

/-! ### One host step -/

/-- What a host step does; one that is not part of the interface is refused (M9), a memory access outside
the memory space faults (R50). -/
def hostStep (h : HostStep) (s : State) : Host.Outcome State Fault Refusal :=
  match h with
  | .regRead off =>
    if portOffset off then .next (s.readReg (regAt off)) else .refused .notAWordAccess
  | .regWrite off v =>
    if portOffset off then .next (s.writeReg (regAt off) v) else .refused .notAWordAccess
  | .narrow _ _ => .refused .notAWordAccess
  | .memRead a n =>
    if addressable a n then .next (s.hostRead a n) else .fault .outsideAddressSpace
  | .memWrite a bs =>
    if addressable a bs.length then .next (s.hostWrite a bs) else .fault .outsideAddressSpace
  | .wait => .next (s.readReg (some .STATUS))
  | .rst => .next s.assertReset
  | .engine => .next s

end Sys2Proof.Machine
end

