-- ==== Sys2Proof/Machine/Schedule.lean ====
section
/-! DEFINITION. Whose turn it is (spec/00_scope.md R7, spec/10_state.md R42, R44, spec/70_reset_and_hazards.md
R214; assumption log 1). -/

namespace Sys2Proof.Machine

open Sys2Proof

/-- The turn the machine takes next, with the state it is taken in. -/
inductive Turn
  /-- Nothing is scheduled and nothing is pending: the block stays idle (R42, R193). -/
  | idle
  /-- The engine completes the pending operation (R44). -/
  | engine (s : State)
  /-- The host acts. -/
  | host (h : HostStep) (s : State)
  deriving DecidableEq, Repr

/-- The next turn. With nothing scheduled a pending operation completes, which is the liveness of R214. An
engine turn while BUSY = 0 is not enabled (R44) and passes. `WAIT` reads STATUS; while BUSY reads 1 the
engine gets a turn before the next read (R83, R214, assumption log 18). -/
def nextTurn (s : State) : Turn :=
  match s.inputs with
  | [] => if s.status.busy then .engine s else .idle
  | .engine :: rest =>
    if s.status.busy then .engine { s with inputs := rest } else .host .engine { s with inputs := rest }
  | .wait :: rest =>
    .host .wait { s with inputs := if s.status.busy then .engine :: .wait :: rest else rest }
  | h :: rest => .host h { s with inputs := rest }

end Sys2Proof.Machine
end

