-- ==== Sys2Proof/Machine/Step.lean ====
section
/-! DEFINITION. One step of the machine: a host step, or the completion of the pending operation
(spec/10_state.md R20, R42, R44). -/

namespace Sys2Proof.Machine

open Sys2Proof

/-- The engine's turn while BUSY = 1: the pending operation is `decode(CMD)` (R42, R44). -/
def runPending (s : State) : Host.Outcome State Fault Refusal :=
  match decode s.cmd with
  | .ok i => exec i s
  | .error _ => .fault .illegalPending

/-- One step: the turn that is next (R7). -/
def step (s : State) : Host.Outcome State Fault Refusal :=
  match nextTurn s with
  | .idle => .next s
  | .engine s' => runPending s'
  | .host h s' => hostStep h s'

/-- The command word `w` pending and the engine's turn next (R42; assumption log 3): what an accepted CMD
write of `w` leaves. -/
def State.withFetchWord (s : State) (nbits w : Nat) : State :=
  { s.issue (BitVec.ofNat 32 (w % 2 ^ nbits)) with inputs := .engine :: s.inputs }

end Sys2Proof.Machine
end

