-- ==== Sys2Proof/Machine/Script.lean ====
section
/-! DEFINITION. Host scripts (spec/30_encoding.md R83 to R85): statements and pseudo-statements expanded into
the host's steps. -/

namespace Sys2Proof.Machine

open Sys2Proof

/-- `WR reg, value` (R83). -/
def wr (r : RegName) (v : Word) : HostStep := .regWrite (regOffset r) v

/-- The host steps of a statement (R83) or pseudo-statement (R85). -/
def expand : Stmt → List HostStep
  | .WR r v => [wr r v]
  | .RD r => [.regRead (regOffset r)]
  | .MW a bs => [.memWrite a bs]
  | .MR a n => [.memRead a n]
  | .WAIT => [.wait]
  | .START i => [wr .CMD (encode i)]
  | .RUN i => [wr .CMD (encode i), .wait]
  | .CLR => [wr .STATUS 0x0000000E]
  | .IMG w h => [wr .WIDTH w, wr .HEIGHT h]
  | .BUF a d => [wr .SRC_BASE a, wr .DST_BASE d]
  | .CANNYT low high => [wr .THRESH ((high.setWidth 32 <<< 8) ||| low.setWidth 32)]

/-- `q16(n/d)`: `round(x·65536)` modulo 2^32 (R83). -/
def q16 (n : Int) (d : Nat) : Word := BitVec.ofInt 32 ((2 * n * 65536 + d) / (2 * d))

/-- A script scheduled after the turns already there (R84). -/
def State.withScript (s : State) (script : List Stmt) : State :=
  { s with inputs := s.inputs ++ script.flatMap expand }

end Sys2Proof.Machine
end

