-- ==== Sys2Proof/Safety.lean ====
section
/-! DEFINITION. What the rules promise of every run, in the terms the claims use: the flag invariants of
spec/10_state.md R33, the soundness of a pending operation (R32, R44), and who may stop the machine. -/

namespace Sys2Proof.Machine

open Sys2Proof

/-- BUSY, DONE and ERR are never two at once 1, and ERRCODE is non-zero exactly when ERR is 1, and then a
code of R177 (R33). -/
def Status.legal (st : Status) : Bool :=
  !(st.busy && st.done) && !(st.busy && st.err) && !(st.done && st.err) &&
    (st.err == decide (st.errcode ≠ 0)) && decide (st.errcode.toNat ≤ 9)

/-- The host kept to the ownership of the regions while the operation was pending (R61). -/
structure State.ownershipKept (s : State) : Prop where
  source : s.srcHit = false
  destination : ∀ a, s.dstHit a = false

/-- The ownership record of a pending operation names the regions and files of that operation (R51, R61). -/
def State.ownsPending (s : State) : Prop :=
  ∃ i c, decode s.cmd = .ok i ∧ s.claim = some c ∧
    c.src = s.srcAddr ∧ c.dst = s.dstAddr ∧ c.len = s.regionLen ∧
    c.hasDst = writesDst i ∧ c.writesHist = writesHist i ∧ c.writesLut = writesLut i ∧
    c.readsLut = readsLut i

/-- What every reachable state satisfies: memory in canonical form, legal flags (R33), a pending operation
that passed `validate` (R32, R44) and owns its regions (R61), and every owned destination inside the memory
space (R55). -/
structure State.Inv (s : State) : Prop where
  memory : s.mem.wf = true
  flags : s.status.legal = true
  pending : s.status.busy = true → s.validate s.cmd = none
  owner : s.status.busy = true → s.ownsPending
  region : ∀ c, s.claim = some c ∨ c ∈ s.earlier → c.hasDst = true → c.dst + c.len ≤ addressSpace

/-- The host's next access leaves the memory space. -/
def State.hostLeavesMemory (s : State) : Prop :=
  ∃ h rest, s.inputs = h :: rest ∧
    ((∃ a n, h = .memRead a n ∧ addressable a n = false) ∨
      (∃ a bs, h = .memWrite a bs ∧ addressable a bs.length = false))

/-- The host's next access of the register port is not a word access of the window. -/
def State.hostMisusesPort (s : State) : Prop :=
  ∃ h rest, s.inputs = h :: rest ∧
    ((∃ off, h = .regRead off ∧ portOffset off = false) ∨
      (∃ off v, h = .regWrite off v ∧ portOffset off = false) ∨
      (∃ off n, h = .narrow off n))

/-- The step is taken: the machine does not stop. -/
def State.runs (s : State) : Prop := ∃ t, step s = .next t

end Sys2Proof.Machine
end

