-- ==== Sys2Proof/Certificates/Slice0/Obligations.lean ====
section
/-! DEFINITION. The statements for the provers, with the words they are written in. The words restate the
rules of spec/ without the model's own datapath functions. -/

namespace Sys2Proof.Claims

open Sys2Proof Sys2Proof.Machine

/-! ### Words about images -/

/-- `(x, y)` is a position of the image (R19). -/
def inImage (s : State) (x y : Nat) : Prop := x < s.imgW ∧ y < s.imgH

/-- `src(x, y)` (R53), as the operation reads it: the present memory, or that of its acceptance where an earlier
result among its operands has become unspecified since (R61, assumption log 30). -/
def src (s : State) (x y : Nat) : Pixel := s.operandMem.pixel (s.srcAddr + 4 * (y * s.imgW + x))

/-- `dst(x, y)` of `s`'s destination region, as `t`'s memory holds it (R53). -/
def dst (s t : State) (x y : Nat) : Pixel := t.mem.pixel (s.dstAddr + 4 * (y * s.imgW + x))

/-- The coordinate `v + d` clamped to `0 … n − 1` (R91). -/
def near (n v : Nat) (d : Int) : Nat := (min ((n : Int) - 1) (max 0 ((v : Int) + d))).toNat

/-- `samp(src, x + dx, y + dy)` (R91). -/
def sample (s : State) (x y : Nat) (dx dy : Int) : Pixel := src s (near s.imgW x dx) (near s.imgH y dy)

/-- `299·R + 587·G + 114·B` (R93). -/
def luma (p : Pixel) : Int := 299 * p.r.toNat + 587 * p.g.toNat + 114 * p.b.toNat

/-- The sum of nine terms over `dx, dy ∈ {−1, 0, 1}`. -/
def nine (f : Int → Int → Nat) : Nat :=
  f (-1) (-1) + f 0 (-1) + f 1 (-1) + (f (-1) 0 + f 0 0 + f 1 0) + (f (-1) 1 + f 0 1 + f 1 1)

/-- A processed pixel (R92). -/
def processedAt (b : Border) (s : State) (x y : Nat) : Prop :=
  b = .clamp ∨ (1 ≤ x ∧ x + 2 ≤ s.imgW ∧ 1 ≤ y ∧ y + 2 ≤ s.imgH)

/-- A pixel with `m` in each colour byte (R98). -/
def grey (m : Nat) (a : Byte) : Pixel := ⟨BitVec.ofNat 8 m, BitVec.ofNat 8 m, BitVec.ofNat 8 m, a⟩

/-- The magnitude byte of two responses (R95). -/
def magnitude (gx gy : Int) : Nat := min 255 ((Nat.sqrt (gx ^ 2 + gy ^ 2).toNat + 500) / 1000)

/-- The Sobel responses over a grey function of the neighbour's offset (R9, R94). -/
def sobelX (l : Int → Int → Int) : Int :=
  (l 1 (-1) + 2 * l 1 0 + l 1 1) - (l (-1) (-1) + 2 * l (-1) 0 + l (-1) 1)

def sobelY (l : Int → Int → Int) : Int :=
  (l (-1) 1 + 2 * l 0 1 + l 1 1) - (l (-1) (-1) + 2 * l 0 (-1) + l 1 (-1))

/-- The Prewitt responses over a grey function of the neighbour's offset (R9, R94). -/
def prewittX (l : Int → Int → Int) : Int :=
  (l 1 (-1) + l 1 0 + l 1 1) - (l (-1) (-1) + l (-1) 0 + l (-1) 1)

def prewittY (l : Int → Int → Int) : Int :=
  (l (-1) 1 + l 0 1 + l 1 1) - (l (-1) (-1) + l 0 (-1) + l 1 (-1))

/-- `R + G + B` (R93). -/
def colourSum (p : Pixel) : Int := (p.r.toNat : Int) + p.g.toNat + p.b.toNat

/-- The box-blurred pixel at `(x, y)` (R111). -/
def blurred (s : State) (x y : Nat) : Pixel :=
  ⟨BitVec.ofNat 8 ((nine (fun dx dy => (sample s x y dx dy).r.toNat) + 4) / 9),
    BitVec.ofNat 8 ((nine (fun dx dy => (sample s x y dx dy).g.toNat) + 4) / 9),
    BitVec.ofNat 8 ((nine (fun dx dy => (sample s x y dx dy).b.toNat) + 4) / 9),
    (src s x y).a⟩

/-- The luma of the blurred image at a clamped offset (R113). -/
def blurredLuma (s : State) (x y : Nat) (dx dy : Int) : Int :=
  luma (blurred s (near s.imgW x dx) (near s.imgH y dy))

/-- `S` of CANNY (R113). -/
def cannySquare (s : State) (x y : Nat) : Int :=
  sobelX (blurredLuma s x y) ^ 2 + sobelY (blurredLuma s x y) ^ 2

/-- The magnitude at `(x, y)` exceeds the threshold `t` (R115). -/
def above (b : Border) (s : State) (x y t : Nat) : Prop :=
  processedAt b s x y ∧ t < 255 ∧ cannySquare s x y > (1000 * (t : Int)) ^ 2

/-! ### Words about histograms and tables -/

/-- `bin` of a pixel (R127). -/
def binOf (p : Pixel) : Nat := (299 * p.r.toNat + 587 * p.g.toNat + 114 * p.b.toNat + 500) / 1000

/-- The number of source pixels in bin `i` inside `x1 ≤ x < x2`, `y1 ≤ y < y2` (R127, R141). -/
def countIn (s : State) (x1 y1 x2 y2 i : Nat) : Nat :=
  ((Finset.Ico x1 x2 ×ˢ Finset.Ico y1 y2).filter fun p => binOf (src s p.1 p.2) = i).card

/-- The global histogram (R141). -/
def globalCount (s : State) (i : Nat) : Nat := countIn s 0 0 s.imgW s.imgH i

/-- `CDF[i] = Σ_{j ≤ i} h[j]` (R129, R144). -/
def cdf (h : Nat → Nat) (i : Nat) : Nat := ∑ j ∈ Finset.range (i + 1), h j

/-- Entry `v` of a table. -/
def entry (t : Table) (v : Byte) : Byte := t[v.toNat]'v.isLt

/-- Every colour byte looked up, alpha kept (R156). -/
def through (t : Table) (p : Pixel) : Pixel := ⟨entry t p.r, entry t p.g, entry t p.b, p.a⟩

/-- Entry `i` of the degenerate table (R75). -/
def degenerate (d : Degen) (i : Nat) : Nat :=
  match d with
  | .identity => i
  | .zero => 0

/-- `(x, y)` lies in the tile `t` (R126). -/
def covers (t : Tile) (x y : Nat) : Prop := t.x1 ≤ x ∧ x < t.x2 ∧ t.y1 ≤ y ∧ y < t.y2

/-- The tile side `ceil_div(extent, G)` (R126). -/
def side (extent grid : Nat) : Nat := (extent + grid - 1) / grid

/-- The tile `(tx, ty)` of `s` as its four bounds (R126). -/
def tileX1 (s : State) (tx : Nat) : Nat := tx * side s.imgW s.gridSize.toNat
def tileX2 (s : State) (tx : Nat) : Nat := min s.imgW (tileX1 s tx + side s.imgW s.gridSize.toNat)
def tileY1 (s : State) (ty : Nat) : Nat := ty * side s.imgH s.gridSize.toNat
def tileY2 (s : State) (ty : Nat) : Nat := min s.imgH (tileY1 s ty + side s.imgH s.gridSize.toNat)

/-- `(x, y)` lies in the existing tile `(tx, ty)` (R126). -/
def inTile (s : State) (tx ty x y : Nat) : Prop :=
  tx < s.gridSize.toNat ∧ ty < s.gridSize.toNat ∧ tileX1 s tx < s.imgW ∧ tileY1 s ty < s.imgH ∧
    tileX1 s tx ≤ x ∧ x < tileX2 s tx ∧ tileY1 s ty ≤ y ∧ y < tileY2 s ty

/-- The clipped histogram of a tile (R127, R128). -/
def clippedCount (s : State) (tx ty i : Nat) : Nat :=
  min (countIn s (tileX1 s tx) (tileY1 s ty) (tileX2 s tx) (tileY2 s ty) i)
    ((s.clipLimit.toNat * ((tileX2 s tx - tileX1 s tx) * (tileY2 s ty - tileY1 s ty)) + 2 ^ 23) / 2 ^ 24)

/-- `LUT_T[i]` of a tile (R129 to R131). -/
def tileEntry (d : Degen) (s : State) (tx ty i : Nat) : Nat :=
  let c := cdf (clippedCount s tx ty)
  let den := c 255 - c 0
  if den = 0 then degenerate d i else (510 * (c i - c 0) + den) / (2 * den)

/-- `CDF_min` of the global histogram: the count of the first occupied bin (R146). -/
def isCdfMin (s : State) (m : Nat) : Prop :=
  ∃ i, i < 256 ∧ 0 < globalCount s i ∧ (∀ j, j < i → globalCount s j = 0) ∧ m = globalCount s i

/-- `LUT[i]` of EQUALIZE (R147, R148). -/
def globalEntry (d : Degen) (s : State) (m i : Nat) : Nat :=
  let c := cdf (globalCount s)
  let den := s.pixelCount - m
  if den = 0 then degenerate d i
  else if c i < m then 0 else (510 * (c i - m) + den) / (2 * den)

/-- The exponent of the gamma curve (R158). -/
noncomputable def gammaPower (s : State) (e : GammaExp) : ℝ :=
  match e with
  | .inverse => 65536 / (s.gamma.toNat : ℝ)
  | .direct => (s.gamma.toNat : ℝ) / 65536

/-- `factor = exp(4·|c|)` with `c = CONTRAST / 65536` (R162). -/
noncomputable def factor (contrast : Int) : ℝ := Real.exp (4 * |(contrast : ℝ) / 65536|)

/-- The newest of the completions the host has not observed that `p` accepts (R61, R206). -/
def newest (p : Claim → Bool) (s : State) : Option Claim := s.completed.reverse.find? p

/-! ### Words about completions -/

/-- The state can complete the operation `i`: memory is canonical, the regions lie inside the memory space
(R55), the host kept to the ownership (R61). -/
structure Ready (i : Instr) (s : State) : Prop where
  memory : s.mem.wf = true
  source : s.srcAddr + s.regionLen ≤ addressSpace
  destination : writesDst i = true → s.dstAddr + s.regionLen ≤ addressSpace
  kept : s.ownershipKept

/-- What every completion of `i` leaves as it was, and what it does to STATUS (R39, R44, R57). HIST and LUT
are spoken of only where the operation does not write them. -/
structure Completes (i : Instr) (s t : State) : Prop where
  status : t.status = { s.status with busy := false, done := true }
  cmd : t.cmd = s.cmd
  ien : t.ien = s.ien
  srcBase : t.srcBase = s.srcBase
  dstBase : t.dstBase = s.dstBase
  width : t.width = s.width
  height : t.height = s.height
  threshLow : t.threshLow = s.threshLow
  threshHigh : t.threshHigh = s.threshHigh
  clipLimit : t.clipLimit = s.clipLimit
  gridSize : t.gridSize = s.gridSize
  gamma : t.gamma = s.gamma
  contrast : t.contrast = s.contrast
  inputs : t.inputs = s.inputs
  rdata : t.rdata = s.rdata
  mdata : t.mdata = s.mdata
  claim : t.claim = s.claimAfterCompletion
  earlier : t.earlier = s.earlierAfterCompletion
  free : t.free = s.free + drawn s.regionLen
  hist : writesHist i = false → t.hist = s.hist
  lut : writesLut i = false → t.lut = s.lut
  memory : ∀ a, (writesDst i = true → a < s.dstAddr ∨ s.dstAddr + s.regionLen ≤ a) →
    t.mem.read a = s.mem.read a

/-- HIST and LUT are unchanged (R39). -/
def KeepsFiles (s t : State) : Prop := t.hist = s.hist ∧ t.lut = s.lut

/-- HIST holds the global histogram of the source image (R141, R142). -/
def HoldsHistogram (s t : State) : Prop :=
  ∀ i (hi : i < 256), (t.hist[i]'hi).toNat = globalCount s i

/-! ### Words about commands and registers -/

/-- The n-th check of R178 fails for the command word `v`, by its error code (R177). -/
def failsCheck (s : State) (v : Word) : Nat → Prop
  | 1 => legalWord v = false
  | 2 => s.imgW = 0 ∨ s.imgH = 0
  | 3 => s.srcAddr % 4 ≠ 0 ∨ (v.toNat % 16 ≠ 7 ∧ s.dstAddr % 4 ≠ 0)
  | 4 => s.srcAddr + 4 * (s.imgW * s.imgH) > 2 ^ 32 ∨
      (v.toNat % 16 ≠ 7 ∧ s.dstAddr + 4 * (s.imgW * s.imgH) > 2 ^ 32)
  | 5 => v.toNat % 16 ≠ 7 ∧ s.srcAddr < s.dstAddr + 4 * (s.imgW * s.imgH) ∧
      s.dstAddr < s.srcAddr + 4 * (s.imgW * s.imgH) ∧
      ¬ ((v.toNat % 16 = 8 ∨ v.toNat % 16 = 9 ∨ v.toNat % 16 = 10) ∧ s.srcAddr = s.dstAddr)
  | 6 => v.toNat % 16 = 5 ∧ s.clipLimit = 0
  | 7 => v.toNat % 16 = 5 ∧ s.gridSize = 0
  | 8 => v.toNat % 16 = 8 ∧ s.gamma = 0
  | 9 => v.toNat % 16 = 9 ∧ (s.contrast.toInt < -65536 ∨ s.contrast.toInt > 65536)
  | _ => False

/-- The bits of a register that a host write stores (R23 to R31, R35, R38). -/
def storedBits : RegName → Word
  | .IEN => 0x00000006
  | .SRC_BASE => 0xFFFFFFFF
  | .DST_BASE => 0xFFFFFFFF
  | .WIDTH => 0x0000FFFF
  | .HEIGHT => 0x0000FFFF
  | .THRESH => 0x0000FFFF
  | .CLIP_LIMIT => 0xFFFFFFFF
  | .GRID_SIZE => 0x0000FFFF
  | .GAMMA => 0xFFFFFFFF
  | .CONTRAST => 0xFFFFFFFF
  | .LUT _ => 0x000000FF
  | .CMD => 0
  | .STATUS => 0
  | .HIST _ => 0

/-- The registers that a host write stores a value in, without any other effect. -/
def isStored (r : RegName) : Prop := r ≠ .CMD ∧ r ≠ .STATUS ∧ ∀ i, r ≠ .HIST i

/-- The value of a register from its fields at the places the rules give them, reserved and hardwired bits 0
(R22 to R35); the entries of HIST and LUT are not registers of this kind. -/
def fieldValue (s : State) : RegName → Option Nat
  | .CMD => some s.cmd.toNat
  | .STATUS => some (s.status.busy.toNat + 2 * s.status.done.toNat + 4 * s.status.err.toNat +
      8 * s.status.wrbusy.toNat + 256 * s.status.errcode.toNat)
  | .IEN => some (2 * s.ien.doneIe.toNat + 4 * s.ien.errIe.toNat)
  | .SRC_BASE => some s.srcBase.toNat
  | .DST_BASE => some s.dstBase.toNat
  | .WIDTH => some s.width.toNat
  | .HEIGHT => some s.height.toNat
  | .THRESH => some (s.threshLow.toNat + 256 * s.threshHigh.toNat)
  | .CLIP_LIMIT => some s.clipLimit.toNat
  | .GRID_SIZE => some s.gridSize.toNat
  | .GAMMA => some s.gamma.toNat
  | .CONTRAST => some s.contrast.toNat
  | .HIST _ => none
  | .LUT _ => none

/-- Every register, field and file holds its reset value (R47). -/
structure AtReset (t : State) : Prop where
  cmd : t.cmd = 0
  status : t.status.word = 0
  ien : t.ien.word = 0
  srcBase : t.srcBase = 0
  dstBase : t.dstBase = 0
  width : t.width = 0
  height : t.height = 0
  threshLow : t.threshLow = 50
  threshHigh : t.threshHigh = 150
  clipLimit : t.clipLimit = 0
  gridSize : t.gridSize = 0
  gamma : t.gamma = 0
  contrast : t.contrast = 0
  hist : ∀ i (hi : i < 256), t.hist[i]'hi = 0
  lut : ∀ i (hi : i < 256), (t.lut[i]'hi).toNat = i

end Sys2Proof.Claims

open Sys2Proof Sys2Proof.Machine Sys2Proof.Claims

/-! ### Encoding -/

/-- Decoding and encoding are inverse to each other over all command words (R71, R72, R86). -/
def Obligations.DecodeIsTheInverseOfEncode : Prop :=
  ∀ (v : Word) (i : Instr), decode v = .ok i ↔ v = encode i

/-- The legal command words are those R77 lists, and no other word decodes (R77, R78). R77's text counts twenty, its
table nineteen: assumption log 29. -/
def Obligations.ExactlyTheListedWordsDecode : Prop :=
  ∀ v : Word, (∃ i, decode v = .ok i) ↔ v ∈ legalWords

/-- A command word is illegal exactly for the reasons of R78. -/
def Obligations.IllegalWordsAreTheReservedOnes : Prop :=
  ∀ v : Word, (∃ e, decode v = .error e) ↔
    (v.toNat % 16 = 0 ∨ 0xB ≤ v.toNat % 16 ∨ v.extractLsb' 4 4 ≠ 0 ∨ v.extractLsb' 12 20 ≠ 0 ∨
      (v.getLsbD 8 = true ∧ ¬ (1 ≤ v.toNat % 16 ∧ v.toNat % 16 ≤ 4)) ∨
      (v.getLsbD 9 = true ∧ v.toNat % 16 ≠ 4) ∨
      (v.getLsbD 10 = true ∧ v.toNat % 16 ≠ 5 ∧ v.toNat % 16 ≠ 6) ∨
      (v.getLsbD 11 = true ∧ v.toNat % 16 ≠ 8))

/-- A few words written out bit by bit from R71 decode to the operations they stand for. -/
def Obligations.WrittenOutWordsDecode : Prop :=
  decode 0b0000_0000_0000_0000_0000_0001_0000_0001#32 = .ok (.sobel .clamp) ∧
    decode 0b0000_0000_0000_0000_0000_0011_0000_0100#32 = .ok (.canny .clamp .keep) ∧
    decode 0b0000_0000_0000_0000_0000_0100_0000_0101#32 = .ok (.clahe .zero) ∧
    decode 0b0000_0000_0000_0000_0000_0000_0000_0111#32 = .ok .hist ∧
    decode 0b0000_0000_0000_0000_0000_1000_0000_1000#32 = .ok (.gamma .direct)

/-- An assembled command carries the number of its mnemonic and exactly the flags that were written, in
whatever order; a letter the mnemonic does not allow is an assembly error (R82). The text is taken as tokens,
assumption log 25. -/
def Obligations.AssembledCommandsCarryTheWrittenFlags : Prop :=
  ∀ (m : Mnemonic) (letters : List Flag),
    ((∃ f ∈ letters, f ∉ allowedFlags m) → assemble m letters = none) ∧
    ((∀ f ∈ letters, f ∈ allowedFlags m) → ∃ i, assemble m letters = some i ∧ i.mnemonic = m ∧
      opcodeMnemonic ((encode i).extractLsb' 0 4).toNat = some m ∧
      ∀ f, (encode i).getLsbD (flagBit f) = true ↔ f ∈ letters)

/-! ### The steps -/

/-- The engine's turn, scheduled or by default, runs the operation that CMD holds (R42, R44). The schedule is the
model's own, assumption log 1. -/
def Obligations.EngineTurnRunsThePendingOperation : Prop :=
  ∀ (s : State) (i : Instr), s.status.busy = true → decode s.cmd = .ok i →
    (∀ rest, s.inputs = .engine :: rest → step s = exec i { s with inputs := rest }) ∧
    (s.inputs = [] → step s = exec i s)

/-- A command accepted on the register port is what the next engine turn completes (R32, R44, R214). -/
def Obligations.AcceptedCommandCompletesOnTheEngineTurn : Prop :=
  ∀ (s : State) (v : Word) (rest : List HostStep), s.Inv → s.status.busy = false → s.validate v = none →
    s.inputs = .regWrite 0x000 v :: .engine :: rest →
    ∃ t u i, step s = .next t ∧ t.status.busy = true ∧ t.cmd = v ∧ decode v = .ok i ∧
      step t = .next u ∧ exec i { t with inputs := rest } = .next u ∧
      u.status.busy = false ∧ u.status.done = true ∧ u.status.err = false

/-- With nothing scheduled and nothing pending the block does nothing (R42, R193). The schedule is the model's own,
assumption log 1. -/
def Obligations.IdleBlockStaysAsItIs : Prop :=
  ∀ s : State, s.inputs = [] → s.status.busy = false → step s = .next s

/-- `WAIT` ends: a read of STATUS, the completion, a read that shows BUSY = 0 and ends the ownership (R83,
R214, R61). One engine turn between two reads is the model's choice, assumption log 18. -/
def Obligations.WaitEndsAfterTheCompletion : Prop :=
  ∀ (s : State) (rest : List HostStep), s.Inv → s.status.busy = true → s.inputs = .wait :: rest →
    ∃ t, Sys2Proof.core.run 3 s = .next t ∧ t.status.busy = false ∧ t.status.done = true ∧
      t.rdata.getLsbD 0 = false ∧ t.rdata.getLsbD 1 = true ∧
      t.claim = none ∧ t.earlier = [] ∧ t.inputs = rest

/-! ### The operations -/

/-- SOBEL (R98, with R91 to R97). The kernel values are those of R9, which the spec marks as general knowledge
(assumption log 13). -/
def Obligations.SobelWritesTheGradientMagnitude : Prop :=
  ∀ (b : Border) (s : State), Ready (.sobel b) s →
    ∃ t, exec (.sobel b) s = .next t ∧ Completes (.sobel b) s t ∧ KeepsFiles s t ∧
      ∀ x y, inImage s x y →
        (processedAt b s x y → dst s t x y =
          grey (magnitude (sobelX fun dx dy => luma (sample s x y dx dy))
            (sobelY fun dx dy => luma (sample s x y dx dy))) (src s x y).a) ∧
        (¬ processedAt b s x y → dst s t x y = ⟨0, 0, 0, (src s x y).a⟩)

/-- PREWITT (R99, with R91 to R97). The kernel values are those of R9 (assumption log 13). -/
def Obligations.PrewittWritesTheGradientMagnitude : Prop :=
  ∀ (b : Border) (s : State), Ready (.prewitt b) s →
    ∃ t, exec (.prewitt b) s = .next t ∧ Completes (.prewitt b) s t ∧ KeepsFiles s t ∧
      ∀ x y, inImage s x y →
        (processedAt b s x y → dst s t x y =
          grey (magnitude (prewittX fun dx dy => luma (sample s x y dx dy))
            (prewittY fun dx dy => luma (sample s x y dx dy))) (src s x y).a) ∧
        (¬ processedAt b s x y → dst s t x y = ⟨0, 0, 0, (src s x y).a⟩)

/-- LAPLACIAN (R100, with R91 to R97). The kernel values are those of R9 (assumption log 13). -/
def Obligations.LaplacianWritesTheAbsoluteResponse : Prop :=
  ∀ (b : Border) (s : State), Ready (.laplacian b) s →
    ∃ t, exec (.laplacian b) s = .next t ∧ Completes (.laplacian b) s t ∧ KeepsFiles s t ∧
      ∀ x y, inImage s x y →
        (processedAt b s x y → dst s t x y =
          grey (min 255 (((4 * colourSum (sample s x y 0 0) - colourSum (sample s x y 0 (-1)) -
            colourSum (sample s x y (-1) 0) - colourSum (sample s x y 1 0) -
            colourSum (sample s x y 0 1)).natAbs + 1) / 3)) (src s x y).a) ∧
        (¬ processedAt b s x y → dst s t x y = ⟨0, 0, 0, (src s x y).a⟩)

/-- CANNY (R119, with R111, R113, R115, R116, R118). The kernel values are those of R9 (assumption log 13). -/
def Obligations.CannyWritesTheClassOfEveryPixel : Prop :=
  ∀ (b : Border) (k : NoneAlpha) (s : State), Ready (.canny b k) s →
    ∃ t, exec (.canny b k) s = .next t ∧ Completes (.canny b k) s t ∧ KeepsFiles s t ∧
      ∀ x y, inImage s x y →
        (above b s x y s.threshHigh.toNat → dst s t x y = ⟨255, 255, 255, 255⟩) ∧
        (¬ above b s x y s.threshHigh.toNat → above b s x y s.threshLow.toNat →
          dst s t x y = ⟨128, 128, 128, 255⟩) ∧
        (¬ above b s x y s.threshHigh.toNat → ¬ above b s x y s.threshLow.toNat →
          dst s t x y = ⟨0, 0, 0, if k = .keep then (src s x y).a else 0⟩)

/-- CLAHE (R134, with R126 to R133): every pixel goes through the table of the tile that contains it. -/
def Obligations.ClaheMapsEveryPixelThroughItsTile : Prop :=
  ∀ (d : Degen) (s : State), Ready (.clahe d) s → s.gridSize ≠ 0 →
    ∃ t, exec (.clahe d) s = .next t ∧ Completes (.clahe d) s t ∧
      ∀ tx ty x y, inImage s x y → inTile s tx ty x y →
        dst s t x y =
          ⟨BitVec.ofNat 8 (tileEntry d s tx ty (src s x y).r.toNat),
            BitVec.ofNat 8 (tileEntry d s tx ty (src s x y).g.toNat),
            BitVec.ofNat 8 (tileEntry d s tx ty (src s x y).b.toNat), (src s x y).a⟩

/-- HIST (R142, with R141): no byte of memory and no LUT entry changes. -/
def Obligations.HistWritesTheGlobalHistogram : Prop :=
  ∀ s : State, Ready .hist s →
    ∃ t, exec .hist s = .next t ∧ Completes .hist s t ∧ t.mem = s.mem ∧ t.lut = s.lut ∧
      HoldsHistogram s t

/-- EQUALIZE (R150, with R141, R144, R146 to R149). `CDF_min` is the count of the first occupied bin:
CDF_MIN_RULE = FIRST_NONZERO, the value R11 gives this hardware (assumption log 14). -/
def Obligations.EqualizeRemapsThroughTheGlobalTable : Prop :=
  ∀ (d : Degen) (s : State), Ready (.equalize d) s → 0 < s.pixelCount →
    ∃ t, exec (.equalize d) s = .next t ∧ Completes (.equalize d) s t ∧ HoldsHistogram s t ∧
      (∃ m, isCdfMin s m) ∧
      (∀ m, isCdfMin s m → ∀ i (hi : i < 256), (t.lut[i]'hi).toNat = globalEntry d s m i) ∧
      ∀ x y, inImage s x y → dst s t x y = through t.lut (src s x y)

/-- GAMMA (R160, with R156 to R158): the table is the exactly rounded power. -/
def Obligations.GammaAppliesTheExactlyRoundedPower : Prop :=
  ∀ (e : GammaExp) (s : State), Ready (.gamma e) s → s.gamma ≠ 0 →
    ∃ t, exec (.gamma e) s = .next t ∧ Completes (.gamma e) s t ∧ t.hist = s.hist ∧
      (t.lut[0]).toNat = 0 ∧
      (∀ (i : ℕ) (hi : i < 256), 0 < i →
        (((t.lut[i]'hi).toNat : ℕ) : ℤ) = ⌊255 * ((i : ℝ) / 255) ^ gammaPower s e + 1 / 2⌋) ∧
      ∀ x y, inImage s x y → dst s t x y = through t.lut (src s x y)

/-- SIGMOID (R166, with R156, R162, R163): the table is the exactly rounded one. -/
def Obligations.SigmoidScalesByTheExponentialFactor : Prop :=
  ∀ s : State, Ready .sigmoid s → s.contrast.toInt.natAbs ≤ 65536 →
    ∃ t, exec .sigmoid s = .next t ∧ Completes .sigmoid s t ∧ t.hist = s.hist ∧
      (∀ (i : ℕ) (hi : i < 256),
        (s.contrast.toInt = 0 → (t.lut[i]'hi).toNat = i) ∧
        (0 < s.contrast.toInt →
          (((t.lut[i]'hi).toNat : ℕ) : ℤ) = min 255 ⌊(i : ℝ) * factor s.contrast.toInt + 1 / 2⌋) ∧
        (s.contrast.toInt < 0 →
          (((t.lut[i]'hi).toNat : ℕ) : ℤ) = ⌊(i : ℝ) / factor s.contrast.toInt + 1 / 2⌋)) ∧
      ∀ x y, inImage s x y → dst s t x y = through t.lut (src s x y)

/-- SIGMOID at `CONTRAST = 0` copies the source to the destination byte for byte and leaves the identity table
(R164). The source is the one of the acceptance (R61), as the model records it, assumption log 30. -/
def Obligations.SigmoidAtZeroCopiesTheSource : Prop :=
  ∀ s : State, Ready .sigmoid s → s.contrast = 0 →
    ∃ t, exec .sigmoid s = .next t ∧ (∀ (i : Nat) (hi : i < 256), (t.lut[i]'hi).toNat = i) ∧
      ∀ k, k < s.regionLen → t.mem.read (s.dstAddr + k) = s.operandMem.read (s.srcAddr + k)

/-- LUTAPPLY (R167, with R156). -/
def Obligations.LutapplyRemapsThroughTheLutFile : Prop :=
  ∀ s : State, Ready .lutapply s →
    ∃ t, exec .lutapply s = .next t ∧ Completes .lutapply s t ∧ KeepsFiles s t ∧
      ∀ x y, inImage s x y → dst s t x y = through s.operandLut (src s x y)

/-! ### Properties of the operations -/

/-- P1 to P6 of the gamma table (R159). -/
def Obligations.GammaTableHasItsNamedProperties : Prop :=
  ∀ (g : Nat) (e : GammaExp), 0 < g → g < 2 ^ 32 →
    gammaEntry g e 0 = 0 ∧ gammaEntry g e 255 = 255 ∧
    (∀ i j, i ≤ j → j < 256 → gammaEntry g e i ≤ gammaEntry g e j) ∧
    (∀ i, i < 256 → gammaEntry g e i ≤ 255) ∧
    (g = 0x00010000 → ∀ i, i < 256 → gammaEntry g e i = i) ∧
    ((g = 0x00008000 ∧ e = .inverse ∨ g = 0x00020000 ∧ e = .direct) →
      ∀ i, i < 256 → gammaEntry g e i = rhu (i ^ 2) 255) ∧
    ((65536 < g ∧ e = .inverse ∨ g < 65536 ∧ e = .direct) → ∀ i, i < 256 → i ≤ gammaEntry g e i) ∧
    ((g < 65536 ∧ e = .inverse ∨ 65536 < g ∧ e = .direct) → ∀ i, i < 256 → gammaEntry g e i ≤ i)

/-- Q1 to Q6 of the sigmoid table (R165). -/
def Obligations.SigmoidTableHasItsNamedProperties : Prop :=
  ∀ c : Int, c.natAbs ≤ 65536 →
    sigmoidEntry c 0 = 0 ∧
    (∀ i j, i ≤ j → j < 256 → sigmoidEntry c i ≤ sigmoidEntry c j) ∧
    (∀ i, i < 256 → sigmoidEntry c i ≤ 255) ∧
    (c = 0 → ∀ i, i < 256 → sigmoidEntry c i = i) ∧
    (0 < c → ∀ i, i < 256 → i ≤ sigmoidEntry c i ∧ (254.5 ≤ (i : ℝ) * factor c → sigmoidEntry c i = 255)) ∧
    (c < 0 → ∀ i, i < 256 → sigmoidEntry c i ≤ i) ∧
    (c = 65536 → sigmoidEntry c 1 = 55 ∧ sigmoidEntry c 2 = 109 ∧ sigmoidEntry c 3 = 164 ∧
      sigmoidEntry c 4 = 218 ∧ ∀ i, 5 ≤ i → i < 256 → sigmoidEntry c i = 255) ∧
    (c = -65536 → sigmoidEntry c 255 = 5)

/-- All operations with a destination but CANNY preserve alpha (R103, R132, R151, R156). -/
def Obligations.AlphaIsPreservedByAllButCanny : Prop :=
  ∀ (i : Instr) (s : State), Ready i s → writesDst i = true → (∀ b k, i ≠ .canny b k) →
    ∃ t, exec i s = .next t ∧ ∀ x y, inImage s x y → (dst s t x y).a = (src s x y).a

/-- After HIST and EQUALIZE the bins sum to the number of pixels (R143). -/
def Obligations.HistogramSumsToThePixelCount : Prop :=
  ∀ (i : Instr) (s : State), (i = .hist ∨ ∃ d, i = .equalize d) → Ready i s →
    ∃ t, exec i s = .next t ∧ (t.hist.toList.map BitVec.toNat).sum = s.imgW * s.imgH

/-- The table EQUALIZE leaves is non-decreasing (R151). -/
def Obligations.EqualizeTableNeverDecreases : Prop :=
  ∀ (d : Degen) (s : State), Ready (.equalize d) s →
    ∃ t, exec (.equalize d) s = .next t ∧
      ∀ i j (hj : j < 256) (hij : i ≤ j), (t.lut[i]'(by omega)).toNat ≤ (t.lut[j]'hj).toNat

/-- The existing tiles are disjoint and cover the image, and CLAHE maps every pixel through the table of the one
tile that contains it (R126, R132, R133). -/
def Obligations.EveryPixelLiesInExactlyOneTile : Prop :=
  ∀ (d : Degen) (limit grid : Nat) (img : Image) (x y : Nat), 0 < grid → x < img.w → y < img.h →
    ∃ tx ty,
      (tx < tileCount img.w grid ∧ ty < tileCount img.h grid ∧
        covers (tileAt img.w img.h grid tx ty) x y) ∧
      (∀ ux uy, ux < tileCount img.w grid → uy < tileCount img.h grid →
        covers (tileAt img.w img.h grid ux uy) x y → ux = tx ∧ uy = ty) ∧
      (claheImage d limit grid img).at x y =
        through (tileTable d limit ((tileAt img.w img.h grid tx ty).pixels img)) (img.at x y)

/-- CLAHE's output inside a tile depends on the source pixels of that tile only (R125, R136). -/
def Obligations.ClaheTilesAreIndependent : Prop :=
  ∀ (d : Degen) (s u : State) (tx ty : Nat), Ready (.clahe d) s → Ready (.clahe d) u →
    s.gridSize ≠ 0 → u.srcBase = s.srcBase → u.dstBase = s.dstBase → u.width = s.width →
    u.height = s.height → u.clipLimit = s.clipLimit → u.gridSize = s.gridSize →
    (∀ x y, inImage s x y → inTile s tx ty x y → src u x y = src s x y) →
    ∃ t v, exec (.clahe d) s = .next t ∧ exec (.clahe d) u = .next v ∧
      ∀ x y, inImage s x y → inTile s tx ty x y → dst u v x y = dst s t x y

/-- The result of an operation depends on the registers it reads, the source region and, for LUTAPPLY, the
LUT, and on nothing else (R79, R212). The source and the LUT are those of the acceptance (R61), as the model
records them, assumption log 30. -/
def Obligations.ResultsDependOnTheOperandsAlone : Prop :=
  ∀ (i : Instr) (s u : State), Ready i s → Ready i u →
    (∀ r ∈ paramsRead i, u.regValue r = s.regValue r) →
    (∀ k, k < s.regionLen → u.operandMem.read (s.srcAddr + k) = s.operandMem.read (s.srcAddr + k)) →
    (i = .lutapply → u.operandLut = s.operandLut) →
    ∃ t v, exec i s = .next t ∧ exec i u = .next v ∧
      (writesDst i = true → ∀ k, k < s.regionLen →
        v.mem.read (s.dstAddr + k) = t.mem.read (s.dstAddr + k)) ∧
      ((i = .hist ∨ ∃ d, i = .equalize d) → v.hist = t.hist) ∧
      ((i = .sigmoid ∨ (∃ e, i = .gamma e) ∨ ∃ d, i = .equalize d) → v.lut = t.lut)

/-! ### Broken ownership (R206) -/

/-- Whatever the host did to the regions, the operation completes, reports DONE and touches nothing outside
its destination, and HIST and LUT only where it writes them (R206). -/
def Obligations.EveryCompletionReportsDoneWhateverTheHostDid : Prop :=
  ∀ (i : Instr) (s : State), s.srcAddr + s.regionLen ≤ addressSpace →
    (writesDst i = true → s.dstAddr + s.regionLen ≤ addressSpace) →
    ∃ t, exec i s = .next t ∧ Completes i s t

/-- A destination byte the host wrote while the operation was pending ends as the host's or the engine's,
every other destination byte as the engine's (R206). Which of the two is a free choice, assumption log 10. -/
def Obligations.HostWrittenDestinationByteIsTheHostsOrTheEngines : Prop :=
  ∀ (i : Instr) (s : State), s.mem.wf = true → writesDst i = true →
    s.srcAddr + s.regionLen ≤ addressSpace → s.dstAddr + s.regionLen ≤ addressSpace →
    s.srcHit = false →
    ∃ t u, exec i s = .next t ∧ exec i { s with claim := s.claim.map fun c => { c with dstHit := [] } } = .next u ∧
      ∀ a, s.dstAddr ≤ a → a < s.dstAddr + s.regionLen →
        (s.dstHit a = true → t.mem.read a = s.mem.read a ∨ t.mem.read a = u.mem.read a) ∧
        (s.dstHit a = false → t.mem.read a = u.mem.read a)

/-- A byte the host reads while the operation is pending is the true one outside the destination, the old or
the new one inside it, or, inside the destination of an earlier completion it has not observed, the one from before
that (R206). Which of them is a free choice, assumption logs 10 and 30. -/
def Obligations.HostReadsOldOrNewDestinationBytes : Prop :=
  ∀ (s : State) (a n : Nat), s.Inv → s.status.busy = true → s.ownershipKept → a + n ≤ addressSpace →
    ∃ t u, hostStep (.memRead a n) s = .next t ∧ runPending s = .next u ∧
      t = { s with mdata := t.mdata, free := t.free } ∧ t.mdata.length = n ∧
      ∀ k, k < n →
        (t.mdata[k]? = some (s.mem.read (a + k)) ∨ t.mdata[k]? = some (u.mem.read (a + k)) ∨
          ∃ c ∈ s.earlier, c.ownsDst (a + k) = true ∧ t.mdata[k]? = some (c.before.read (a + k))) ∧
        (a + k < s.dstAddr ∨ s.dstAddr + s.regionLen ≤ a + k →
          (∀ c ∈ s.earlier, c.ownsDst (a + k) = false) → t.mdata[k]? = some (s.mem.read (a + k)))

/-- A byte the host reads between the completion and its observation is the one the completion left, or inside
the destination the one from before it, or, inside the destination of an earlier completion it has not observed,
the one from before that (R206). The interval and the choice are the model's reading, assumption logs 9, 10
and 30. -/
def Obligations.HostReadsBeforeObservationAreOldOrNew : Prop :=
  ∀ (i : Instr) (s : State) (a n : Nat), s.Inv → s.status.busy = true → decode s.cmd = .ok i →
    a + n ≤ addressSpace →
    ∃ t u, exec i s = .next t ∧ hostStep (.memRead a n) t = .next u ∧
      u = { t with mdata := u.mdata, free := u.free } ∧ u.mdata.length = n ∧
      ∀ k, k < n →
        (u.mdata[k]? = some (t.mem.read (a + k)) ∨
          (writesDst i = true ∧ s.dstAddr ≤ a + k ∧ a + k < s.dstAddr + s.regionLen ∧
            u.mdata[k]? = some (s.mem.read (a + k))) ∨
          ∃ c ∈ s.earlier, c.ownsDst (a + k) = true ∧ u.mdata[k]? = some (c.before.read (a + k))) ∧
        ((writesDst i = true → a + k < s.dstAddr ∨ s.dstAddr + s.regionLen ≤ a + k) →
          (∀ c ∈ s.earlier, c.ownsDst (a + k) = false) → u.mdata[k]? = some (s.mem.read (a + k)))

/-- A host write while the operation is pending stores its bytes and changes no other byte, no register and
no file; a source byte is recorded as broken ownership exactly when the write meets the source region
(R61, R206). The record and the free-value counter are the model's own, assumption logs 9 and 17. A write that
meets the regions of an earlier completion not yet observed is the matter of
`HostWriteStaysInsideTheUnobservedResults`. -/
def Obligations.HostWriteWhileBusyIsStoredAndRecorded : Prop :=
  ∀ (s : State) (c : Claim) (a : Nat) (bs : List Byte), s.mem.wf = true → s.status.busy = true →
    s.claim = some c → a + bs.length ≤ addressSpace →
    (∀ d ∈ s.earlier, d.touchesSrc a bs.length = false ∧
      ∀ k, k < bs.length → d.ownsDst (a + k) = false) →
    ∃ t d, hostStep (.memWrite a bs) s = .next t ∧
      t = { s with mem := t.mem, claim := some d, free := t.free } ∧
      d = { c with srcHit := d.srcHit, dstHit := d.dstHit } ∧
      (∀ k (hk : k < bs.length), t.mem.read (a + k) = bs[k]) ∧
      (∀ j, j < a ∨ a + bs.length ≤ j → t.mem.read j = s.mem.read j) ∧
      (t.srcHit = true ↔ s.srcHit = true ∨
        ∃ k, k < bs.length ∧ c.src ≤ a + k ∧ a + k < c.src + c.len) ∧
      ∀ j, t.dstHit j = true ↔ s.dstHit j = true ∨
        (a ≤ j ∧ j < a + bs.length ∧ c.hasDst = true ∧ c.dst ≤ j ∧ j < c.dst + c.len)

/-- After completions it has not observed, what the host writes outside their destinations is stored, a
destination byte it writes is its own or the engine's, and nothing else changes, as long as it keeps off their
source regions (R206). The record and the free-value counter are the model's own, assumption logs 9, 10
and 17. -/
def Obligations.UnobservedDestinationByteIsTheHostsOrTheEngines : Prop :=
  ∀ (s : State) (a : Nat) (bs : List Byte), s.mem.wf = true → s.status.busy = false →
    a + bs.length ≤ addressSpace →
    (∀ c ∈ s.completed, a + bs.length ≤ c.src ∨ c.src + c.len ≤ a) →
    ∃ t, hostStep (.memWrite a bs) s = .next t ∧ t = { s with mem := t.mem, free := t.free } ∧
      (∀ k (hk : k < bs.length),
        t.mem.read (a + k) = bs[k] ∨
          ((∃ c ∈ s.completed, c.hasDst = true ∧ c.dst ≤ a + k ∧ a + k < c.dst + c.len) ∧
            t.mem.read (a + k) = s.mem.read (a + k))) ∧
      ∀ j, j < a ∨ a + bs.length ≤ j → t.mem.read j = s.mem.read j

/-- Wherever the host writes, also into a source region after completions it has not observed (R206): no register
changes but HIST and LUT, each only where the source of the newest completion that wrote it is met; a byte outside
the written range changes only in the destination of a completion whose source is met, if no newer one wrote that
byte, and there it is a free value; every other byte written is stored, or inside a destination may keep the
engine's value. That a newer completion's result stays is R212; the interval is the model's reading, assumption
logs 9, 27 and 30; the record and the free-value counter are its own, logs 9 and 17. -/
def Obligations.HostWriteStaysInsideTheUnobservedResults : Prop :=
  ∀ (s : State) (a : Nat) (bs : List Byte), s.mem.wf = true → a + bs.length ≤ addressSpace →
    (∀ c ∈ s.completed, c.hasDst = true → c.dst + c.len ≤ addressSpace) →
    ∃ t, hostStep (.memWrite a bs) s = .next t ∧
      t = { s with mem := t.mem, hist := t.hist, lut := t.lut, claim := t.claim, free := t.free } ∧
      (s.status.busy = false → t.claim = s.claim) ∧
      (∀ j, (j < a ∨ a + bs.length ≤ j) →
        (∀ c, newest (·.ownsDst j) s = some c → c.touchesSrc a bs.length = false) →
        t.mem.read j = s.mem.read j) ∧
      (∀ k (hk : k < bs.length),
        (∀ c, newest (·.ownsDst (a + k)) s = some c → c.touchesSrc a bs.length = false) →
        t.mem.read (a + k) = bs[k] ∨
          ((∃ c ∈ s.completed, c.ownsDst (a + k) = true) ∧ t.mem.read (a + k) = s.mem.read (a + k))) ∧
      (∀ j c, newest (·.ownsDst j) s = some c → c.touchesSrc a bs.length = true →
        ∃ n, t.mem.read j = Config.freeByte n) ∧
      ((∀ c, newest (·.writesHist) s = some c → c.touchesSrc a bs.length = false) → t.hist = s.hist) ∧
      ((∀ c, newest (·.writesLut) s = some c → c.touchesSrc a bs.length = false) → t.lut = s.lut)

/-- A host write that keeps off the regions of the pending operation leaves its result as it is, also where the
write makes results of an earlier completion unspecified that the operation reads: it reads its source as of its
acceptance, and nothing outside the regions of the written source's operation is affected (R61, R206, R212).
HIST and LUT are spoken of where they are specified. That the host need not have observed the earlier completion is
the model's reading, assumption log 30. -/
def Obligations.HostWriteElsewhereLeavesThePendingResult : Prop :=
  ∀ (i : Instr) (s : State) (a : Nat) (bs : List Byte), s.Inv → s.status.busy = true →
    decode s.cmd = .ok i → s.ownershipKept → a + bs.length ≤ addressSpace →
    (a + bs.length ≤ s.srcAddr ∨ s.srcAddr + s.regionLen ≤ a) →
    (writesDst i = true → a + bs.length ≤ s.dstAddr ∨ s.dstAddr + s.regionLen ≤ a) →
    ∃ t u v, hostStep (.memWrite a bs) s = .next t ∧ exec i s = .next u ∧ exec i t = .next v ∧
      (writesDst i = true → ∀ k, k < s.regionLen →
        v.mem.read (s.dstAddr + k) = u.mem.read (s.dstAddr + k)) ∧
      ((i = .hist ∨ ∃ d, i = .equalize d) → v.hist = u.hist) ∧
      ((i = .sigmoid ∨ (∃ e, i = .gamma e) ∨ ∃ d, i = .equalize d) → v.lut = u.lut)

/-- A read of STATUS that shows BUSY = 0, or a completion or an IEN write that raises `irq` for DONE, ends
every ownership (R61, R62). The records are the model's own, assumption logs 9, 28 and 30. -/
def Obligations.OwnershipEndsWhenTheCompletionIsObserved : Prop :=
  (∀ s : State, s.status.busy = false →
    ∃ t, hostStep (.regRead 0x004) s = .next t ∧ t.claim = none ∧ t.earlier = [] ∧
      t.rdata.getLsbD 0 = false) ∧
  (∀ (i : Instr) (s : State), Ready i s → s.ien.doneIe = true →
    ∃ t, exec i s = .next t ∧ t.irq = true ∧ t.claim = none ∧ t.earlier = []) ∧
  (∀ (s : State) (v : Word), s.status.busy = false → s.status.done = true → v.getLsbD 1 = true →
    ∃ t, hostStep (.regWrite 0x008 v) s = .next t ∧ t.irq = true ∧ t.claim = none ∧ t.earlier = [])

/-! ### Commands and errors -/

/-- A write of CMD while BUSY = 0 reports the first failing check and only that one, and is accepted when
none fails (R177, R178, R179). -/
def Obligations.CommandWriteReportsTheFirstFailingCheck : Prop :=
  ∀ (s : State) (v : Word), s.status.busy = false →
    ∃ t, hostStep (.regWrite 0x000 v) s = .next t ∧
      (∀ n, 1 ≤ n → n ≤ 9 →
        ((t.status.err = true ∧ t.status.errcode.toNat = n) ↔
          failsCheck s v n ∧ ∀ m, 1 ≤ m → m < n → ¬ failsCheck s v m)) ∧
      (t.status.busy = true ↔ ∀ n, 1 ≤ n → n ≤ 9 → ¬ failsCheck s v n)

/-- A rejected command stores the word, clears DONE, sets ERR and ERRCODE, and changes nothing else (R32,
R176). -/
def Obligations.RejectedCommandOnlyReports : Prop :=
  ∀ (s : State) (v : Word) (e : InvalidInput), s.status.busy = false → s.validate v = some e →
    hostStep (.regWrite 0x000 v) s =
      .next { s with
        cmd := v
        status := ⟨false, false, true, s.status.wrbusy, e.code⟩ }

/-- An accepted command stores the word, clears the previous report, sets BUSY, and changes no memory, file
or parameter register (R32); what the host has not observed of the commands before it stays recorded. The
ownership records are the model's own, assumption logs 9 and 30. -/
def Obligations.AcceptedCommandOnlySetsBusy : Prop :=
  ∀ (s : State) (v : Word), s.status.busy = false → s.validate v = none →
    ∃ c, hostStep (.regWrite 0x000 v) s =
        .next { s with
          cmd := v
          status := ⟨true, false, false, s.status.wrbusy, 0⟩
          claim := some c
          earlier := s.earlier ++ s.claim.toList } ∧
      c.src = s.srcAddr ∧ c.dst = s.dstAddr ∧ c.len = s.regionLen ∧ c.srcHit = false ∧ c.dstHit = [] ∧
      c.seen = none

/-- While BUSY = 1 every register write but those of STATUS and IEN is dropped and sets WRBUSY (R45). -/
def Obligations.WriteWhileBusyIsDropped : Prop :=
  ∀ (s : State) (off : Nat) (v : Word), s.status.busy = true → off < 4096 → off % 4 = 0 →
    off ≠ 0x004 → off ≠ 0x008 →
    hostStep (.regWrite off v) s = .next { s with status := { s.status with wrbusy := true } }

/-- A write of STATUS clears the flags whose bit is 1, ERRCODE with ERR, and changes nothing else, also while
BUSY = 1 (R34). -/
def Obligations.StatusWriteClearsTheNamedFlags : Prop :=
  ∀ (s : State) (v : Word),
    ∃ t, hostStep (.regWrite 0x004 v) s = .next t ∧
      t = { s with status := t.status } ∧ t.status.busy = s.status.busy ∧
      (t.status.done = true ↔ s.status.done = true ∧ v.getLsbD 1 = false) ∧
      (t.status.err = true ↔ s.status.err = true ∧ v.getLsbD 2 = false) ∧
      (t.status.wrbusy = true ↔ s.status.wrbusy = true ∧ v.getLsbD 3 = false) ∧
      (v.getLsbD 2 = true → t.status.errcode = 0) ∧
      (v.getLsbD 2 = false → t.status.errcode = s.status.errcode)

/-- A STATUS write and the completion are two steps in either order: DONE ends up 1 when the completion comes
last, 0 when the write of bit 1 comes last (R34, R186). -/
def Obligations.StatusWriteAndCompletionInEitherOrder : Prop :=
  ∀ (s : State) (v : Word) (rest : List HostStep), s.Inv → s.status.busy = true →
    (s.inputs = .regWrite 0x004 v :: .engine :: rest →
      ∃ t, Sys2Proof.core.run 2 s = .next t ∧ t.status.busy = false ∧ t.status.done = true) ∧
    (s.inputs = .engine :: .regWrite 0x004 v :: rest → v.getLsbD 1 = true →
      ∃ t, Sys2Proof.core.run 2 s = .next t ∧ t.status.busy = false ∧ t.status.done = false)

/-- `irq` is DONE with its enable or ERR with its enable; a write of IEN takes effect in the same step, a
write of STATUS that clears both flags lowers the line (R183, R184, R185). -/
def Obligations.IrqFollowsTheEnabledReports : Prop :=
  (∀ s : State, s.irq = true ↔
    (s.status.done = true ∧ s.ien.doneIe = true) ∨ (s.status.err = true ∧ s.ien.errIe = true)) ∧
  (∀ (s : State) (v : Word), ∃ t, hostStep (.regWrite 0x008 v) s = .next t ∧ t.status = s.status ∧
    (t.irq = true ↔ (s.status.done = true ∧ v.getLsbD 1 = true) ∨
      (s.status.err = true ∧ v.getLsbD 2 = true))) ∧
  (∀ (s : State) (v : Word), v.getLsbD 1 = true → v.getLsbD 2 = true →
    ∃ t, hostStep (.regWrite 0x004 v) s = .next t ∧ t.irq = false)

/-! ### Registers -/

/-- A register written while BUSY = 0 reads back the bits it stores, the hardwired bits 0 (R22 to R31, R35,
R38). -/
def Obligations.RegistersReadBackTheStoredBits : Prop :=
  ∀ (s : State) (r : RegName) (v : Word), s.status.busy = false → isStored r →
    ∃ t u, hostStep (.regWrite (regOffset r) v) s = .next t ∧
      hostStep (.regRead (regOffset r)) t = .next u ∧ u.rdata = v &&& storedBits r

/-- Such a write leaves every other register, STATUS, HIST, memory and CMD as they were (R22, R38). -/
def Obligations.RegisterWriteChangesThatRegisterOnly : Prop :=
  ∀ (s : State) (r q : RegName) (v : Word), s.status.busy = false → isStored r → q ≠ r →
    ∃ t, hostStep (.regWrite (regOffset r) v) s = .next t ∧ t.regValue q = s.regValue q ∧
      t.mem = s.mem ∧ t.status = s.status ∧ t.hist = s.hist ∧ t.cmd = s.cmd

/-- The host cannot write HIST (R37). -/
def Obligations.HistIsReadOnlyForTheHost : Prop :=
  ∀ (s : State) (i : Fin 256) (v : Word), s.status.busy = false →
    hostStep (.regWrite (0x400 + 4 * i.val) v) s = .next s

/-- Reserved offsets read 0 and a write to them changes nothing, but for WRBUSY while BUSY = 1 (R36). -/
def Obligations.ReservedOffsetsReadZeroAndIgnoreWrites : Prop :=
  ∀ (s : State) (off : Nat) (v : Word), off % 4 = 0 →
    (0x030 ≤ off ∧ off < 0x400 ∨ 0xC00 ≤ off ∧ off < 4096) →
    (∃ t, hostStep (.regRead off) s = .next t ∧ t.rdata = 0) ∧
    (s.status.busy = false → hostStep (.regWrite off v) s = .next s) ∧
    (s.status.busy = true →
      hostStep (.regWrite off v) s = .next { s with status := { s.status with wrbusy := true } })

/-- A register read changes nothing of the block's state (R20); the value read, the ownership records and the
free-value counter are the model's own, assumption logs 9, 17 and 19. -/
def Obligations.RegisterReadHasNoSideEffect : Prop :=
  ∀ (s : State) (off : Nat), off < 4096 → off % 4 = 0 →
    ∃ t, hostStep (.regRead off) s = .next t ∧
      t = { s with rdata := t.rdata, claim := t.claim, earlier := t.earlier, free := t.free }

/-- While BUSY = 1, CMD, STATUS, IEN and the nine parameter registers read their current values, a LUT entry
reads with bits 31:8 zero, a HIST entry reads some word (R46). -/
def Obligations.ReadsWhileBusy : Prop :=
  ∀ s : State, s.status.busy = true →
    (∀ r n, fieldValue s r = some n →
      ∃ t, hostStep (.regRead (regOffset r)) s = .next t ∧ t.rdata.toNat = n) ∧
    (∀ i : Fin 256, ∃ t, hostStep (.regRead (0x800 + 4 * i.val)) s = .next t ∧ t.rdata.toNat < 256) ∧
    ∀ i : Fin 256, ∃ t, hostStep (.regRead (0x400 + 4 * i.val)) s = .next t

/-- While BUSY = 0 every register reads its fields, and HIST and LUT their entries (R22 to R38). -/
def Obligations.IdleReadsReturnTheFields : Prop :=
  ∀ s : State, s.status.busy = false →
    (∀ r n, fieldValue s r = some n →
      ∃ t, hostStep (.regRead (regOffset r)) s = .next t ∧ t.rdata.toNat = n) ∧
    (∀ (i : Nat) (hi : i < 256), ∃ t, hostStep (.regRead (0x400 + 4 * i)) s = .next t ∧
      t.rdata = s.hist[i]'hi) ∧
    ∀ (i : Nat) (hi : i < 256), ∃ t, hostStep (.regRead (0x800 + 4 * i)) s = .next t ∧
      t.rdata.toNat = (s.lut[i]'hi).toNat

/-- A register-port access that is not a word access of the window is refused, and nothing else is (R20). -/
def Obligations.OnlyPortMisuseIsRefused : Prop :=
  ∀ s : State, (∃ r, step s = .refused r) ↔ s.hostMisusesPort

/-- The pseudo-statements set what R85 says they set. -/
def Obligations.PseudoStatementsExpandAsListed : Prop :=
  ∀ s : State, s.status.busy = false →
    (∀ (w h : Word), ∃ t, Sys2Proof.core.run 2 { s with inputs := expand (.IMG w h) } = .next t ∧
      t.imgW = w.toNat % 65536 ∧ t.imgH = h.toNat % 65536) ∧
    (∀ (a d : Word), ∃ t, Sys2Proof.core.run 2 { s with inputs := expand (.BUF a d) } = .next t ∧
      t.srcBase = a ∧ t.dstBase = d) ∧
    (∀ (low high : Byte), ∃ t, Sys2Proof.core.run 1 { s with inputs := expand (.CANNYT low high) } = .next t ∧
      t.threshLow = low ∧ t.threshHigh = high) ∧
    (∃ t, Sys2Proof.core.run 1 { s with inputs := expand .CLR } = .next t ∧
      t.status.done = false ∧ t.status.err = false ∧ t.status.errcode = 0 ∧ t.status.wrbusy = false) ∧
    (∀ i : Instr, ∃ t, Sys2Proof.core.run 1 { s with inputs := expand (.START i) } = .next t ∧
      t.cmd = encode i ∧ (t.status.busy = true ↔ s.validate (encode i) = none)) ∧
    (∀ i : Instr, expand (.RUN i) = expand (.START i) ++ expand .WAIT) ∧
    (∀ (i : Instr) (e : InvalidInput), s.validate (encode i) = some e →
      ∃ t, Sys2Proof.core.run 2 { s with inputs := expand (.RUN i) } = .next t ∧ t.inputs = [] ∧
        t.status.err = true ∧ t.status.done = false)

/-! ### Memory -/

/-- What the host writes to memory nobody owns it reads back, and every other byte is as it was (R50). -/
def Obligations.UnownedMemoryReadsBackWhatWasWritten : Prop :=
  ∀ (s : State) (a : Nat) (bs : List Byte), s.mem.wf = true → s.claim = none →
    s.earlier = [] → a + bs.length ≤ addressSpace →
    ∃ t u, hostStep (.memWrite a bs) s = .next t ∧ hostStep (.memRead a bs.length) t = .next u ∧
      u.mdata = bs ∧ ∀ j, j < a ∨ a + bs.length ≤ j → t.mem.read j = s.mem.read j

/-- A value of several bytes is stored little-endian and reads back (R17, R52). -/
def Obligations.MemoryIsLittleEndian : Prop :=
  ∀ (m : Memory) (a n v : Nat), m.wf = true → a + n ≤ addressSpace →
    (m.writeNat a n v).readNat a n = v % 256 ^ n ∧
    ∀ k, k < n → ((m.writeNat a n v).read (a + k)).toNat = v / 256 ^ k % 256

/-! ### Reset -/

/-- The machine right after reset (R47, R201). -/
def Obligations.ResetLeavesTheListedValues : Prop :=
  AtReset State.reset ∧ State.reset.irq = false

/-- `rst` from any state: every register takes its reset value without DONE; memory is untouched, but for the
destination of an abandoned operation, whose bytes are old or what the operation would have written (R200 to
R203). -/
def Obligations.RstResetsEveryRegisterAndSparesMemory : Prop :=
  ∀ s : State,
    ∃ t, hostStep .rst s = .next t ∧ AtReset t ∧ t.irq = false ∧
      (s.status.busy = false → t.mem = s.mem) ∧
      (∀ a, a < s.dstAddr ∨ s.dstAddr + s.regionLen ≤ a → t.mem.read a = s.mem.read a) ∧
      (s.Inv → s.status.busy = true → s.ownershipKept → ∃ u, runPending s = .next u ∧
        ∀ a, t.mem.read a = s.mem.read a ∨ t.mem.read a = u.mem.read a)

/-! ### Invariants -/

/-- The invariant holds right after reset. -/
def Obligations.InvariantHoldsAtReset : Prop := State.reset.Inv

/-- Every step keeps the invariant: memory canonical, BUSY, DONE and ERR exclusive, ERRCODE non-zero exactly
with ERR, a pending operation validated and owning its regions (R33, R44, R55, R61). The canonical memory and the
ownership records are the model's own, assumption logs 2, 9 and 30. -/
def Obligations.EveryStepKeepsTheInvariant : Prop :=
  ∀ s t : State, s.Inv → step s = .next t → t.Inv

/-- No completion ever faults: in a state that meets the invariant the only fault is a host access that
leaves the memory space (R44, R175). That such an access faults is the model's choice, assumption log 5. -/
def Obligations.OnlyTheHostCanLeaveMemory : Prop :=
  ∀ s : State, s.Inv → ((∃ r, step s = .fault r) ↔ s.hostLeavesMemory)
end

