-- ==== Sys2Proof/Laws/Arith.lean ====
section
/-! SUPPORT. What the arithmetic primitives of spec/00_scope.md R17 compute. -/

namespace Sys2Proof.Machine

open Sys2Proof

/-- A search over a predicate that holds, among the numbers tried, exactly up to `top` finds `top`. -/
theorem bitSearch_eq (p : Nat → Bool) (top : Nat) :
    ∀ k acc, acc ≤ top → top < acc + 2 ^ k →
      (∀ m, acc < m → m < acc + 2 ^ k → (p m = true ↔ m ≤ top)) → bitSearch p k acc = top := by
  intro k
  induction k with
  | zero => intro acc h1 h2 _; simp only [bitSearch]; omega
  | succ k ih =>
    intro acc h1 h2 hp
    simp only [bitSearch]
    rw [Nat.pow_succ] at h2 hp
    have hk : 0 < 2 ^ k := Nat.pow_pos (by omega)
    have ht := hp (acc + 2 ^ k) (by omega) (by omega)
    split
    · rename_i h
      exact ih _ (ht.1 h) (by omega) fun m h3 h4 => hp m (by omega) (by omega)
    · rename_i h
      have : ¬ acc + 2 ^ k ≤ top := fun hle => h (ht.2 hle)
      exact ih _ h1 (by omega) fun m h3 h4 => hp m h3 (by omega)

/-- `isqrt` is the integer square root. -/
theorem isqrt_eq_sqrt (n : Nat) : isqrt n = Nat.sqrt n := by
  refine bitSearch_eq _ _ _ _ (Nat.zero_le _) ?_ fun m _ _ => ?_
  · rw [Nat.zero_add, Nat.sqrt_lt, ← Nat.pow_add]
    refine lt_of_lt_of_le (Nat.lt_log2_self) (Nat.pow_le_pow_right (by omega) (by omega))
  · simp [Nat.le_sqrt]

/-- What a search answers, if positive, is accepted, and its successor is not. -/
theorem bitSearch_spec (p : Nat → Bool) :
    ∀ k acc, (acc = 0 ∨ p acc = true) → p (acc + 2 ^ k) = false →
      (bitSearch p k acc = 0 ∨ p (bitSearch p k acc) = true) ∧ p (bitSearch p k acc + 1) = false := by
  intro k
  induction k with
  | zero => intro acc h1 h2; exact ⟨h1, h2⟩
  | succ k ih =>
    intro acc h1 h2
    simp only [bitSearch]
    rw [Nat.pow_succ] at h2
    split
    · rename_i h
      refine ih _ (.inr h) ?_
      rwa [show acc + 2 ^ k + 2 ^ k = acc + 2 ^ k * 2 by omega]
    · rename_i h
      exact ih _ h1 (by simpa using h)

/-- `rhu(p, q)` is the floor of `p/q + 1/2`. -/
theorem rhu_eq_iff (p q r : Nat) (hq : 0 < q) :
    rhu p q = r ↔ 2 * r * q ≤ 2 * p + q ∧ 2 * p + q < 2 * (r + 1) * q := by
  unfold rhu
  rw [Nat.div_eq_iff (by omega)]
  constructor
  · rintro ⟨h1, h2⟩
    constructor
    · nlinarith
    · have : 2 * (r + 1) * q = r * (2 * q) + 2 * q := by ring
      omega
  · rintro ⟨h1, h2⟩
    have e1 : 2 * r * q = r * (2 * q) := by ring
    have e2 : 2 * (r + 1) * q = r * (2 * q) + 2 * q := by ring
    omega

/-- A whole quotient rounds to itself. -/
theorem rhu_mul_self (a q : Nat) (hq : 0 < q) : rhu (a * q) q = a := by
  rw [rhu_eq_iff _ _ _ hq]
  constructor <;> nlinarith

/-- `rhu` is monotone in its numerator. -/
theorem rhu_mono (a b q : Nat) (h : a ≤ b) : rhu a q ≤ rhu b q :=
  Nat.div_le_div_right (by omega)

/-- The denominator of the exponential sum stays positive. -/
theorem expSum_pos (a b : Nat) (hb : 0 < b) :
    ∀ n f, 0 < f.2 → 0 < (expSum a b n f).2 := by
  intro n
  induction n with
  | zero => exact fun f h => h
  | succ n ih => exact fun f h => ih _ (by positivity)

/-- What the scaled logarithm says of a power. -/
theorem log2Scaled_bounds (n : Nat) (hn : 0 < n) (h : n < 2 ^ 16) :
    2 ^ log2Scaled n ≤ n ^ logScale ∧ n ^ logScale < 2 ^ (log2Scaled n + 1) := by
  have e : 16 * logScale = 0 + 2 ^ 20 := rfl
  have top : n ^ logScale < 2 ^ (0 + 2 ^ 20) := by
    rw [← e, Nat.pow_mul]
    exact Nat.pow_lt_pow_left h (by decide)
  have hs := bitSearch_spec (fun l => decide (2 ^ l ≤ n ^ logScale)) 20 0 (.inl rfl)
    (decide_eq_false (Nat.not_le.2 top))
  refine ⟨?_, Nat.not_le.1 (of_decide_eq_false hs.2)⟩
  rcases hs.1 with h0 | h1
  · rw [log2Scaled, h0]
    exact Nat.pow_pos hn
  · exact of_decide_eq_true h1

/-- Two products of powers compared through bounds of their `k`-th powers. -/
theorem powers_lt_of_logs (a b c d p q k la lb lc ld : Nat) (hk : k ≠ 0) (hq : 0 < q)
    (ha : a ^ k < 2 ^ (la + 1)) (hb : b ^ k < 2 ^ (lb + 1)) (hc : 2 ^ lc ≤ c ^ k) (hd : 2 ^ ld ≤ d ^ k)
    (h : q * (la + 1) + p * (lb + 1) ≤ p * lc + q * ld) : a ^ q * b ^ p < c ^ p * d ^ q := by
  have swap : ∀ u v : Nat, (u ^ v) ^ k = (u ^ k) ^ v := fun u v => by
    rw [← Nat.pow_mul, ← Nat.pow_mul, Nat.mul_comm]
  have shift : ∀ u v : Nat, (2 : Nat) ^ (u * v) = (2 ^ v) ^ u := fun u v => by
    rw [← Nat.pow_mul, Nat.mul_comm]
  rw [← Nat.pow_lt_pow_iff_left hk, Nat.mul_pow, Nat.mul_pow, swap, swap, swap, swap]
  calc (a ^ k) ^ q * (b ^ k) ^ p
      < (2 ^ (la + 1)) ^ q * (2 ^ (lb + 1)) ^ p :=
        Nat.mul_lt_mul_of_lt_of_le (Nat.pow_lt_pow_left ha (by omega)) (Nat.pow_le_pow_left hb.le p)
          (by positivity)
    _ = 2 ^ (q * (la + 1) + p * (lb + 1)) := by rw [← shift, ← shift, ← Nat.pow_add]
    _ ≤ 2 ^ (p * lc + q * ld) := Nat.pow_le_pow_right (by omega) h
    _ = (2 ^ lc) ^ p * (2 ^ ld) ^ q := by rw [← shift, ← shift, ← Nat.pow_add]
    _ ≤ (c ^ k) ^ p * (d ^ k) ^ q := Nat.mul_le_mul (Nat.pow_le_pow_left hc p) (Nat.pow_le_pow_left hd q)

/-- The comparison of the gamma table is the comparison of the powers, however it is decided (R157). -/
theorem gammaReaches_iff (p q i m : Nat) (hq : 0 < q) (hi : 0 < i) (hi' : i < 256)
    (hm : 0 < m) (hm' : m < 256) : gammaReaches p q i m = true ↔
      (2 * m - 1) ^ q * 255 ^ p ≤ i ^ p * 510 ^ q := by
  have hk : logScale ≠ 0 := by decide
  obtain ⟨m1, m2⟩ := log2Scaled_bounds (2 * m - 1) (by omega) (by omega)
  obtain ⟨i1, i2⟩ := log2Scaled_bounds i hi (by omega)
  obtain ⟨b1, b2⟩ := log2Scaled_bounds 255 (by omega) (by omega)
  obtain ⟨d1, d2⟩ := log2Scaled_bounds 510 (by omega) (by omega)
  unfold gammaReaches gammaPowersReach
  split
  · simp
  split
  · rename_i h
    simpa using (powers_lt_of_logs _ _ _ _ p q _ _ _ _ _ hk hq m2 b2 i1 d1 h).le
  split
  · rename_i h
    have := powers_lt_of_logs 510 i 255 (2 * m - 1) p q _ _ _ _ _ hk hq d2 i2 b1 m1 (by omega)
    rw [Nat.mul_comm (255 ^ p), Nat.mul_comm (510 ^ q)] at this
    simpa using this
  · simp

end Sys2Proof.Machine
end

