-- ==== Sys2Proof/Laws/Memory.lean ====
section
/-! SUPPORT. What memory accesses can do (spec/20_memory.md R50): a read after a write, and the canonical
form, which every operation keeps. -/

namespace Sys2Proof.Machine

open Sys2Proof

/-- What it says that bytes lie inside the memory space (R50). -/
@[simp] theorem addressable_iff (a n : Nat) : addressable a n = true ↔ a + n ≤ addressSpace := by
  simp [addressable]

/-! ### Reading -/

@[simp] theorem Memory.read_nil (k : Nat) : Memory.read [] k = Config.unlistedByte := rfl

/-- An address no entry names reads as unlisted. -/
theorem Memory.read_of_forall_ne (m : Memory) (k : Nat) (h : ∀ c ∈ m, c.1 ≠ k) :
    m.read k = Config.unlistedByte := by
  induction m with
  | nil => rfl
  | cons c m ih =>
    have hc : c.1 ≠ k := h c List.mem_cons_self
    simpa [Memory.read, hc] using ih fun d hd => h d (List.mem_cons_of_mem c hd)

/-- A write leaves every other address as it was. -/
theorem Memory.read_write_other (m : Memory) (k j : Nat) (v : Byte) (h : j ≠ k) :
    (m.write k v).read j = m.read j := by
  induction m with
  | nil =>
    by_cases hv : v = Config.unlistedByte
    · simp [Memory.write, hv]
    · simp [Memory.write, hv, Memory.read, h.symm]
  | cons c m ih =>
    obtain ⟨a, w⟩ := c
    simp only [Memory.write]
    split
    · split
      · rfl
      · simp [Memory.read, h.symm]
    · split
      · rename_i hka
        have hj : a ≠ j := fun e => h (hka ▸ e.symm)
        split <;> simp [Memory.read, hj, h.symm]
      · simp [Memory.read, ih]

/-! ### The canonical form -/

/-- What the canonical form says. -/
theorem Memory.wf_iff (m : Memory) :
    m.wf = true ↔ m.Pairwise (fun c d => c.1 < d.1) ∧
      ∀ c ∈ m, c.1 < addressSpace ∧ c.2 ≠ Config.unlistedByte := by
  simp [Memory.wf]

theorem Memory.wf_nil : Memory.wf [] = true := rfl

/-- In a canonical memory an address below every entry is not listed after it. -/
theorem Memory.wf_cons (c : Host.Cell) (m : Memory) :
    Memory.wf (c :: m) = true ↔
      (∀ d ∈ m, c.1 < d.1) ∧ c.1 < addressSpace ∧ c.2 ≠ Config.unlistedByte ∧ m.wf = true := by
  simp only [Memory.wf_iff, List.pairwise_cons, List.mem_cons, forall_eq_or_imp]
  tauto

/-- A read of the address just written gives the byte written. -/
theorem Memory.read_write_self (m : Memory) (hm : m.wf = true) (k : Nat) (v : Byte) :
    (m.write k v).read k = v := by
  induction m with
  | nil =>
    by_cases hv : v = Config.unlistedByte
    · simp [Memory.write, hv]
    · simp [Memory.write, hv, Memory.read]
  | cons c m ih =>
    obtain ⟨hlt, -, -, hmm⟩ := (Memory.wf_cons c m).1 hm
    obtain ⟨a, w⟩ := c
    simp only [Memory.write]
    split
    · rename_i hka
      split
      · rename_i hv
        rw [Memory.read_of_forall_ne, hv]
        intro d hd
        rcases List.mem_cons.1 hd with rfl | hd
        · exact Nat.ne_of_gt hka
        · exact Nat.ne_of_gt (hka.trans (hlt d hd))
      · simp [Memory.read]
    · split
      · rename_i hka
        subst hka
        split
        · rename_i hv
          rw [Memory.read_of_forall_ne _ _ fun d hd => Nat.ne_of_gt (hlt d hd), hv]
        · simp [Memory.read]
      · rename_i hka
        simp [Memory.read, Ne.symm hka, ih hmm]

/-- Every address of the memory after a write is the one written or was there before. -/
theorem Memory.mem_write (m : Memory) (k : Nat) (v : Byte) (c : Host.Cell) (h : c ∈ m.write k v) :
    (c = (k, v) ∧ v ≠ Config.unlistedByte) ∨ c ∈ m := by
  induction m with
  | nil => by_cases hv : v = Config.unlistedByte <;> simp_all [Memory.write]
  | cons d m ih =>
    obtain ⟨a, w⟩ := d
    simp only [Memory.write] at h
    split at h
    · split at h <;> simp_all
    · split at h
      · split at h
        · exact .inr (List.mem_cons_of_mem _ h)
        · rcases List.mem_cons.1 h with rfl | h
          · exact .inl ⟨rfl, ‹_›⟩
          · exact .inr (List.mem_cons_of_mem _ h)
      · rcases List.mem_cons.1 h with rfl | h
        · exact .inr List.mem_cons_self
        · exact (ih h).imp_right (List.mem_cons_of_mem _)

/-- A write inside the memory space keeps the canonical form. -/
theorem Memory.write_wf (m : Memory) (hm : m.wf = true) (k : Nat) (hk : k < addressSpace) (v : Byte) :
    (m.write k v).wf = true := by
  induction m with
  | nil =>
    by_cases hv : v = Config.unlistedByte
    · simp [Memory.write, hv, Memory.wf_nil]
    · simp only [Memory.write, hv, if_false]
      exact (Memory.wf_cons _ _).2 ⟨by simp, hk, hv, Memory.wf_nil⟩
  | cons c m ih =>
    obtain ⟨hlt, ha, hw, hmm⟩ := (Memory.wf_cons c m).1 hm
    obtain ⟨a, w⟩ := c
    simp only [Memory.write]
    split
    · rename_i hka
      split
      · exact hm
      · refine (Memory.wf_cons _ _).2 ⟨?_, hk, ‹_›, hm⟩
        intro d hd
        rcases List.mem_cons.1 hd with rfl | hd
        · exact hka
        · exact hka.trans (hlt d hd)
    · split
      · rename_i hka
        subst hka
        split
        · exact hmm
        · exact (Memory.wf_cons _ _).2 ⟨hlt, hk, ‹_›, hmm⟩
      · rename_i h1 h2
        refine (Memory.wf_cons _ _).2 ⟨?_, ha, hw, ih hmm⟩
        intro d hd
        rcases Memory.mem_write m k v d hd with ⟨rfl, -⟩ | hd
        · exact show a < k by omega
        · exact hlt d hd

/-! ### Several bytes -/

/-- Storing bytes inside the memory space keeps the canonical form. -/
theorem Memory.writeBytes_wf (bs : List Byte) :
    ∀ (m : Memory) (a : Nat), m.wf = true → a + bs.length ≤ addressSpace →
      (m.writeBytes a bs).wf = true := by
  induction bs with
  | nil => exact fun m a hm _ => hm
  | cons b bs ih =>
    intro m a hm ha
    simp only [List.length_cons] at ha
    exact ih _ _ (Memory.write_wf m hm a (by omega) b) (by omega)

/-- Storing bytes leaves every address outside them as it was. -/
theorem Memory.read_writeBytes_other (bs : List Byte) :
    ∀ (m : Memory) (a j : Nat), (j < a ∨ a + bs.length ≤ j) →
      (m.writeBytes a bs).read j = m.read j := by
  induction bs with
  | nil => exact fun m a j _ => rfl
  | cons b bs ih =>
    intro m a j h
    simp only [List.length_cons] at h
    rw [Memory.writeBytes, ih _ _ _ (by omega), Memory.read_write_other _ _ _ _ (by omega)]

/-- Each stored byte reads back. -/
theorem Memory.read_writeBytes_same (bs : List Byte) :
    ∀ (m : Memory) (a k : Nat) (hk : k < bs.length), m.wf = true → a + bs.length ≤ addressSpace →
      (m.writeBytes a bs).read (a + k) = bs[k] := by
  induction bs with
  | nil => exact fun m a k hk => absurd hk (by simp)
  | cons b bs ih =>
    intro m a k hk hm ha
    simp only [List.length_cons] at ha hk
    rw [Memory.writeBytes]
    have hw := Memory.write_wf m hm a (by omega) b
    cases k with
    | zero =>
      rw [Memory.read_writeBytes_other _ _ _ _ (by omega), Nat.add_zero,
        Memory.read_write_self _ hm]
      rfl
    | succ k =>
      have h := ih (m.write a b) (a + 1) k (by omega) hw (by omega)
      rw [show a + (k + 1) = a + 1 + k by omega, h]
      rfl

end Sys2Proof.Machine
end

