-- ==== Sys2Proof/Laws/Image.lean ====
section
/-! SUPPORT. Images, their bytes in memory, and the 3×3 window (spec/00_scope.md R19, spec/20_memory.md R53,
spec/40_gradient.md R91). -/

namespace Sys2Proof.Machine

open Sys2Proof

/-! ### Pixels of an image -/

/-- A position of an image has an index below the pixel count. -/
theorem index_lt (w h x y : Nat) (hx : x < w) (hy : y < h) : y * w + x < w * h := by
  have : (y + 1) * w ≤ h * w := Nat.mul_le_mul_right w hy
  rw [Nat.add_mul] at this
  rw [Nat.mul_comm w h]
  omega

@[simp] theorem Image.ofFn_w (w h : Nat) (f : Nat → Nat → Pixel) : (Image.ofFn w h f).w = w := rfl
@[simp] theorem Image.ofFn_h (w h : Nat) (f : Nat → Nat → Pixel) : (Image.ofFn w h f).h = h := rfl
@[simp] theorem Image.mapPixels_w (f : Pixel → Pixel) (img : Image) : (img.mapPixels f).w = img.w := rfl
@[simp] theorem Image.mapPixels_h (f : Pixel → Pixel) (img : Image) : (img.mapPixels f).h = img.h := rfl
@[simp] theorem State.source_w (s : State) : s.source.w = s.imgW := rfl
@[simp] theorem State.source_h (s : State) : s.source.h = s.imgH := rfl

@[simp] theorem Image.ofFn_length (w h : Nat) (f : Nat → Nat → Pixel) :
    (Image.ofFn w h f).px.length = w * h := by
  simp [Image.ofFn]

@[simp] theorem Image.mapPixels_length (f : Pixel → Pixel) (img : Image) :
    (img.mapPixels f).px.length = img.px.length := by
  simp [Image.mapPixels]

@[simp] theorem State.source_length (s : State) : s.source.px.length = s.pixelCount := by
  simp [State.source]

/-- The operands are the present ones unless the record of the pending operation holds others (R61). -/
theorem operandMem_of_none (s : State) (h : s.claim.bind Claim.seen = none) : s.operandMem = s.mem := by
  simp [State.operandMem, h]

theorem operandLut_of_none (s : State) (h : s.claim.bind Claim.seen = none) : s.operandLut = s.lut := by
  simp [State.operandLut, h]

/-- The pixel of an image made from a function. -/
theorem Image.at_ofFn (w h : Nat) (f : Nat → Nat → Pixel) (x y : Nat) (hx : x < w) (hy : y < h) :
    (Image.ofFn w h f).at x y = f x y := by
  have hi := index_lt w h x y hx hy
  have hm : (y * w + x) % w = x := by
    rw [Nat.add_comm, Nat.add_mul_mod_self_right, Nat.mod_eq_of_lt hx]
  have hd : (y * w + x) / w = y := by
    rw [Nat.add_comm, Nat.add_mul_div_right _ _ (by omega), Nat.div_eq_of_lt hx, Nat.zero_add]
  simp [Image.at, Image.ofFn, List.getD_eq_getElem?_getD, hi, hm, hd]

/-- The pixel of an image changed pixel by pixel. -/
theorem Image.at_mapPixels (f : Pixel → Pixel) (img : Image) (x y : Nat)
    (hi : y * img.w + x < img.px.length) : (img.mapPixels f).at x y = f (img.at x y) := by
  simp [Image.at, Image.mapPixels, List.getD_eq_getElem?_getD, hi]

/-- The source image holds the pixels of the source region (R53). -/
theorem State.source_at (s : State) (x y : Nat) (hx : x < s.imgW) (hy : y < s.imgH) :
    s.source.at x y = s.operandMem.pixel (s.pixelAddr s.srcAddr x y) := by
  have hi := index_lt s.imgW s.imgH x y hx hy
  simp [Image.at, State.source, State.pixelAddr, State.pixelCount, List.getD_eq_getElem?_getD, hi]

/-! ### The bytes of an image -/

theorem flatMap_bytes_length (ps : List Pixel) : (ps.flatMap Pixel.bytes).length = 4 * ps.length := by
  induction ps with
  | nil => rfl
  | cons p ps ih => simp only [List.flatMap_cons, List.length_append, ih, List.length_cons]; simp [Pixel.bytes]; omega

@[simp] theorem Image.bytes_length (img : Image) : img.bytes.length = 4 * img.px.length :=
  flatMap_bytes_length img.px

/-- The four bytes of pixel `p` stand at `4·p` to `4·p + 3`. -/
theorem flatMap_bytes_getElem? (ps : List Pixel) :
    ∀ p k, k < 4 → (ps.flatMap Pixel.bytes)[4 * p + k]? = (ps[p]?).bind fun q => q.bytes[k]? := by
  induction ps with
  | nil => intro p k _; simp
  | cons q ps ih =>
    intro p k hk
    rw [List.flatMap_cons]
    cases p with
    | zero =>
      rw [List.getElem?_append_left (by simpa [Pixel.bytes] using hk)]
      simp
    | succ p =>
      rw [List.getElem?_append_right (by simp [Pixel.bytes]; omega)]
      rw [show 4 * (p + 1) + k - q.bytes.length = 4 * p + k by simp [Pixel.bytes]; omega, ih p k hk]
      simp

/-- Storing the bytes of an image stores its pixels (R53). -/
theorem Memory.pixel_writeBytes (m : Memory) (hm : m.wf = true) (a : Nat) (img : Image)
    (ha : a + 4 * img.px.length ≤ addressSpace) (p : Nat) (hp : p < img.px.length) :
    (m.writeBytes a img.bytes).pixel (a + 4 * p) = img.px[p] := by
  have key : ∀ k (hk : k < 4), (m.writeBytes a img.bytes).read (a + 4 * p + k) =
      (img.px[p]).bytes[k]'(by simpa [Pixel.bytes] using hk) := by
    intro k hk
    have hlt : 4 * p + k < img.bytes.length := by rw [Image.bytes_length]; omega
    rw [Nat.add_assoc, Memory.read_writeBytes_same _ _ _ _ hlt hm (by rw [Image.bytes_length]; exact ha)]
    have h : img.bytes[4 * p + k]? = (img.px[p]?).bind fun q => q.bytes[k]? :=
      flatMap_bytes_getElem? img.px p k hk
    rw [List.getElem?_eq_getElem hp, Option.bind_some, List.getElem?_eq_getElem hlt,
      List.getElem?_eq_getElem (by simpa [Pixel.bytes] using hk)] at h
    exact Option.some.inj h
  have k0 := key 0 (by omega)
  have k1 := key 1 (by omega)
  have k2 := key 2 (by omega)
  have k3 := key 3 (by omega)
  rw [Nat.add_zero] at k0
  simp only [Memory.pixel, k0, k1, k2, k3]
  rfl

/-- The pixel at `(x, y)` of an image stored at `a`, of `w` columns. -/
theorem Memory.pixel_of_image (m : Memory) (hm : m.wf = true) (a : Nat) (img : Image)
    (ha : a + 4 * img.px.length ≤ addressSpace) (x y : Nat)
    (hi : y * img.w + x < img.px.length) :
    (m.writeBytes a img.bytes).pixel (a + 4 * (y * img.w + x)) = img.at x y := by
  rw [Memory.pixel_writeBytes m hm a img ha _ hi, Image.at, List.getD_eq_getElem?_getD,
    List.getElem?_eq_getElem hi]
  rfl

/-! ### The 3×3 window (R91, R94) -/

/-- The nine terms of a window sum, row by row. -/
theorem windowSum_eq (f : Nat → Nat → Int) :
    windowSum f = f 0 0 + f 0 1 + f 0 2 + (f 1 0 + f 1 1 + f 1 2) + (f 2 0 + f 2 1 + f 2 2) := by
  simp [windowSum, List.range_succ]
  ring

/-- Clamped sampling always reads inside an image that has a pixel (R91). -/
theorem clamped_lt (n : Nat) (hn : 0 < n) (v : Int) : (min ((n : Int) - 1) (max 0 v)).toNat < n := by
  omega

/-- The clamp is the identity on valid coordinates (R91). -/
theorem clamped_of_mem (n : Nat) (v : Int) (h0 : 0 ≤ v) (hv : v < n) :
    (min ((n : Int) - 1) (max 0 v)).toNat = v.toNat := by
  omega

end Sys2Proof.Machine
end

