-- ==== Sys2Proof/Laws/State.lean ====
section
/-! SUPPORT. What each state update leaves in each field, true by definition. A field whose new value is a
longer expression is left to the definition itself. -/

namespace Sys2Proof.Machine

open Sys2Proof

section

variable (s : State) (e : InvalidInput)

@[simp] theorem State.raiseInvalidInput_cmd : (s.raiseInvalidInput e).cmd = s.cmd := rfl
@[simp] theorem State.raiseInvalidInput_status :
    (s.raiseInvalidInput e).status = { s.status with err := true, errcode := e.code } := rfl
@[simp] theorem State.raiseInvalidInput_ien : (s.raiseInvalidInput e).ien = s.ien := rfl
@[simp] theorem State.raiseInvalidInput_srcBase : (s.raiseInvalidInput e).srcBase = s.srcBase := rfl
@[simp] theorem State.raiseInvalidInput_dstBase : (s.raiseInvalidInput e).dstBase = s.dstBase := rfl
@[simp] theorem State.raiseInvalidInput_width : (s.raiseInvalidInput e).width = s.width := rfl
@[simp] theorem State.raiseInvalidInput_height : (s.raiseInvalidInput e).height = s.height := rfl
@[simp] theorem State.raiseInvalidInput_threshLow : (s.raiseInvalidInput e).threshLow = s.threshLow := rfl
@[simp] theorem State.raiseInvalidInput_threshHigh : (s.raiseInvalidInput e).threshHigh = s.threshHigh := rfl
@[simp] theorem State.raiseInvalidInput_clipLimit : (s.raiseInvalidInput e).clipLimit = s.clipLimit := rfl
@[simp] theorem State.raiseInvalidInput_gridSize : (s.raiseInvalidInput e).gridSize = s.gridSize := rfl
@[simp] theorem State.raiseInvalidInput_gamma : (s.raiseInvalidInput e).gamma = s.gamma := rfl
@[simp] theorem State.raiseInvalidInput_contrast : (s.raiseInvalidInput e).contrast = s.contrast := rfl
@[simp] theorem State.raiseInvalidInput_hist : (s.raiseInvalidInput e).hist = s.hist := rfl
@[simp] theorem State.raiseInvalidInput_lut : (s.raiseInvalidInput e).lut = s.lut := rfl
@[simp] theorem State.raiseInvalidInput_mem : (s.raiseInvalidInput e).mem = s.mem := rfl
@[simp] theorem State.raiseInvalidInput_claim : (s.raiseInvalidInput e).claim = s.claim := rfl
@[simp] theorem State.raiseInvalidInput_earlier : (s.raiseInvalidInput e).earlier = s.earlier := rfl
@[simp] theorem State.raiseInvalidInput_inputs : (s.raiseInvalidInput e).inputs = s.inputs := rfl
@[simp] theorem State.raiseInvalidInput_rdata : (s.raiseInvalidInput e).rdata = s.rdata := rfl
@[simp] theorem State.raiseInvalidInput_mdata : (s.raiseInvalidInput e).mdata = s.mdata := rfl
@[simp] theorem State.raiseInvalidInput_free : (s.raiseInvalidInput e).free = s.free := rfl

end

section

variable (s : State) (d e w : Bool)

@[simp] theorem State.acknowledge_cmd : (s.acknowledge d e w).cmd = s.cmd := rfl
@[simp] theorem State.acknowledge_ien : (s.acknowledge d e w).ien = s.ien := rfl
@[simp] theorem State.acknowledge_srcBase : (s.acknowledge d e w).srcBase = s.srcBase := rfl
@[simp] theorem State.acknowledge_dstBase : (s.acknowledge d e w).dstBase = s.dstBase := rfl
@[simp] theorem State.acknowledge_width : (s.acknowledge d e w).width = s.width := rfl
@[simp] theorem State.acknowledge_height : (s.acknowledge d e w).height = s.height := rfl
@[simp] theorem State.acknowledge_threshLow : (s.acknowledge d e w).threshLow = s.threshLow := rfl
@[simp] theorem State.acknowledge_threshHigh : (s.acknowledge d e w).threshHigh = s.threshHigh := rfl
@[simp] theorem State.acknowledge_clipLimit : (s.acknowledge d e w).clipLimit = s.clipLimit := rfl
@[simp] theorem State.acknowledge_gridSize : (s.acknowledge d e w).gridSize = s.gridSize := rfl
@[simp] theorem State.acknowledge_gamma : (s.acknowledge d e w).gamma = s.gamma := rfl
@[simp] theorem State.acknowledge_contrast : (s.acknowledge d e w).contrast = s.contrast := rfl
@[simp] theorem State.acknowledge_hist : (s.acknowledge d e w).hist = s.hist := rfl
@[simp] theorem State.acknowledge_lut : (s.acknowledge d e w).lut = s.lut := rfl
@[simp] theorem State.acknowledge_mem : (s.acknowledge d e w).mem = s.mem := rfl
@[simp] theorem State.acknowledge_claim : (s.acknowledge d e w).claim = s.claim := rfl
@[simp] theorem State.acknowledge_earlier : (s.acknowledge d e w).earlier = s.earlier := rfl
@[simp] theorem State.acknowledge_inputs : (s.acknowledge d e w).inputs = s.inputs := rfl
@[simp] theorem State.acknowledge_rdata : (s.acknowledge d e w).rdata = s.rdata := rfl
@[simp] theorem State.acknowledge_mdata : (s.acknowledge d e w).mdata = s.mdata := rfl
@[simp] theorem State.acknowledge_free : (s.acknowledge d e w).free = s.free := rfl

end

section

variable (s : State) (dst len : Nat) (e : Effect)

@[simp] theorem State.finish_cmd : (s.finish dst len e).cmd = s.cmd := rfl
@[simp] theorem State.finish_status :
    (s.finish dst len e).status = { s.status with busy := false, done := true } := rfl
@[simp] theorem State.finish_ien : (s.finish dst len e).ien = s.ien := rfl
@[simp] theorem State.finish_srcBase : (s.finish dst len e).srcBase = s.srcBase := rfl
@[simp] theorem State.finish_dstBase : (s.finish dst len e).dstBase = s.dstBase := rfl
@[simp] theorem State.finish_width : (s.finish dst len e).width = s.width := rfl
@[simp] theorem State.finish_height : (s.finish dst len e).height = s.height := rfl
@[simp] theorem State.finish_threshLow : (s.finish dst len e).threshLow = s.threshLow := rfl
@[simp] theorem State.finish_threshHigh : (s.finish dst len e).threshHigh = s.threshHigh := rfl
@[simp] theorem State.finish_clipLimit : (s.finish dst len e).clipLimit = s.clipLimit := rfl
@[simp] theorem State.finish_gridSize : (s.finish dst len e).gridSize = s.gridSize := rfl
@[simp] theorem State.finish_gamma : (s.finish dst len e).gamma = s.gamma := rfl
@[simp] theorem State.finish_contrast : (s.finish dst len e).contrast = s.contrast := rfl
@[simp] theorem State.finish_hist :
    (s.finish dst len e).hist = e.hist.settle s.srcHit s.hist (freeHistogram (s.free + len)) := rfl
@[simp] theorem State.finish_lut :
    (s.finish dst len e).lut = e.lut.settle s.srcHit s.lut (freeTable (s.free + len + 256)) := rfl
@[simp] theorem State.finish_claim : (s.finish dst len e).claim = s.claimAfterCompletion := rfl
@[simp] theorem State.finish_earlier : (s.finish dst len e).earlier = s.earlierAfterCompletion := rfl
@[simp] theorem State.finish_inputs : (s.finish dst len e).inputs = s.inputs := rfl
@[simp] theorem State.finish_rdata : (s.finish dst len e).rdata = s.rdata := rfl
@[simp] theorem State.finish_mdata : (s.finish dst len e).mdata = s.mdata := rfl
@[simp] theorem State.finish_free : (s.finish dst len e).free = s.free + drawn len := rfl

end

section

variable (s : State) (v : Word)

@[simp] theorem State.issue_cmd : (s.issue v).cmd = v := rfl
@[simp] theorem State.issue_status :
    (s.issue v).status = { s.status with busy := true, done := false, err := false, errcode := 0 } := rfl
@[simp] theorem State.issue_ien : (s.issue v).ien = s.ien := rfl
@[simp] theorem State.issue_srcBase : (s.issue v).srcBase = s.srcBase := rfl
@[simp] theorem State.issue_dstBase : (s.issue v).dstBase = s.dstBase := rfl
@[simp] theorem State.issue_width : (s.issue v).width = s.width := rfl
@[simp] theorem State.issue_height : (s.issue v).height = s.height := rfl
@[simp] theorem State.issue_threshLow : (s.issue v).threshLow = s.threshLow := rfl
@[simp] theorem State.issue_threshHigh : (s.issue v).threshHigh = s.threshHigh := rfl
@[simp] theorem State.issue_clipLimit : (s.issue v).clipLimit = s.clipLimit := rfl
@[simp] theorem State.issue_gridSize : (s.issue v).gridSize = s.gridSize := rfl
@[simp] theorem State.issue_gamma : (s.issue v).gamma = s.gamma := rfl
@[simp] theorem State.issue_contrast : (s.issue v).contrast = s.contrast := rfl
@[simp] theorem State.issue_hist : (s.issue v).hist = s.hist := rfl
@[simp] theorem State.issue_lut : (s.issue v).lut = s.lut := rfl
@[simp] theorem State.issue_mem : (s.issue v).mem = s.mem := rfl
@[simp] theorem State.issue_earlier : (s.issue v).earlier = s.completed := rfl
@[simp] theorem State.issue_inputs : (s.issue v).inputs = s.inputs := rfl
@[simp] theorem State.issue_rdata : (s.issue v).rdata = s.rdata := rfl
@[simp] theorem State.issue_mdata : (s.issue v).mdata = s.mdata := rfl
@[simp] theorem State.issue_free : (s.issue v).free = s.free := rfl

end

section

variable (s : State) (v : Word)

@[simp] theorem State.present_cmd : (s.present v).cmd = v := rfl
@[simp] theorem State.present_status :
    (s.present v).status = { s.status with done := false, err := false, errcode := 0 } := rfl
@[simp] theorem State.present_ien : (s.present v).ien = s.ien := rfl
@[simp] theorem State.present_srcBase : (s.present v).srcBase = s.srcBase := rfl
@[simp] theorem State.present_dstBase : (s.present v).dstBase = s.dstBase := rfl
@[simp] theorem State.present_width : (s.present v).width = s.width := rfl
@[simp] theorem State.present_height : (s.present v).height = s.height := rfl
@[simp] theorem State.present_threshLow : (s.present v).threshLow = s.threshLow := rfl
@[simp] theorem State.present_threshHigh : (s.present v).threshHigh = s.threshHigh := rfl
@[simp] theorem State.present_clipLimit : (s.present v).clipLimit = s.clipLimit := rfl
@[simp] theorem State.present_gridSize : (s.present v).gridSize = s.gridSize := rfl
@[simp] theorem State.present_gamma : (s.present v).gamma = s.gamma := rfl
@[simp] theorem State.present_contrast : (s.present v).contrast = s.contrast := rfl
@[simp] theorem State.present_hist : (s.present v).hist = s.hist := rfl
@[simp] theorem State.present_lut : (s.present v).lut = s.lut := rfl
@[simp] theorem State.present_mem : (s.present v).mem = s.mem := rfl
@[simp] theorem State.present_claim : (s.present v).claim = s.claim := rfl
@[simp] theorem State.present_earlier : (s.present v).earlier = s.earlier := rfl
@[simp] theorem State.present_inputs : (s.present v).inputs = s.inputs := rfl
@[simp] theorem State.present_rdata : (s.present v).rdata = s.rdata := rfl
@[simp] theorem State.present_mdata : (s.present v).mdata = s.mdata := rfl
@[simp] theorem State.present_free : (s.present v).free = s.free := rfl

end

section

variable (s : State)

@[simp] theorem State.dropWrite_cmd : (s.dropWrite).cmd = s.cmd := rfl
@[simp] theorem State.dropWrite_status : (s.dropWrite).status = { s.status with wrbusy := true } := rfl
@[simp] theorem State.dropWrite_ien : (s.dropWrite).ien = s.ien := rfl
@[simp] theorem State.dropWrite_srcBase : (s.dropWrite).srcBase = s.srcBase := rfl
@[simp] theorem State.dropWrite_dstBase : (s.dropWrite).dstBase = s.dstBase := rfl
@[simp] theorem State.dropWrite_width : (s.dropWrite).width = s.width := rfl
@[simp] theorem State.dropWrite_height : (s.dropWrite).height = s.height := rfl
@[simp] theorem State.dropWrite_threshLow : (s.dropWrite).threshLow = s.threshLow := rfl
@[simp] theorem State.dropWrite_threshHigh : (s.dropWrite).threshHigh = s.threshHigh := rfl
@[simp] theorem State.dropWrite_clipLimit : (s.dropWrite).clipLimit = s.clipLimit := rfl
@[simp] theorem State.dropWrite_gridSize : (s.dropWrite).gridSize = s.gridSize := rfl
@[simp] theorem State.dropWrite_gamma : (s.dropWrite).gamma = s.gamma := rfl
@[simp] theorem State.dropWrite_contrast : (s.dropWrite).contrast = s.contrast := rfl
@[simp] theorem State.dropWrite_hist : (s.dropWrite).hist = s.hist := rfl
@[simp] theorem State.dropWrite_lut : (s.dropWrite).lut = s.lut := rfl
@[simp] theorem State.dropWrite_mem : (s.dropWrite).mem = s.mem := rfl
@[simp] theorem State.dropWrite_claim : (s.dropWrite).claim = s.claim := rfl
@[simp] theorem State.dropWrite_earlier : (s.dropWrite).earlier = s.earlier := rfl
@[simp] theorem State.dropWrite_inputs : (s.dropWrite).inputs = s.inputs := rfl
@[simp] theorem State.dropWrite_rdata : (s.dropWrite).rdata = s.rdata := rfl
@[simp] theorem State.dropWrite_mdata : (s.dropWrite).mdata = s.mdata := rfl
@[simp] theorem State.dropWrite_free : (s.dropWrite).free = s.free := rfl

end

section

variable (s : State) (v : Word)

@[simp] theorem State.writeIen_cmd : (s.writeIen v).cmd = s.cmd := rfl
@[simp] theorem State.writeIen_status : (s.writeIen v).status = s.status := rfl
@[simp] theorem State.writeIen_ien : (s.writeIen v).ien = Ien.ofWord v := rfl
@[simp] theorem State.writeIen_srcBase : (s.writeIen v).srcBase = s.srcBase := rfl
@[simp] theorem State.writeIen_dstBase : (s.writeIen v).dstBase = s.dstBase := rfl
@[simp] theorem State.writeIen_width : (s.writeIen v).width = s.width := rfl
@[simp] theorem State.writeIen_height : (s.writeIen v).height = s.height := rfl
@[simp] theorem State.writeIen_threshLow : (s.writeIen v).threshLow = s.threshLow := rfl
@[simp] theorem State.writeIen_threshHigh : (s.writeIen v).threshHigh = s.threshHigh := rfl
@[simp] theorem State.writeIen_clipLimit : (s.writeIen v).clipLimit = s.clipLimit := rfl
@[simp] theorem State.writeIen_gridSize : (s.writeIen v).gridSize = s.gridSize := rfl
@[simp] theorem State.writeIen_gamma : (s.writeIen v).gamma = s.gamma := rfl
@[simp] theorem State.writeIen_contrast : (s.writeIen v).contrast = s.contrast := rfl
@[simp] theorem State.writeIen_hist : (s.writeIen v).hist = s.hist := rfl
@[simp] theorem State.writeIen_lut : (s.writeIen v).lut = s.lut := rfl
@[simp] theorem State.writeIen_mem : (s.writeIen v).mem = s.mem := rfl
@[simp] theorem State.writeIen_claim :
    (s.writeIen v).claim = if s.ienObserves (Ien.ofWord v) then none else s.claim := rfl
@[simp] theorem State.writeIen_earlier :
    (s.writeIen v).earlier = if s.ienObserves (Ien.ofWord v) then [] else s.earlier := rfl
@[simp] theorem State.writeIen_inputs : (s.writeIen v).inputs = s.inputs := rfl
@[simp] theorem State.writeIen_rdata : (s.writeIen v).rdata = s.rdata := rfl
@[simp] theorem State.writeIen_mdata : (s.writeIen v).mdata = s.mdata := rfl
@[simp] theorem State.writeIen_free : (s.writeIen v).free = s.free := rfl

end

section

variable (s : State) (r : Option RegName)

@[simp] theorem State.readReg_cmd : (s.readReg r).cmd = s.cmd := rfl
@[simp] theorem State.readReg_status : (s.readReg r).status = s.status := rfl
@[simp] theorem State.readReg_ien : (s.readReg r).ien = s.ien := rfl
@[simp] theorem State.readReg_srcBase : (s.readReg r).srcBase = s.srcBase := rfl
@[simp] theorem State.readReg_dstBase : (s.readReg r).dstBase = s.dstBase := rfl
@[simp] theorem State.readReg_width : (s.readReg r).width = s.width := rfl
@[simp] theorem State.readReg_height : (s.readReg r).height = s.height := rfl
@[simp] theorem State.readReg_threshLow : (s.readReg r).threshLow = s.threshLow := rfl
@[simp] theorem State.readReg_threshHigh : (s.readReg r).threshHigh = s.threshHigh := rfl
@[simp] theorem State.readReg_clipLimit : (s.readReg r).clipLimit = s.clipLimit := rfl
@[simp] theorem State.readReg_gridSize : (s.readReg r).gridSize = s.gridSize := rfl
@[simp] theorem State.readReg_gamma : (s.readReg r).gamma = s.gamma := rfl
@[simp] theorem State.readReg_contrast : (s.readReg r).contrast = s.contrast := rfl
@[simp] theorem State.readReg_hist : (s.readReg r).hist = s.hist := rfl
@[simp] theorem State.readReg_lut : (s.readReg r).lut = s.lut := rfl
@[simp] theorem State.readReg_mem : (s.readReg r).mem = s.mem := rfl
@[simp] theorem State.readReg_claim :
    (s.readReg r).claim = if s.readObserves r then none else s.claim := rfl
@[simp] theorem State.readReg_earlier :
    (s.readReg r).earlier = if s.readObserves r then [] else s.earlier := rfl
@[simp] theorem State.readReg_inputs : (s.readReg r).inputs = s.inputs := rfl
@[simp] theorem State.readReg_rdata : (s.readReg r).rdata = s.readValue r := rfl
@[simp] theorem State.readReg_mdata : (s.readReg r).mdata = s.mdata := rfl
@[simp] theorem State.readReg_free : (s.readReg r).free = s.free + 1 := rfl

end

section

variable (s : State) (a n : Nat)

@[simp] theorem State.hostRead_cmd : (s.hostRead a n).cmd = s.cmd := rfl
@[simp] theorem State.hostRead_status : (s.hostRead a n).status = s.status := rfl
@[simp] theorem State.hostRead_ien : (s.hostRead a n).ien = s.ien := rfl
@[simp] theorem State.hostRead_srcBase : (s.hostRead a n).srcBase = s.srcBase := rfl
@[simp] theorem State.hostRead_dstBase : (s.hostRead a n).dstBase = s.dstBase := rfl
@[simp] theorem State.hostRead_width : (s.hostRead a n).width = s.width := rfl
@[simp] theorem State.hostRead_height : (s.hostRead a n).height = s.height := rfl
@[simp] theorem State.hostRead_threshLow : (s.hostRead a n).threshLow = s.threshLow := rfl
@[simp] theorem State.hostRead_threshHigh : (s.hostRead a n).threshHigh = s.threshHigh := rfl
@[simp] theorem State.hostRead_clipLimit : (s.hostRead a n).clipLimit = s.clipLimit := rfl
@[simp] theorem State.hostRead_gridSize : (s.hostRead a n).gridSize = s.gridSize := rfl
@[simp] theorem State.hostRead_gamma : (s.hostRead a n).gamma = s.gamma := rfl
@[simp] theorem State.hostRead_contrast : (s.hostRead a n).contrast = s.contrast := rfl
@[simp] theorem State.hostRead_hist : (s.hostRead a n).hist = s.hist := rfl
@[simp] theorem State.hostRead_lut : (s.hostRead a n).lut = s.lut := rfl
@[simp] theorem State.hostRead_mem : (s.hostRead a n).mem = s.mem := rfl
@[simp] theorem State.hostRead_claim : (s.hostRead a n).claim = s.claim := rfl
@[simp] theorem State.hostRead_earlier : (s.hostRead a n).earlier = s.earlier := rfl
@[simp] theorem State.hostRead_inputs : (s.hostRead a n).inputs = s.inputs := rfl
@[simp] theorem State.hostRead_rdata : (s.hostRead a n).rdata = s.rdata := rfl
@[simp] theorem State.hostRead_free :
    (s.hostRead a n).free = s.free + n * (1 + s.completed.length) := rfl

end

section

variable (s : State) (a : Nat) (bs : List Byte)

@[simp] theorem State.storeBytes_cmd : (s.storeBytes a bs).cmd = s.cmd := rfl
@[simp] theorem State.storeBytes_status : (s.storeBytes a bs).status = s.status := rfl
@[simp] theorem State.storeBytes_ien : (s.storeBytes a bs).ien = s.ien := rfl
@[simp] theorem State.storeBytes_srcBase : (s.storeBytes a bs).srcBase = s.srcBase := rfl
@[simp] theorem State.storeBytes_dstBase : (s.storeBytes a bs).dstBase = s.dstBase := rfl
@[simp] theorem State.storeBytes_width : (s.storeBytes a bs).width = s.width := rfl
@[simp] theorem State.storeBytes_height : (s.storeBytes a bs).height = s.height := rfl
@[simp] theorem State.storeBytes_threshLow : (s.storeBytes a bs).threshLow = s.threshLow := rfl
@[simp] theorem State.storeBytes_threshHigh : (s.storeBytes a bs).threshHigh = s.threshHigh := rfl
@[simp] theorem State.storeBytes_clipLimit : (s.storeBytes a bs).clipLimit = s.clipLimit := rfl
@[simp] theorem State.storeBytes_gridSize : (s.storeBytes a bs).gridSize = s.gridSize := rfl
@[simp] theorem State.storeBytes_gamma : (s.storeBytes a bs).gamma = s.gamma := rfl
@[simp] theorem State.storeBytes_contrast : (s.storeBytes a bs).contrast = s.contrast := rfl
@[simp] theorem State.storeBytes_hist : (s.storeBytes a bs).hist = s.hist := rfl
@[simp] theorem State.storeBytes_lut : (s.storeBytes a bs).lut = s.lut := rfl
@[simp] theorem State.storeBytes_earlier : (s.storeBytes a bs).earlier = s.earlier := rfl
@[simp] theorem State.storeBytes_claim : (s.storeBytes a bs).claim = s.claimAfterWrite a bs.length := rfl
@[simp] theorem State.storeBytes_inputs : (s.storeBytes a bs).inputs = s.inputs := rfl
@[simp] theorem State.storeBytes_rdata : (s.storeBytes a bs).rdata = s.rdata := rfl
@[simp] theorem State.storeBytes_mdata : (s.storeBytes a bs).mdata = s.mdata := rfl
@[simp] theorem State.storeBytes_free : (s.storeBytes a bs).free = s.free + bs.length := rfl

end

section

variable (s : State) (newer : List Claim) (c : Claim)

@[simp] theorem State.unsettle_cmd : (s.unsettle newer c).cmd = s.cmd := rfl
@[simp] theorem State.unsettle_status : (s.unsettle newer c).status = s.status := rfl
@[simp] theorem State.unsettle_ien : (s.unsettle newer c).ien = s.ien := rfl
@[simp] theorem State.unsettle_srcBase : (s.unsettle newer c).srcBase = s.srcBase := rfl
@[simp] theorem State.unsettle_dstBase : (s.unsettle newer c).dstBase = s.dstBase := rfl
@[simp] theorem State.unsettle_width : (s.unsettle newer c).width = s.width := rfl
@[simp] theorem State.unsettle_height : (s.unsettle newer c).height = s.height := rfl
@[simp] theorem State.unsettle_threshLow : (s.unsettle newer c).threshLow = s.threshLow := rfl
@[simp] theorem State.unsettle_threshHigh : (s.unsettle newer c).threshHigh = s.threshHigh := rfl
@[simp] theorem State.unsettle_clipLimit : (s.unsettle newer c).clipLimit = s.clipLimit := rfl
@[simp] theorem State.unsettle_gridSize : (s.unsettle newer c).gridSize = s.gridSize := rfl
@[simp] theorem State.unsettle_gamma : (s.unsettle newer c).gamma = s.gamma := rfl
@[simp] theorem State.unsettle_contrast : (s.unsettle newer c).contrast = s.contrast := rfl
@[simp] theorem State.unsettle_claim : (s.unsettle newer c).claim = s.claim := rfl
@[simp] theorem State.unsettle_earlier : (s.unsettle newer c).earlier = s.earlier := rfl
@[simp] theorem State.unsettle_inputs : (s.unsettle newer c).inputs = s.inputs := rfl
@[simp] theorem State.unsettle_rdata : (s.unsettle newer c).rdata = s.rdata := rfl
@[simp] theorem State.unsettle_mdata : (s.unsettle newer c).mdata = s.mdata := rfl
@[simp] theorem State.unsettle_free : (s.unsettle newer c).free = s.free + drawn c.len := rfl

end

section

variable (c : Claim) (a n : Nat)

@[simp] theorem Claim.recordWrite_src : (c.recordWrite a n).src = c.src := rfl
@[simp] theorem Claim.recordWrite_dst : (c.recordWrite a n).dst = c.dst := rfl
@[simp] theorem Claim.recordWrite_len : (c.recordWrite a n).len = c.len := rfl
@[simp] theorem Claim.recordWrite_hasDst : (c.recordWrite a n).hasDst = c.hasDst := rfl
@[simp] theorem Claim.recordWrite_writesHist : (c.recordWrite a n).writesHist = c.writesHist := rfl
@[simp] theorem Claim.recordWrite_writesLut : (c.recordWrite a n).writesLut = c.writesLut := rfl
@[simp] theorem Claim.recordWrite_readsLut : (c.recordWrite a n).readsLut = c.readsLut := rfl
@[simp] theorem Claim.recordWrite_before : (c.recordWrite a n).before = c.before := rfl
@[simp] theorem Claim.recordWrite_seen : (c.recordWrite a n).seen = c.seen := rfl
@[simp] theorem Claim.recordWrite_srcHit : (c.recordWrite a n).srcHit = (c.srcHit || c.touchesSrc a n) := rfl

end

section

variable (c : Claim)

@[simp] theorem Claim.sparingFiles_src : c.sparingFiles.src = c.src := rfl
@[simp] theorem Claim.sparingFiles_dst : c.sparingFiles.dst = c.dst := rfl
@[simp] theorem Claim.sparingFiles_len : c.sparingFiles.len = c.len := rfl
@[simp] theorem Claim.sparingFiles_hasDst : c.sparingFiles.hasDst = c.hasDst := rfl
@[simp] theorem Claim.sparingFiles_readsLut : c.sparingFiles.readsLut = c.readsLut := rfl
@[simp] theorem Claim.sparingFiles_before : c.sparingFiles.before = c.before := rfl
@[simp] theorem Claim.sparingFiles_seen : c.sparingFiles.seen = c.seen := rfl
@[simp] theorem Claim.sparingFiles_srcHit : c.sparingFiles.srcHit = c.srcHit := rfl
@[simp] theorem Claim.sparingFiles_dstHit : c.sparingFiles.dstHit = c.dstHit := rfl
@[simp] theorem Claim.sparingFiles_writesHist : c.sparingFiles.writesHist = false := rfl
@[simp] theorem Claim.sparingFiles_writesLut : c.sparingFiles.writesLut = false := rfl

end

section

variable (s : State)

@[simp] theorem State.assertReset_cmd : (s.assertReset).cmd = State.reset.cmd := rfl
@[simp] theorem State.assertReset_status : (s.assertReset).status = State.reset.status := rfl
@[simp] theorem State.assertReset_ien : (s.assertReset).ien = State.reset.ien := rfl
@[simp] theorem State.assertReset_srcBase : (s.assertReset).srcBase = State.reset.srcBase := rfl
@[simp] theorem State.assertReset_dstBase : (s.assertReset).dstBase = State.reset.dstBase := rfl
@[simp] theorem State.assertReset_width : (s.assertReset).width = State.reset.width := rfl
@[simp] theorem State.assertReset_height : (s.assertReset).height = State.reset.height := rfl
@[simp] theorem State.assertReset_threshLow : (s.assertReset).threshLow = State.reset.threshLow := rfl
@[simp] theorem State.assertReset_threshHigh : (s.assertReset).threshHigh = State.reset.threshHigh := rfl
@[simp] theorem State.assertReset_clipLimit : (s.assertReset).clipLimit = State.reset.clipLimit := rfl
@[simp] theorem State.assertReset_gridSize : (s.assertReset).gridSize = State.reset.gridSize := rfl
@[simp] theorem State.assertReset_gamma : (s.assertReset).gamma = State.reset.gamma := rfl
@[simp] theorem State.assertReset_contrast : (s.assertReset).contrast = State.reset.contrast := rfl
@[simp] theorem State.assertReset_hist : (s.assertReset).hist = State.reset.hist := rfl
@[simp] theorem State.assertReset_lut : (s.assertReset).lut = State.reset.lut := rfl
@[simp] theorem State.assertReset_mem : (s.assertReset).mem = s.memAfterReset := rfl
@[simp] theorem State.assertReset_claim : (s.assertReset).claim = State.reset.claim := rfl
@[simp] theorem State.assertReset_earlier :
    (s.assertReset).earlier = s.completed.map Claim.sparingFiles := rfl
@[simp] theorem State.assertReset_inputs : (s.assertReset).inputs = s.inputs := rfl
@[simp] theorem State.assertReset_rdata : (s.assertReset).rdata = s.rdata := rfl
@[simp] theorem State.assertReset_mdata : (s.assertReset).mdata = s.mdata := rfl
@[simp] theorem State.assertReset_free : (s.assertReset).free = s.free + s.regionLen := rfl

end

end Sys2Proof.Machine
end

