-- ==== Sys2Proof/Laws/Completion.lean ====
section
/-! SUPPORT. What a completion step can do (spec/10_state.md R44): every meaning is one completion with the
operation's effect. -/

namespace Sys2Proof.Machine

open Sys2Proof

/-- Each meaning completes its operation's effect (R44). -/
theorem exec_eq_complete (i : Instr) (s : State) : exec i s = complete (effectOf i s) s := by
  cases i <;> rfl

/-- The regions an operation uses lie inside the memory space (R55). -/
theorem complete_eq_next (e : Effect) (s : State) (hs : addressable s.srcAddr s.regionLen = true)
    (hd : e.dst.isSome = true → addressable s.dstAddr s.regionLen = true) :
    complete e s = .next (s.finish s.dstAddr s.regionLen e) := by
  unfold complete
  rw [if_pos]
  cases h : e.dst with
  | none => simp [hs]
  | some img => simp [hs, hd (by simp [h])]

/-- Everything a completion that answers a next state does. -/
theorem complete_next (e : Effect) (s t : State) (h : complete e s = .next t) :
    t = s.finish s.dstAddr s.regionLen e ∧ addressable s.srcAddr s.regionLen = true ∧
      (e.dst.isSome = true → addressable s.dstAddr s.regionLen = true) := by
  unfold complete at h
  split at h
  · rename_i hc
    rw [Bool.and_eq_true, Bool.or_eq_true] at hc
    refine ⟨by injection h with h; exact h.symm, hc.1, fun hd => hc.2.resolve_left fun hn => ?_⟩
    cases hd' : e.dst <;> simp_all
  · cases h

/-- A completion stops only where a region leaves the memory space, which no accepted command allows
(R55). -/
theorem complete_fault (e : Effect) (s : State) (r : Fault) (h : complete e s = .fault r) :
    r = .outsideAddressSpace ∧ ¬ (addressable s.srcAddr s.regionLen = true ∧
      (e.dst.isSome = true → addressable s.dstAddr s.regionLen = true)) := by
  refine ⟨?_, fun hc => ?_⟩
  · unfold complete at h
    split at h
    · cases h
    · injection h with h; exact h.symm
  · rw [complete_eq_next e s hc.1 hc.2] at h
    cases h

/-- A completion never refuses. -/
theorem complete_not_refused (e : Effect) (s : State) (r : Refusal) : complete e s ≠ .refused r := by
  unfold complete
  split <;> simp

/-- An operation computes a destination image exactly when it writes a destination (R58). -/
theorem effectOf_dst_isSome (i : Instr) (s : State) : (effectOf i s).dst.isSome = writesDst i := by
  cases i <;> rfl

/-- The destination image has the shape of the source image (R51). -/
theorem effectOf_dst_shape (i : Instr) (s : State) (img : Image) (h : (effectOf i s).dst = some img) :
    img.w = s.imgW ∧ img.h = s.imgH ∧ img.px.length = s.pixelCount := by
  cases i <;> (simp only [effectOf] at h)
  case hist => simp [histEffect] at h
  all_goals
    injection h with h
    subst h
    simp [sobelImage, prewittImage, laplacianImage, gradientImage, cannyImage, claheImage, State.pixelCount]

/-- The bytes an operation writes fill the destination region (R57). -/
theorem effectOf_dst_bytes_length (i : Instr) (s : State) (img : Image)
    (h : (effectOf i s).dst = some img) : img.bytes.length = s.regionLen := by
  rw [Image.bytes_length, (effectOf_dst_shape i s img h).2.2, State.regionLen]

theorem finish_mem_none (s : State) (dst len : Nat) (e : Effect) (h : e.dst = none) :
    (s.finish dst len e).mem = s.mem := by
  simp [State.finish, h]

theorem finish_mem_some (s : State) (dst len : Nat) (e : Effect) (img : Image) (h : e.dst = some img) :
    (s.finish dst len e).mem =
      s.mem.writeBytes dst (img.bytes.mapIdx fun k b => s.settledByte dst k b) := by
  simp [State.finish, h]

/-- With the ownership kept, the destination takes exactly the bytes the operation computes (R61). -/
theorem settledByte_of_kept (s : State) (h : s.ownershipKept) (dst k : Nat) (b : Byte) :
    s.settledByte dst k b = b := by
  simp [State.settledByte, h.source, h.destination]

theorem finish_mem_of_kept (s : State) (h : s.ownershipKept) (dst len : Nat) (e : Effect) (img : Image)
    (hd : e.dst = some img) : (s.finish dst len e).mem = s.mem.writeBytes dst img.bytes := by
  rw [finish_mem_some s dst len e img hd]
  congr 1
  refine List.ext_getElem (by simp) fun k h1 h2 => ?_
  simp [settledByte_of_kept s h]

/-- A completion keeps the canonical form of memory. -/
theorem finish_mem_wf (s : State) (hm : s.mem.wf = true) (dst len : Nat) (e : Effect)
    (h : ∀ img, e.dst = some img → dst + img.bytes.length ≤ addressSpace) :
    (s.finish dst len e).mem.wf = true := by
  cases hd : e.dst with
  | none => rw [finish_mem_none s dst len e hd]; exact hm
  | some img =>
    rw [finish_mem_some s dst len e img hd]
    exact Memory.writeBytes_wf _ _ _ hm (by simpa using h img hd)

/-- A completion leaves every byte outside the destination as it was (R57). -/
theorem finish_mem_outside (s : State) (dst len : Nat) (e : Effect) (a : Nat)
    (h : ∀ img, e.dst = some img → a < dst ∨ dst + img.bytes.length ≤ a) :
    (s.finish dst len e).mem.read a = s.mem.read a := by
  cases hd : e.dst with
  | none => rw [finish_mem_none s dst len e hd]
  | some img =>
    rw [finish_mem_some s dst len e img hd]
    exact Memory.read_writeBytes_other _ _ _ _ (by simpa using h img hd)

/-- The pixel at `(x, y)` of the destination region after a completion with the ownership kept (R53). -/
theorem finish_pixel (s : State) (hm : s.mem.wf = true) (hk : s.ownershipKept) (e : Effect) (img : Image)
    (hd : e.dst = some img) (hw : img.w = s.imgW) (hl : img.px.length = s.pixelCount)
    (ha : addressable s.dstAddr s.regionLen = true) (x y : Nat) (hx : x < s.imgW) (hy : y < s.imgH) :
    (s.finish s.dstAddr s.regionLen e).mem.pixel (s.pixelAddr s.dstAddr x y) = img.at x y := by
  rw [finish_mem_of_kept s hk _ _ e img hd, State.pixelAddr, ← hw]
  refine Memory.pixel_of_image s.mem hm _ img ?_ x y ?_
  · rw [hl]; exact (addressable_iff _ _).1 ha
  · rw [hl, hw]; exact index_lt _ _ _ _ hx hy

end Sys2Proof.Machine
end

