-- ==== Sys2Proof/Laws/Factor.lean ====
section
/-! SUPPORT. The sigmoid table is exact (spec/44_tone.md R162, R163; assumption log 15): the refinement of
`scaledExactly` always ends with the exactly rounded entry. A multiple of `exp(4·|c|)` by a number up to 511 keeps
a known distance from every integer, by the integral of the exponential against `X^n·(a − b·X)^n`, and after `2^37`
terms the interval around the factor is narrower than that distance. -/

namespace Sys2Proof.Machine

open Sys2Proof
open Polynomial
open scoped Nat

/-! ### How near a multiple of an exponential can be to an integer -/

/-- Integrating a polynomial against the exponential leaves its iterated derivatives at the two ends. -/
theorem integral_exp_mul (p : ℝ[X]) (x : ℝ) :
    ∫ t in (0 : ℝ)..x, Real.exp (x - t) * p.eval t =
      Real.exp x * (sumIDeriv p).eval 0 - (sumIDeriv p).eval x := by
  have hd : ∀ t ∈ Set.uIcc (0 : ℝ) x,
      HasDerivAt (fun t => -(Real.exp (x - t) * (sumIDeriv p).eval t)) (Real.exp (x - t) * p.eval t) t := by
    intro t _
    have h1 := ((hasDerivAt_id t).const_sub x).exp
    have h2 := (h1.fun_mul ((sumIDeriv p).hasDerivAt t)).fun_neg
    refine h2.congr_deriv ?_
    have e := congrArg (eval t) (sumIDeriv_eq_self_add p)
    rw [eval_add] at e
    rw [show eval t (derivative (sumIDeriv p)) = eval t (sumIDeriv p) - eval t p by linarith]
    simp only [id]
    ring
  rw [intervalIntegral.integral_eq_sub_of_hasDerivAt hd
    (Continuous.intervalIntegrable (by fun_prop) _ _)]
  simp only [sub_self, Real.exp_zero, sub_zero]
  ring

/-- Of the iterated derivatives of `X^m` only the `m`-th is not 0 at 0. -/
theorem eval_zero_sumIDeriv_X_pow (m : ℕ) : (sumIDeriv (X ^ m : ℤ[X])).eval 0 = m ! := by
  rw [sumIDeriv_apply, natDegree_X_pow, eval_finsetSum, Finset.sum_eq_single m]
  · simp [iterate_derivative_X_pow_eq_smul, Nat.descFactorial_self]
  · intro k hk hkm
    rw [Finset.mem_range] at hk
    have : m - k ≠ 0 := by omega
    simp [iterate_derivative_X_pow_eq_smul, this]
  · simp

/-- `X^n·(a − b·X)^n`. -/
noncomputable def expBump (a b n : ℕ) : ℤ[X] := X ^ n * (C (a : ℤ) - C (b : ℤ) * X) ^ n

/-- `expBump`, term by term. -/
theorem expBump_sum (a b n : ℕ) : expBump a b n =
    ∑ j ∈ Finset.range (n + 1), C ((-b : ℤ) ^ j * (a : ℤ) ^ (n - j) * (n.choose j : ℤ)) * X ^ (n + j) := by
  rw [expBump, sub_eq_neg_add, add_pow, Finset.mul_sum]
  refine Finset.sum_congr rfl fun j _ => ?_
  simp only [map_mul, map_pow, map_neg, neg_mul_eq_neg_mul, mul_pow, pow_add]
  simp
  ring

/-- A bound of the iterated derivatives of `expBump` at 0. -/
theorem abs_eval_zero_le (a b n : ℕ) :
    |(sumIDeriv (expBump a b n)).eval 0| ≤ ((a + b) ^ n * (2 * n)! : ℕ) := by
  rw [expBump_sum, map_sum, eval_finsetSum]
  refine (Finset.abs_sum_le_sum_abs _ _).trans ?_
  rw [add_comm a b, add_pow, Finset.sum_mul]
  push_cast
  refine Finset.sum_le_sum fun j hj => ?_
  rw [Finset.mem_range] at hj
  rw [← smul_eq_C_mul, map_smul, eval_smul, eval_zero_sumIDeriv_X_pow, smul_eq_mul, abs_mul, abs_mul, abs_mul,
    abs_pow, abs_neg]
  simp only [Nat.abs_cast, abs_pow]
  gcongr
  omega

/-- `expBump` as a real function. -/
theorem eval_expBump (a b n : ℕ) (t : ℝ) :
    ((expBump a b n).map (algebraMap ℤ ℝ)).eval t = t ^ n * (a - b * t) ^ n := by
  simp [expBump]

/-- The degree of `expBump`. -/
theorem natDegree_expBump_le (a b n : ℕ) : (expBump a b n).natDegree ≤ 2 * n := by
  unfold expBump
  compute_degree
  omega

/-- An integer polynomial of degree at most `n` at `a/b`, cleared of its denominator. -/
theorem clear_denominators (g : ℤ[X]) (n a b : ℕ) (hb : 0 < b) (h : g.natDegree ≤ n) :
    ∃ z : ℤ, (b : ℝ) ^ n * aeval ((a : ℝ) / b) g = z := by
  refine ⟨∑ k ∈ Finset.range (n + 1), g.coeff k * (a ^ k * b ^ (n - k) : ℕ), ?_⟩
  rw [aeval_eq_sum_range' (Nat.lt_succ_of_le h), Finset.mul_sum]
  push_cast
  refine Finset.sum_congr rfl fun k hk => ?_
  rw [Finset.mem_range] at hk
  have hb' : (b : ℝ) ≠ 0 := by positivity
  rw [zsmul_eq_mul, div_pow, ← Nat.sub_add_cancel (show k ≤ n by omega), pow_add, Nat.add_sub_cancel]
  field_simp

/-- The integral of `expBump` against the exponential is a combination of 1 and `exp (a/b)` with coefficients
that are integers up to a power of `b`. -/
theorem integral_form (a b n : ℕ) (hb : 0 < b) :
    ∃ g z : ℤ, (sumIDeriv (expBump a b n)).eval 0 = n ! * g ∧
      (b : ℝ) ^ n * ∫ t in (0 : ℝ)..(a / b : ℝ), Real.exp (a / b - t) * (t ^ n * (a - b * t) ^ n) =
        n ! * ((b : ℝ) ^ n * (Real.exp (a / b) * g) - z) := by
  obtain ⟨p, hp, h⟩ := aeval_sumIDeriv ℝ (expBump a b n) n
  have hdeg : p.natDegree ≤ n := by have := natDegree_expBump_le a b n; omega
  have hb' : (b : ℝ) ≠ 0 := by positivity
  obtain ⟨z, hz⟩ := clear_denominators p n a b hb hdeg
  have h0 := h 0 (by
    simp only [expBump, Polynomial.map_mul, Polynomial.map_pow, map_X, map_zero, sub_zero]
    exact dvd_mul_right _ _)
  have hx := h (a / b) (by
    have e : (C (a : ℤ) - C (b : ℤ) * X : ℤ[X]).map (algebraMap ℤ ℝ) =
        (X - C ((a : ℝ) / b)) * C (-(b : ℝ)) := by
      rw [Polynomial.map_sub, Polynomial.map_mul, map_X, map_C, map_C, sub_mul, ← C_mul,
        show (a : ℝ) / b * -b = -a by field_simp, map_neg, map_neg]
      simp
      ring
    rw [expBump, Polynomial.map_mul, Polynomial.map_pow, Polynomial.map_pow, e, mul_pow]
    exact (Dvd.intro _ rfl).mul_left _)
  refine ⟨p.eval 0, z, ?_, ?_⟩
  · have : (((sumIDeriv (expBump a b n)).eval 0 : ℤ) : ℝ) = ((n ! * p.eval 0 : ℤ) : ℝ) := by
      have e1 : aeval (0 : ℝ) (sumIDeriv (expBump a b n)) = ((sumIDeriv (expBump a b n)).eval 0 : ℤ) := by
        simpa using aeval_algebraMap_apply ℝ (0 : ℤ) (sumIDeriv (expBump a b n))
      have e2 : aeval (0 : ℝ) p = (p.eval 0 : ℤ) := by simpa using aeval_algebraMap_apply ℝ (0 : ℤ) p
      rw [← e1, h0, e2]
      push_cast
      simp
    exact_mod_cast this
  · have hi := integral_exp_mul ((expBump a b n).map (algebraMap ℤ ℝ)) (a / b)
    simp only [eval_expBump] at hi
    rw [hi, ← aeval_sumIDeriv_eq_eval, ← aeval_sumIDeriv_eq_eval, h0, hx,
      show aeval (0 : ℝ) p = (p.eval 0 : ℤ) by simpa using aeval_algebraMap_apply ℝ (0 : ℤ) p, nsmul_eq_mul,
      nsmul_eq_mul, ← hz]
    ring

/-- The integral of `expBump` against the exponential is small, but not too small. -/
theorem integral_bounds (a b n : ℕ) (ha : 0 < a) (hb : 0 < b) :
    (a / b : ℝ) / 2 * (a ^ 2 / (16 * b)) ^ n ≤
        ∫ t in (0 : ℝ)..(a / b : ℝ), Real.exp (a / b - t) * (t ^ n * (a - b * t) ^ n) ∧
      ∫ t in (0 : ℝ)..(a / b : ℝ), Real.exp (a / b - t) * (t ^ n * (a - b * t) ^ n) ≤
        a / b * (Real.exp (a / b) * (a ^ 2 / b) ^ n) := by
  have ha' : (0 : ℝ) < a := by positivity
  have hb' : (0 : ℝ) < b := by positivity
  set x : ℝ := a / b with hx
  have hx0 : 0 < x := by positivity
  have hbx : b * x = a := by rw [hx]; field_simp
  have hc : Continuous fun t : ℝ => Real.exp (x - t) * (t ^ n * (a - b * t) ^ n) := by fun_prop
  have hpos : ∀ t : ℝ, 0 ≤ t → t ≤ x → 0 ≤ (a : ℝ) - b * t := fun t _ h => by nlinarith
  constructor
  · have h1 : ∫ t in (x / 4)..(3 * x / 4), ((a : ℝ) ^ 2 / (16 * b)) ^ n ≤
        ∫ t in (x / 4)..(3 * x / 4), Real.exp (x - t) * (t ^ n * (a - b * t) ^ n) := by
      refine intervalIntegral.integral_mono_on (by linarith) (by simp) (hc.intervalIntegrable _ _) fun t ht => ?_
      have e1 : 1 ≤ Real.exp (x - t) := Real.one_le_exp (by linarith [ht.2])
      have e2 : (a : ℝ) ^ 2 / (16 * b) ≤ t * (a - b * t) := by
        have : x / 4 * (a / 4) ≤ t * (a - b * t) :=
          mul_le_mul ht.1 (by nlinarith [ht.2]) (by positivity) (by linarith [ht.1])
        calc (a : ℝ) ^ 2 / (16 * b) = x / 4 * (a / 4) := by rw [hx]; field_simp; norm_num
          _ ≤ _ := this
      rw [← mul_pow]
      calc ((a : ℝ) ^ 2 / (16 * b)) ^ n ≤ (t * (a - b * t)) ^ n := pow_le_pow_left₀ (by positivity) e2 n
        _ ≤ Real.exp (x - t) * (t * (a - b * t)) ^ n :=
          le_mul_of_one_le_left (pow_nonneg (le_trans (by positivity) e2) n) e1
    rw [intervalIntegral.integral_const, smul_eq_mul] at h1
    calc x / 2 * ((a : ℝ) ^ 2 / (16 * b)) ^ n = (3 * x / 4 - x / 4) * ((a : ℝ) ^ 2 / (16 * b)) ^ n := by ring
      _ ≤ _ := h1
      _ ≤ _ := by
        refine intervalIntegral.integral_mono_interval (by linarith) (by linarith) (by linarith) ?_
          (hc.intervalIntegrable _ _)
        refine (MeasureTheory.ae_restrict_mem measurableSet_Ioc).mono fun t ht => ?_
        have := hpos t ht.1.le ht.2
        have := ht.1.le
        simp only [Pi.zero_apply]
        positivity
  · have h2 := intervalIntegral.norm_integral_le_of_norm_le_const (a := (0 : ℝ)) (b := x)
      (C := Real.exp x * (a ^ 2 / b) ^ n) (f := fun t => Real.exp (x - t) * (t ^ n * (a - b * t) ^ n))
      (fun t ht => by
        rw [Set.uIoc_of_le hx0.le] at ht
        have h3 := hpos t ht.1.le ht.2
        have h4 := ht.1.le
        rw [Real.norm_of_nonneg (by positivity), ← mul_pow]
        have e2 : t * (a - b * t) ≤ (a : ℝ) ^ 2 / b := by
          calc t * (a - b * t) ≤ x * a := mul_le_mul ht.2 (by nlinarith) h3 hx0.le
            _ = _ := by rw [hx]; field_simp
        exact mul_le_mul (Real.exp_le_exp.2 (by linarith)) (pow_le_pow_left₀ (by positivity) e2 n)
          (by positivity) (Real.exp_pos _).le)
    rw [sub_zero, abs_of_pos hx0] at h2
    calc _ ≤ _ := le_abs_self _
      _ ≤ _ := h2
      _ = _ := by ring

/-- A rational multiple of `exp (a/b)` is no closer to an integer than this. -/
theorem exp_apart (a b n q : ℕ) (r : ℤ) (ha : 0 < a) (hb : 0 < b) (hq : 0 < q)
    (hn : 2 * (q * (a / b * (Real.exp (a / b) * (a ^ 2 : ℝ) ^ n))) ≤ (n ! : ℝ)) :
    (a / b : ℝ) / 2 * (a ^ 2 / (16 * b)) ^ n ≤
      |q * Real.exp (a / b) - r| * (((a : ℝ) + b) ^ n * (2 * n)!) := by
  obtain ⟨g, z, hg, hi⟩ := integral_form a b n hb
  obtain ⟨hlo, hhi⟩ := integral_bounds a b n ha hb
  set J := ∫ t in (0 : ℝ)..(a / b : ℝ), Real.exp (a / b - t) * (t ^ n * (a - b * t) ^ n) with hJ
  have ha' : (0 : ℝ) < a := by positivity
  have hb' : (0 : ℝ) < b := by positivity
  have hq' : (1 : ℝ) ≤ q := by exact_mod_cast hq
  have hB : (0 : ℝ) < (b : ℝ) ^ n := by positivity
  have hJ0 : 0 < J := lt_of_lt_of_le (by positivity) hlo
  have hf : (0 : ℝ) < n ! := by positivity
  set θ : ℝ := q * Real.exp (a / b) - r with hθ
  -- the integer that stands between
  have key : q * J * (b : ℝ) ^ n = θ * (n ! * g) * (b : ℝ) ^ n + n ! * ((r * g * b ^ n - q * z : ℤ) : ℝ) := by
    have : q * J * (b : ℝ) ^ n = q * ((b : ℝ) ^ n * J) := by ring
    rw [this, hi, hθ]
    push_cast
    ring
  have hF : |((n ! : ℝ) * g)| ≤ ((a : ℝ) + b) ^ n * (2 * n)! := by
    have h := abs_eval_zero_le a b n
    rw [hg] at h
    exact_mod_cast h
  refine hlo.trans (le_trans ?_ (mul_le_mul_of_nonneg_left hF (abs_nonneg θ)))
  rw [← abs_mul]
  have hJq : J ≤ q * J := le_mul_of_one_le_left hJ0.le hq'
  have hsmall : 2 * (q * J * (b : ℝ) ^ n) ≤ n ! := by
    refine le_trans ?_ hn
    have : J * (b : ℝ) ^ n ≤ a / b * (Real.exp (a / b) * (a ^ 2 : ℝ) ^ n) := by
      calc J * (b : ℝ) ^ n ≤ a / b * (Real.exp (a / b) * (a ^ 2 / b) ^ n) * (b : ℝ) ^ n :=
            mul_le_mul_of_nonneg_right hhi hB.le
        _ = _ := by rw [div_pow]; field_simp
    nlinarith
  by_cases hN : (r * g * b ^ n - q * z : ℤ) = 0
  · rw [hN, Int.cast_zero, mul_zero, add_zero] at key
    have : q * J = θ * (n ! * g) := mul_right_cancel₀ hB.ne' key
    rw [← this]
    exact hJq.trans (le_abs_self _)
  · have h1 : (1 : ℝ) ≤ |((r * g * b ^ n - q * z : ℤ) : ℝ)| := by
      rw [← Int.cast_abs]
      exact_mod_cast Int.one_le_abs hN
    have h2 : (n ! : ℝ) ≤ q * J * (b : ℝ) ^ n + |θ * (n ! * g)| * (b : ℝ) ^ n := by
      calc (n ! : ℝ) ≤ n ! * |((r * g * b ^ n - q * z : ℤ) : ℝ)| := le_mul_of_one_le_right hf.le h1
        _ = |n ! * ((r * g * b ^ n - q * z : ℤ) : ℝ)| := by rw [abs_mul, abs_of_pos hf]
        _ = |q * J * (b : ℝ) ^ n - θ * (n ! * g) * (b : ℝ) ^ n| := by rw [key]; ring_nf
        _ ≤ |q * J * (b : ℝ) ^ n| + |θ * (n ! * g) * (b : ℝ) ^ n| := abs_sub _ _
        _ = _ := by rw [abs_of_pos (by positivity), abs_mul (θ * _), abs_of_pos hB]
    have h3 : q * J * (b : ℝ) ^ n ≤ |θ * (n ! * g)| * (b : ℝ) ^ n := by linarith
    exact hJq.trans (le_of_mul_le_mul_right h3 hB)

/-! ### The factor and its interval (R162) -/

/-- For a `CONTRAST` in range and a row of R163's table: `exp(4·|c|)` times a small number is not near an integer. -/
theorem factor_apart (a q : ℕ) (r : ℤ) (n : ℕ) (hn : n = 2 ^ 35) (ha : 0 < a) (ha' : a ≤ 65536) (hq : 0 < q)
    (hq' : q ≤ 511) : 1 ≤ |q * Real.exp (a / 16384) - r| * 2 ^ (107 * n + 15) := by
  have hn0 : 15 < n := by rw [hn]; norm_num
  have hx0 : (0 : ℝ) < a / 16384 := by positivity
  have hx1 : (1 : ℝ) / 16384 ≤ a / 16384 := by gcongr; exact_mod_cast ha
  have hx4 : (a : ℝ) / 16384 ≤ 4 := by
    rw [div_le_iff₀ (by norm_num)]; norm_num; exact_mod_cast ha'
  have hexp : Real.exp ((a : ℝ) / 16384) ≤ 64 := by
    calc Real.exp ((a : ℝ) / 16384) ≤ Real.exp 4 := Real.exp_le_exp.2 hx4
      _ = Real.exp 1 ^ 4 := by rw [← Real.exp_nat_mul]; norm_num
      _ ≤ 2.7182818286 ^ 4 := by gcongr; exact Real.exp_one_lt_d9.le
      _ ≤ 64 := by norm_num
  have hfac : (2 : ℝ) ^ (33 * n) ≤ n ! := by
    have h := Real.pow_div_factorial_le_exp ((2 : ℝ) ^ 34) (by positivity) n
    have he : Real.exp ((2 : ℝ) ^ 34) ≤ 2 ^ n := by
      calc Real.exp ((2 : ℝ) ^ 34) = Real.exp 1 ^ (2 ^ 34) := by rw [← Real.exp_nat_mul]; norm_num
        _ ≤ 4 ^ (2 ^ 34) := by gcongr; linarith [Real.exp_one_lt_d9]
        _ = 2 ^ n := by rw [hn, show (4 : ℝ) = 2 ^ 2 by norm_num, ← pow_mul]; rfl
    rw [div_le_iff₀ (by positivity), ← pow_mul] at h
    have h2 : (2 : ℝ) ^ n * 2 ^ (33 * n) ≤ 2 ^ n * n ! := by
      calc (2 : ℝ) ^ n * 2 ^ (33 * n) = 2 ^ (34 * n) := by rw [← pow_add]; ring_nf
        _ ≤ _ := h
        _ ≤ _ := mul_le_mul_of_nonneg_right he (by positivity)
    exact le_of_mul_le_mul_left h2 (by positivity)
  have hsmall : 2 * ((q : ℝ) * (a / (16384 : ℕ) * (Real.exp (a / (16384 : ℕ)) * ((a : ℝ) ^ 2) ^ n))) ≤ n ! := by
    have h1 : ((a : ℝ) ^ 2) ^ n ≤ 2 ^ (32 * n) := by
      rw [pow_mul]
      gcongr
      calc (a : ℝ) ^ 2 ≤ 65536 ^ 2 := by gcongr; exact_mod_cast ha'
        _ ≤ _ := by norm_num
    have h2 : (q : ℝ) ≤ 511 := by exact_mod_cast hq'
    push_cast
    calc 2 * ((q : ℝ) * (a / 16384 * (Real.exp (a / 16384) * ((a : ℝ) ^ 2) ^ n)))
        ≤ 2 * (511 * (4 * (64 * 2 ^ (32 * n)))) := by gcongr
      _ ≤ 2 ^ 18 * 2 ^ (32 * n) := by linarith [show (0 : ℝ) < 2 ^ (32 * n) by positivity]
      _ = 2 ^ (18 + 32 * n) := by rw [pow_add]
      _ ≤ 2 ^ (33 * n) := pow_le_pow_right₀ (by norm_num) (by omega)
      _ ≤ _ := hfac
  have h := exp_apart a 16384 n q r ha (by norm_num) hq hsmall
  push_cast at h
  have hlow : ((2 : ℝ) ^ (15 + 18 * n))⁻¹ ≤ a / 16384 / 2 * ((a : ℝ) ^ 2 / (16 * 16384)) ^ n := by
    have h1 : ((2 : ℝ) ^ 18)⁻¹ ≤ (a : ℝ) ^ 2 / (16 * 16384) := by
      have : (1 : ℝ) ≤ a := by exact_mod_cast ha
      have : (1 : ℝ) ≤ (a : ℝ) ^ 2 := one_le_pow₀ this
      rw [inv_eq_one_div]
      gcongr
      norm_num
    calc ((2 : ℝ) ^ (15 + 18 * n))⁻¹ = 1 / 16384 / 2 * (((2 : ℝ) ^ 18)⁻¹) ^ n := by
          rw [pow_add, pow_mul, inv_pow, mul_inv]; norm_num
      _ ≤ _ := by gcongr
  have hup : ((a : ℝ) + 16384) ^ n * (2 * n)! ≤ 2 ^ (89 * n) := by
    have h1 : ((a : ℝ) + 16384) ^ n ≤ 2 ^ (17 * n) := by
      rw [pow_mul]
      gcongr
      have : (a : ℝ) ≤ 65536 := by exact_mod_cast ha'
      linarith
    have h2 : (((2 * n)! : ℕ) : ℝ) ≤ 2 ^ (72 * n) := by
      have h3 : (2 * n)! ≤ (2 * n) ^ (2 * n) := Nat.factorial_le_pow _
      calc (((2 * n)! : ℕ) : ℝ) ≤ ((2 * n) ^ (2 * n) : ℕ) := by exact_mod_cast h3
        _ = ((2 : ℝ) ^ 36) ^ (2 * n) := by push_cast; congr 1; rw [hn]; norm_num
        _ = 2 ^ (72 * n) := by rw [← pow_mul]; ring_nf
    calc ((a : ℝ) + 16384) ^ n * (2 * n)! ≤ 2 ^ (17 * n) * 2 ^ (72 * n) := by gcongr
      _ = 2 ^ (89 * n) := by rw [← pow_add]; ring_nf
  have h4 : ((2 : ℝ) ^ (15 + 18 * n))⁻¹ ≤ |q * Real.exp (a / 16384) - r| * 2 ^ (89 * n) :=
    hlow.trans (h.trans (mul_le_mul_of_nonneg_left hup (abs_nonneg _)))
  rw [inv_le_iff_one_le_mul₀ (by positivity)] at h4
  calc (1 : ℝ) ≤ _ := h4
    _ = |q * Real.exp (a / 16384) - r| * 2 ^ (107 * n + 15) := by
      rw [mul_assoc, ← pow_add]; ring_nf

/-- What the nested exponential sum is. -/
theorem expSum_eq (a b : ℕ) (hb : 0 < b) : ∀ n (f : ℕ × ℕ), 0 < f.2 →
    ((expSum a b n f).1 : ℝ) / (expSum a b n f).2 =
      ∑ j ∈ Finset.range n, ((a : ℝ) / b) ^ j / j ! + ((a : ℝ) / b) ^ n / n ! * (f.1 / f.2) := by
  intro n
  induction n with
  | zero => intro f _; simp [expSum]
  | succ n ih =>
    intro f hf
    rw [expSum, ih _ (by positivity), Finset.sum_range_succ, add_assoc]
    congr 1
    have hb' : (b : ℝ) ≠ 0 := by positivity
    have hf' : (f.2 : ℝ) ≠ 0 := by positivity
    have hn : (n ! : ℝ) ≠ 0 := by positivity
    have hn1 : (n : ℝ) + 1 ≠ 0 := by positivity
    rw [Nat.factorial_succ]
    push_cast
    rw [pow_succ]
    field_simp

/-- The two fractions enclose `factor = exp(4·|c|)`, and how far apart they are (R162). -/
theorem factor_between (c : ℤ) (hc : c.natAbs ≤ 65536) (n : ℕ) (hn : 8 ≤ n) :
    0 < (factorLow c n).2 ∧ 0 < (factorHigh c n).2 ∧
      ((factorLow c n).1 : ℝ) / (factorLow c n).2 ≤ Real.exp (c.natAbs / 16384) ∧
      Real.exp (c.natAbs / 16384) ≤ ((factorHigh c n).1 : ℝ) / (factorHigh c n).2 ∧
      1 ≤ ((factorLow c n).1 : ℝ) / (factorLow c n).2 ∧
      ((factorHigh c n).1 : ℝ) / (factorHigh c n).2 =
        (factorLow c n).1 / (factorLow c n).2 + (c.natAbs / 16384 : ℝ) ^ n / n ! := by
  have hp : (0 : ℕ) < 16384 := by norm_num
  have hlo := expSum_eq c.natAbs 16384 hp n (1, 1) one_pos
  have hhi := expSum_eq c.natAbs 16384 hp n (2, 1) one_pos
  simp only [Nat.cast_one, Nat.cast_ofNat, div_one] at hlo hhi
  have hx0 : (0 : ℝ) ≤ c.natAbs / 16384 := by positivity
  have hx4 : (c.natAbs : ℝ) / 16384 ≤ 4 := by
    have : (c.natAbs : ℝ) ≤ (65536 : ℕ) := Nat.cast_le.2 hc
    rw [div_le_iff₀ (by norm_num)]
    norm_num at this ⊢
    exact this
  set x : ℝ := c.natAbs / 16384 with hx
  refine ⟨expSum_pos _ _ hp _ _ one_pos, expSum_pos _ _ hp _ _ one_pos, ?_, ?_, ?_, ?_⟩
  · rw [factorLow, hlo, mul_one, ← Finset.sum_range_succ (fun j => x ^ j / (j ! : ℝ))]
    exact Real.sum_le_exp_of_nonneg hx0 _
  · rw [factorHigh, hhi]
    have h := Complex.exp_bound' (x := (x : ℂ)) (n := n) (by
      rw [Complex.norm_real, Real.norm_of_nonneg hx0, div_le_iff₀ (by positivity)]
      have : (8 : ℝ) ≤ n := by exact_mod_cast hn
      push_cast
      linarith)
    have e : Complex.exp x - ∑ m ∈ Finset.range n, (x : ℂ) ^ m / (m ! : ℂ) =
        ((Real.exp x - ∑ m ∈ Finset.range n, x ^ m / (m ! : ℝ) : ℝ) : ℂ) := by push_cast; rfl
    rw [e, Complex.norm_real, Complex.norm_real, Real.norm_of_nonneg hx0, Real.norm_eq_abs] at h
    linarith [(le_abs_self _).trans h]
  · rw [factorLow, hlo, mul_one, ← Finset.sum_range_succ (fun j => x ^ j / (j ! : ℝ))]
    have h1 := Finset.single_le_sum (f := fun j => x ^ j / (j ! : ℝ)) (s := Finset.range (n + 1))
      (fun j _ => by positivity) (Finset.mem_range.2 (Nat.succ_pos n))
    simpa using h1
  · rw [factorHigh, factorLow, hlo, hhi]
    ring

/-! ### Rounding (R163) -/

/-- `rhu` is the floor of the real quotient plus one half (R17). -/
theorem rhu_eq_floor (p q : ℕ) (hq : 0 < q) : ((rhu p q : ℕ) : ℤ) = ⌊(p : ℝ) / q + 1 / 2⌋ := by
  have h := (rhu_eq_iff p q (rhu p q) hq).1 rfl
  have hq' : (0 : ℝ) < q := by exact_mod_cast hq
  have h1 : (2 * rhu p q * q : ℝ) ≤ 2 * p + q := by exact_mod_cast h.1
  have h2 : (2 * p + q : ℝ) < 2 * (rhu p q + 1) * q := by exact_mod_cast h.2
  symm
  rw [Int.floor_eq_iff]
  have e : (p : ℝ) / q + 1 / 2 = (2 * p + q) / (2 * q) := by field_simp
  rw [e, le_div_iff₀ (by positivity), div_lt_iff₀ (by positivity)]
  push_cast
  constructor <;> linarith

/-- The entry of R163 for a factor `f`, before the clamp, in the reals. -/
noncomputable def scaled (c : ℤ) (i : ℕ) (f : ℝ) : ℤ := if 0 < c then ⌊i * f + 1 / 2⌋ else ⌊i / f + 1 / 2⌋

/-- What the integer rounding of an entry computes. -/
theorem scaledBy_eq (f : ℕ × ℕ) (h1 : 0 < f.1) (h2 : 0 < f.2) (c : ℤ) (i : ℕ) :
    ((scaledBy f c i : ℕ) : ℤ) = scaled c i (f.1 / f.2) := by
  unfold scaledBy scaled
  split
  · rw [rhu_eq_floor _ _ h2]; push_cast; rw [mul_div_assoc]
  · rw [rhu_eq_floor _ _ h1]; push_cast; rw [div_div_eq_mul_div]

/-- Between two factors that round an entry to one number, every factor does. -/
theorem scaled_between (c : ℤ) (i : ℕ) (l f h : ℝ) (hl : 0 < l) (h1 : l ≤ f) (h2 : f ≤ h)
    (he : scaled c i l = scaled c i h) : scaled c i f = scaled c i l := by
  have hi : (0 : ℝ) ≤ i := by positivity
  unfold scaled at *
  split at he
  · rename_i hc
    rw [if_pos hc, if_pos hc]
    refine le_antisymm ?_ (Int.floor_mono (by nlinarith))
    rw [he]
    exact Int.floor_mono (by nlinarith)
  · rename_i hc
    rw [if_neg hc, if_neg hc]
    refine le_antisymm (Int.floor_mono ?_) ?_
    · gcongr
    · rw [he]
      refine Int.floor_mono ?_
      have : 0 < f := by linarith
      gcongr


/-- After `2^37` terms the interval is narrower than the distance of any rounding boundary. -/
theorem factor_gap (a n : ℕ) (hn : n = 2 ^ 35) (ha : a ≤ 65536) :
    511 * ((a / 16384 : ℝ) ^ (4 * n) / (4 * n)!) * 2 ^ (107 * n + 15) < 1 := by
  have hn0 : 15 < n := by rw [hn]; norm_num
  have hx0 : (0 : ℝ) ≤ a / 16384 := by positivity
  have hx4 : (a : ℝ) / 16384 ≤ 4 := by
    rw [div_le_iff₀ (by norm_num)]; norm_num; exact_mod_cast ha
  have h := Real.pow_div_factorial_le_exp ((2 : ℝ) ^ 34) (by positivity) (4 * n)
  have he : Real.exp ((2 : ℝ) ^ 34) ≤ 2 ^ n := by
    calc Real.exp ((2 : ℝ) ^ 34) = Real.exp 1 ^ (2 ^ 34) := by rw [← Real.exp_nat_mul]; norm_num
      _ ≤ 4 ^ (2 ^ 34) := by gcongr; linarith [Real.exp_one_lt_d9]
      _ = 2 ^ n := by rw [hn, show (4 : ℝ) = 2 ^ 2 by norm_num, ← pow_mul]; rfl
  have h1 : (a / 16384 : ℝ) ^ (4 * n) / (4 * n)! * 2 ^ (128 * n) ≤ 2 ^ n := by
    calc (a / 16384 : ℝ) ^ (4 * n) / (4 * n)! * 2 ^ (128 * n)
        ≤ 4 ^ (4 * n) / (4 * n)! * 2 ^ (128 * n) := by gcongr
      _ = ((2 : ℝ) ^ 34) ^ (4 * n) / (4 * n)! := by
        rw [div_mul_eq_mul_div, show (4 : ℝ) = 2 ^ 2 by norm_num, ← pow_mul, ← pow_mul, ← pow_add]
        ring_nf
      _ ≤ _ := h.trans he
  have h2 : (511 : ℝ) * 2 ^ (n + (107 * n + 15)) < 2 ^ (128 * n) := by
    calc (511 : ℝ) * 2 ^ (n + (107 * n + 15)) < 2 ^ 9 * 2 ^ (n + (107 * n + 15)) := by gcongr; norm_num
      _ = 2 ^ (9 + (n + (107 * n + 15))) := by rw [pow_add 2 9]
      _ ≤ _ := pow_le_pow_right₀ (by norm_num) (by omega)
  have hp : (0 : ℝ) < 2 ^ (128 * n) := by positivity
  have hq : (0 : ℝ) < 511 * 2 ^ (107 * n + 15) := by positivity
  have h3 := mul_le_mul_of_nonneg_left h1 hq.le
  rw [pow_add 2 n] at h2
  nlinarith

/-- After `2^37` terms the rounding of every entry is decided (R163). -/
theorem scaled_decided (c : ℤ) (hc0 : c ≠ 0) (hc : c.natAbs ≤ 65536) (i n : ℕ) (hi : i < 256) (hn : n = 2 ^ 35) :
    scaled c i ((factorLow c (4 * n)).1 / (factorLow c (4 * n)).2) =
      scaled c i ((factorHigh c (4 * n)).1 / (factorHigh c (4 * n)).2) := by
  have hn8 : 8 ≤ 4 * n := by rw [hn]; norm_num
  obtain ⟨-, -, hlo, hhi, h1, hgap⟩ := factor_between c hc (4 * n) hn8
  have ha : 0 < c.natAbs := Int.natAbs_pos.2 hc0
  have hg := factor_gap c.natAbs n hn hc
  have apart := fun q r => factor_apart c.natAbs q r n hn ha hc
  set l : ℝ := (factorLow c (4 * n)).1 / (factorLow c (4 * n)).2
  set h : ℝ := (factorHigh c (4 * n)).1 / (factorHigh c (4 * n)).2
  set E : ℝ := Real.exp (c.natAbs / 16384)
  set d : ℝ := (c.natAbs / 16384 : ℝ) ^ (4 * n) / (4 * n)!
  have hp : (0 : ℝ) < 2 ^ (107 * n + 15) := by positivity
  have hi' : (i : ℝ) ≤ 255 := by exact_mod_cast Nat.lt_succ_iff.1 hi
  -- a multiple of the factor this near to an integer is too near
  have far : ∀ (q : ℕ) (r : ℤ), 0 < q → q ≤ 511 → (q : ℝ) * l ≤ r → (r : ℝ) ≤ q * h → False := by
    intro q r hq hq' h2 h3
    have hq1 : (q : ℝ) ≤ 511 := by exact_mod_cast hq'
    have hq0 : (0 : ℝ) ≤ q := by positivity
    have h4 : |q * E - r| ≤ 511 * d := by
      have hd : 0 ≤ d := by linarith
      rw [abs_le]
      constructor <;> nlinarith
    have := mul_le_mul_of_nonneg_right h4 hp.le
    linarith [apart q r hq hq']
  by_contra hne
  unfold scaled at hne
  have hl0 : 0 < l := by linarith
  have hh0 : 0 < h := by linarith
  split at hne
  · have hlt : ⌊i * l + 1 / 2⌋ < ⌊i * h + 1 / 2⌋ := lt_of_le_of_ne (Int.floor_mono (by gcongr; linarith)) hne
    have h2 := Int.floor_lt.1 hlt
    have h3 := Int.floor_le (i * h + 1 / 2 : ℝ)
    set m := ⌊i * h + 1 / 2⌋
    have hi0 : 0 < i := by
      rcases Nat.eq_zero_or_pos i with rfl | h0
      · simp only [Nat.cast_zero, zero_mul] at h2 h3
        linarith
      · exact h0
    refine far (2 * i) (2 * m - 1) (by omega) (by omega) ?_ ?_ <;> push_cast <;> linarith
  · have hlt : ⌊i / h + 1 / 2⌋ < ⌊i / l + 1 / 2⌋ :=
      lt_of_le_of_ne (Int.floor_mono (by gcongr; linarith)) (Ne.symm hne)
    have h2 := Int.floor_lt.1 hlt
    have h3 := Int.floor_le (i / l + 1 / 2 : ℝ)
    set m := ⌊i / l + 1 / 2⌋
    have h4 : (0 : ℝ) ≤ i / h := by positivity
    have hm : (0 : ℝ) < m := by linarith
    have hm1 : 0 < m := by exact_mod_cast hm
    have h5 : (i : ℝ) / l ≤ 255 := (div_le_self (by positivity) h1).trans hi'
    have hm2 : (m : ℝ) < 256 := by linarith
    have hm3 : m < 256 := by exact_mod_cast hm2
    have e : (((2 * m - 1).toNat : ℕ) : ℝ) = 2 * m - 1 := by
      have : (((2 * m - 1).toNat : ℕ) : ℤ) = 2 * m - 1 := Int.toNat_of_nonneg (by omega)
      exact_mod_cast congrArg (Int.cast : ℤ → ℝ) this
    have h6 : (m - 1 / 2 : ℝ) * l ≤ i := by rw [← le_div_iff₀ hl0]; linarith
    have h7 : (i : ℝ) < (m - 1 / 2) * h := by rw [← div_lt_iff₀ hh0]; linarith
    refine far (2 * m - 1).toNat (2 * i) (by omega) (by omega) ?_ ?_ <;> rw [e] <;> push_cast <;> linarith

/-- The refinement ends with the exactly rounded entry (R163, M6). -/
theorem scaledExactly_eq (c : ℤ) (hc0 : c ≠ 0) (hc : c.natAbs ≤ 65536) (i : ℕ) (hi : i < 256) :
    ∀ fuel n, 8 ≤ n → n * 2 ^ fuel = 2 ^ 37 →
      ((scaledExactly c i fuel n : ℕ) : ℤ) = scaled c i (Real.exp (c.natAbs / 16384)) := by
  have num : ∀ n, 8 ≤ n → 0 < (factorLow c n).1 ∧ 0 < (factorHigh c n).1 := by
    intro n hn
    obtain ⟨-, -, -, -, h1, h2⟩ := factor_between c hc n hn
    have h3 : (0 : ℝ) ≤ (c.natAbs / 16384 : ℝ) ^ n / n ! := by positivity
    constructor <;> (rw [Nat.pos_iff_ne_zero]; intro h0; simp only [h0, Nat.cast_zero, zero_div] at h1 h2; linarith)
  have decided : ∀ n, 8 ≤ n →
      scaled c i ((factorLow c n).1 / (factorLow c n).2) = scaled c i ((factorHigh c n).1 / (factorHigh c n).2) →
      ((scaledBy (factorLow c n) c i : ℕ) : ℤ) = scaled c i (Real.exp (c.natAbs / 16384)) := by
    intro n hn he
    obtain ⟨h1, -, h3, h4, h5, -⟩ := factor_between c hc n hn
    rw [scaledBy_eq _ (num n hn).1 h1, scaled_between c i _ _ _ (by linarith) h3 h4 he]
  intro fuel
  induction fuel with
  | zero =>
    intro n hn h37
    have e : n = 4 * 2 ^ 35 := by omega
    exact decided n hn (by rw [e]; exact scaled_decided c hc0 hc i _ hi rfl)
  | succ fuel ih =>
    intro n hn h37
    rw [scaledExactly]
    split
    · rename_i he
      obtain ⟨h1, h2, -⟩ := factor_between c hc n hn
      refine decided n hn ?_
      rw [← scaledBy_eq _ (num n hn).1 h1, ← scaledBy_eq _ (num n hn).2 h2, he]
    · exact ih (2 * n) (by omega) (by rw [← h37, pow_succ]; ring)

/-- The sigmoid table is that of R163 in exact real arithmetic, with `factor = exp(|CONTRAST|/16384)`. -/
theorem sigmoidEntry_eq (c : ℤ) (hc : c.natAbs ≤ 65536) (i : ℕ) (hi : i < 256) :
    ((sigmoidEntry c i : ℕ) : ℤ) =
      if c = 0 then (i : ℤ) else min 255 (scaled c i (Real.exp (c.natAbs / 16384))) := by
  unfold sigmoidEntry
  split
  · rfl
  · rename_i hc0
    rw [← scaledExactly_eq c hc0 hc i hi 32 32 (by norm_num) (by norm_num)]
    simp [clamp255]

end Sys2Proof.Machine
end

