-- ==== Sys2Proof/Laws/Host.lean ====
section
/-! SUPPORT. What the host's steps can do (spec/10_state.md R20 to R46, spec/70_reset_and_hazards.md R200 to
R206). -/

namespace Sys2Proof.Machine

open Sys2Proof

/-! ### The register map -/

/-- What the port accepts: word-aligned offsets of the window (R20). -/
theorem portOffset_iff (off : Nat) : portOffset off = true ↔ off < 4096 ∧ off % 4 = 0 := by
  simp [portOffset]

/-- The offset of a register names that register. -/
theorem regAt_regOffset (r : RegName) : regAt (regOffset r) = some r := by
  cases r with
  | HIST i =>
    have ho : regOffset (.HIST i) = 0x400 + 4 * i.val := rfl
    generalize regOffset (.HIST i) = off at ho
    have hi := i.isLt
    unfold regAt
    rw [if_neg (by omega), if_neg (by omega), if_pos (by omega)]
    congr 2
    apply Fin.ext
    simp only [Fin.ofNat]
    omega
  | LUT i =>
    have ho : regOffset (.LUT i) = 0x800 + 4 * i.val := rfl
    generalize regOffset (.LUT i) = off at ho
    have hi := i.isLt
    unfold regAt
    rw [if_neg (by omega), if_neg (by omega), if_neg (by omega), if_pos (by omega)]
    congr 2
    apply Fin.ext
    simp only [Fin.ofNat]
    omega
  | _ => rfl

/-- The offset of a register is one the port accepts. -/
theorem portOffset_regOffset (r : RegName) : portOffset (regOffset r) = true := by
  rw [portOffset_iff]
  cases r with
  | HIST i => have hi := i.isLt; simp only [regOffset]; omega
  | LUT i => have hi := i.isLt; simp only [regOffset]; omega
  | _ => decide

/-- A register stands at one offset only. -/
theorem regAt_eq_some (off : Nat) (h : portOffset off = true) (r : RegName) (hr : regAt off = some r) :
    off = regOffset r := by
  rw [portOffset_iff] at h
  unfold regAt at hr
  split at hr
  · obtain ⟨k, rfl⟩ : ∃ k, off = 4 * k := ⟨off / 4, by omega⟩
    rw [Nat.mul_div_cancel_left k (by omega)] at hr
    have hk : k < 12 := by omega
    interval_cases k <;> simp at hr <;> subst hr <;> rfl
  · split at hr
    · cases hr
    · split at hr
      · injection hr with hr
        subst hr
        simp only [regOffset, Fin.ofNat]
        omega
      · split at hr
        · injection hr with hr
          subst hr
          simp only [regOffset, Fin.ofNat]
          omega
        · cases hr

/-! ### Starting a command (R32, R176) -/

/-- A rejected command: the word is stored, the previous report cleared, the error reported. -/
theorem startCommand_rejected (s : State) (v : Word) (e : InvalidInput) (h : s.validate v = some e) :
    s.startCommand v = (s.present v).raiseInvalidInput e := by
  simp [State.startCommand, h]

/-- An accepted command is pending. -/
theorem startCommand_accepted (s : State) (v : Word) (h : s.validate v = none) :
    s.startCommand v = s.issue v := by
  simp [State.startCommand, h]

/-- A word that passes `validate` is the word of an operation (R178). -/
theorem decode_of_validate (s : State) (v : Word) (h : s.validate v = none) :
    ∃ i, decode v = .ok i ∧ s.validateInstr i = none := by
  unfold State.validate at h
  split at h
  · cases h
  · exact ⟨_, ‹_›, h⟩

/-- What an accepted operation's regions satisfy (R54, R55, R178). -/
theorem regions_of_validateInstr (s : State) (i : Instr) (h : s.validateInstr i = none) :
    s.failsDim = false ∧ s.failsAlign (writesDst i) = false ∧ s.failsRange (writesDst i) = false ∧
      s.failsOverlap i = false ∧ s.ownParameterError i = none := by
  unfold State.validateInstr at h
  split at h
  · cases h
  split at h
  · cases h
  split at h
  · cases h
  split at h
  · cases h
  simp_all

/-- The regions of an accepted operation lie inside the memory space (R55). -/
theorem addressable_of_validateInstr (s : State) (i : Instr) (h : s.validateInstr i = none) :
    addressable s.srcAddr s.regionLen = true ∧
      (writesDst i = true → addressable s.dstAddr s.regionLen = true) := by
  have hr := (regions_of_validateInstr s i h).2.2.1
  unfold State.failsRange at hr
  rw [Bool.or_eq_false_iff] at hr
  refine ⟨by simpa using hr.1, fun hw => ?_⟩
  simpa [hw] using hr.2

/-- Everything an idle register write does, register by register: the parameter registers take their bits,
CMD starts a command, HIST is read-only. -/
theorem writeReg_cases (s : State) (r : Option RegName) (v : Word) :
    (r = some .STATUS ∧ s.writeReg r v = s.writeStatus v) ∨
      (r = some .IEN ∧ s.writeReg r v = s.writeIen v) ∨
      (s.status.busy = true ∧ r ≠ some .STATUS ∧ r ≠ some .IEN ∧ s.writeReg r v = s.dropWrite) ∨
      (s.status.busy = false ∧ r = none ∧ s.writeReg r v = s) ∨
      (s.status.busy = false ∧ ∃ q, r = some q ∧ q ≠ .STATUS ∧ q ≠ .IEN ∧
        s.writeReg r v = s.writeIdle q v) := by
  cases hb : s.status.busy <;> cases r with
  | none => simp [State.writeReg, hb]
  | some q => cases q <;> simp [State.writeReg, hb]

/-! ### Memory accesses of the host and of `rst` keep the canonical form -/

/-- What becoming unspecified does to one byte: a free value where no newer completion wrote it (R206, R212). -/
theorem unsettle_read (s : State) (newer : List Claim) (c : Claim) (hm : s.mem.wf = true)
    (hc : c.hasDst = true → c.dst + c.len ≤ addressSpace) (j : Nat) :
    (s.unsettle newer c).mem.read j =
      if c.ownsDst j && !newer.any (·.ownsDst j) then Config.freeByte (s.free + (j - c.dst)) else s.mem.read j := by
  by_cases hd : c.hasDst = true
  · simp only [State.unsettle, hd, if_true]
    by_cases hj : c.dst ≤ j ∧ j < c.dst + c.len
    · obtain ⟨k, rfl⟩ := Nat.exists_eq_add_of_le hj.1
      have hk : k < c.len := by omega
      rw [Memory.read_writeBytes_same _ _ _ k (by simpa using hk) hm (by simpa using hc hd)]
      cases hn : newer.any (·.ownsDst (c.dst + k)) <;>
        simp only [List.getElem_map, List.getElem_range, State.unsettledByte, hn] <;>
        simp [Claim.ownsDst, hd, hk]
    · rw [Memory.read_writeBytes_other _ _ _ _ (by rw [List.length_map, List.length_range]; omega)]
      have : c.ownsDst j = false := by
        simp only [Claim.ownsDst, hd, Bool.true_and, Bool.and_eq_false_iff, decide_eq_false_iff_not]
        omega
      simp [this]
  · simp [State.unsettle, Claim.ownsDst, hd]

theorem unsettle_wf (s : State) (newer : List Claim) (c : Claim) (hm : s.mem.wf = true)
    (hc : c.hasDst = true → c.dst + c.len ≤ addressSpace) : (s.unsettle newer c).mem.wf = true := by
  by_cases hd : c.hasDst = true
  · simp only [State.unsettle, hd, if_true]
    exact Memory.writeBytes_wf _ _ _ hm (by simpa using hc hd)
  · simpa [State.unsettle, hd] using hm

/-- Completions become unspecified in memory, HIST and LUT only. -/
theorem unsettleTouched_eq (a n : Nat) :
    ∀ cs s, ∃ m h l f, unsettleTouched a n cs s = { s with mem := m, hist := h, lut := l, free := f } := by
  intro cs
  induction cs with
  | nil => exact fun s => ⟨_, _, _, _, rfl⟩
  | cons c cs ih =>
    intro s
    rw [unsettleTouched]
    split
    · obtain ⟨m, h, l, f, e⟩ := ih (s.unsettle cs c)
      exact ⟨m, h, l, f, e⟩
    · exact ih s

/-- A write that meets no source region leaves every completion as it is. -/
theorem unsettleTouched_of_untouched (a n : Nat) (cs : List Claim) (s : State)
    (h : ∀ c ∈ cs, c.touchesSrc a n = false) : unsettleTouched a n cs s = s := by
  induction cs with
  | nil => rfl
  | cons c cs ih =>
    rw [unsettleTouched, h c List.mem_cons_self, if_neg Bool.false_ne_true]
    exact ih fun d hd => h d (List.mem_cons_of_mem c hd)

/-- The newest of `c :: cs` that `p` accepts. -/
theorem newest_cons (p : Claim → Bool) (c : Claim) (cs : List Claim) :
    (c :: cs).reverse.find? p = (cs.reverse.find? p).or (if p c then some c else none) := by
  rw [List.reverse_cons, List.find?_append]
  congr 1
  cases h : p c <;> simp [List.find?, h]

/-- No claim of a list is accepted where none is the newest. -/
theorem any_of_newest (p : Claim → Bool) (cs : List Claim) :
    cs.any p = (cs.reverse.find? p).isSome := by
  rw [List.isSome_find?, List.any_reverse]

/-- Everything a host write does to the result of the completions (R206, R212): a byte becomes a free value
exactly where the source of the newest one that wrote it is met, and a file may change only where the source of
the newest one that wrote it is. -/
theorem unsettleTouched_spec (a n : Nat) :
    ∀ cs s, s.mem.wf = true → (∀ c ∈ cs, c.hasDst = true → c.dst + c.len ≤ addressSpace) →
      (unsettleTouched a n cs s).mem.wf = true ∧
      (∀ j c, cs.reverse.find? (·.ownsDst j) = some c → c.touchesSrc a n = true →
        ∃ k, (unsettleTouched a n cs s).mem.read j = Config.freeByte k) ∧
      (∀ j, (∀ c, cs.reverse.find? (·.ownsDst j) = some c → c.touchesSrc a n = false) →
        (unsettleTouched a n cs s).mem.read j = s.mem.read j) ∧
      ((∀ c, cs.reverse.find? (·.writesHist) = some c → c.touchesSrc a n = false) →
        (unsettleTouched a n cs s).hist = s.hist) ∧
      ((∀ c, cs.reverse.find? (·.writesLut) = some c → c.touchesSrc a n = false) →
        (unsettleTouched a n cs s).lut = s.lut) := by
  intro cs
  induction cs with
  | nil => exact fun s hm _ => ⟨hm, by simp, fun _ _ => rfl, fun _ => rfl, fun _ => rfl⟩
  | cons c cs ih =>
    intro s hm hr
    have hc := hr c List.mem_cons_self
    have hr' := fun d (hd : d ∈ cs) => hr d (List.mem_cons_of_mem c hd)
    cases ht : c.touchesSrc a n with
    | false =>
      obtain ⟨h1, h2, h3, h4, h5⟩ := ih s hm hr'
      simp only [unsettleTouched, ht, Bool.false_eq_true, if_false, newest_cons]
      refine ⟨h1, fun j d hd htd => ?_, fun j hj => h3 j fun d hd => hj d (by rw [hd]; rfl),
        fun hh => h4 fun d hd => hh d (by rw [hd]; rfl), fun hl => h5 fun d hd => hl d (by rw [hd]; rfl)⟩
      cases hf : cs.reverse.find? (·.ownsDst j) with
      | some e =>
        rw [hf] at hd
        injection hd with hd
        exact h2 j d (by rw [hf, hd]) htd
      | none =>
        rw [hf, Option.none_or] at hd
        split at hd
        · injection hd with hd
          rw [← hd, ht] at htd
          cases htd
        · cases hd
    | true =>
      obtain ⟨h1, h2, h3, h4, h5⟩ := ih (s.unsettle cs c) (unsettle_wf s cs c hm hc) hr'
      simp only [unsettleTouched, ht, if_true, newest_cons]
      refine ⟨h1, fun j d hd htd => ?_, fun j hj => ?_, fun hh => ?_, fun hl => ?_⟩
      · cases hf : cs.reverse.find? (·.ownsDst j) with
        | some e =>
          rw [hf] at hd
          injection hd with hd
          exact h2 j d (by rw [hf, hd]) htd
        | none =>
          rw [hf, Option.none_or] at hd
          split at hd
          · rename_i ho
            rw [h3 j (by simp [hf]), unsettle_read s cs c hm hc, any_of_newest, hf, ho]
            exact ⟨_, rfl⟩
          · cases hd
      · rw [h3 j fun d hd => hj d (by rw [hd]; rfl), unsettle_read s cs c hm hc, any_of_newest]
        cases hf : cs.reverse.find? (·.ownsDst j) with
        | some e => simp
        | none =>
          cases ho : c.ownsDst j with
          | false => simp
          | true => exact absurd (hj c (by simp [hf, ho])) (by simp [ht])
      · rw [h4 fun d hd => hh d (by rw [hd]; rfl)]
        simp only [State.unsettle, any_of_newest]
        cases hf : cs.reverse.find? (·.writesHist) with
        | some e => simp
        | none =>
          cases ho : c.writesHist with
          | false => simp
          | true => exact absurd (hh c (by simp [hf, ho])) (by simp [ht])
      · rw [h5 fun d hd => hl d (by rw [hd]; rfl)]
        simp only [State.unsettle, any_of_newest]
        cases hf : cs.reverse.find? (·.writesLut) with
        | some e => simp
        | none =>
          cases ho : c.writesLut with
          | false => simp
          | true => exact absurd (hl c (by simp [hf, ho])) (by simp [ht])

/-- Where every completion is observed, the host's bytes are stored as they are. -/
theorem storeBytes_mem_of_unowned (s : State) (a : Nat) (bs : List Byte)
    (h : ∀ k, k < bs.length → s.completed.any (·.ownsDst (a + k)) = false) :
    (s.storeBytes a bs).mem = s.mem.writeBytes a bs := by
  simp only [State.storeBytes]
  congr 1
  refine List.ext_getElem (by simp) fun k h1 h2 => ?_
  rw [List.getElem_mapIdx, State.mixedByte, h k h2, Bool.false_and, if_neg Bool.false_ne_true]

/-- A host write that meets no source region of a completion not yet observed is stored and recorded, and does
nothing else (R50, R206). -/
theorem hostWrite_of_untouched (s : State) (a : Nat) (bs : List Byte)
    (h : ∀ c ∈ s.completed, c.touchesSrc a bs.length = false) : s.hostWrite a bs = s.storeBytes a bs :=
  unsettleTouched_of_untouched _ _ _ _ h

theorem storeBytes_wf (s : State) (hm : s.mem.wf = true) (a : Nat) (bs : List Byte)
    (ha : addressable a bs.length = true) : (s.storeBytes a bs).mem.wf = true :=
  Memory.writeBytes_wf _ _ _ hm (by simpa using ha)

/-- An unobserved completion is the last command's or an earlier one's. -/
theorem mem_completed (s : State) (c : Claim) (h : c ∈ s.completed) : s.claim = some c ∨ c ∈ s.earlier := by
  simp only [State.completed, List.mem_append] at h
  rcases h with h | h
  · exact .inr h
  · split at h
    · cases h
    · exact .inl (by simpa using h)

theorem hostWrite_wf (s : State) (hm : s.mem.wf = true)
    (hc : ∀ c, s.claim = some c ∨ c ∈ s.earlier → c.hasDst = true → c.dst + c.len ≤ addressSpace)
    (a : Nat) (bs : List Byte) (ha : addressable a bs.length = true) : (s.hostWrite a bs).mem.wf = true :=
  (unsettleTouched_spec _ _ _ _ (storeBytes_wf s hm a bs ha)
    fun c h => hc c (mem_completed s c h)).1

/-- A host write fixes at most the operands of the pending operation (R61). -/
theorem holdOperands_eq (s : State) (a n : Nat) (d : Claim) :
    ∃ o, s.holdOperands a n d = { d with seen := o } := by
  unfold State.holdOperands
  split
  · exact ⟨_, rfl⟩
  · exact ⟨d.seen, rfl⟩

/-- A host write that meets no source region of a completion not yet observed fixes no operands. -/
theorem holdOperands_of_untouched (s : State) (a n : Nat) (d : Claim)
    (h : ∀ c ∈ s.completed, c.touchesSrc a n = false) : s.holdOperands a n d = d := by
  unfold State.holdOperands
  rw [if_neg]
  rw [List.any_eq_true]
  rintro ⟨c, hc, ht⟩
  rw [h c hc, Bool.false_and] at ht
  cases ht

/-- The fields a host write may change (R50, R206). -/
theorem hostWrite_eq (s : State) (a : Nat) (bs : List Byte) :
    ∃ m h l f, s.hostWrite a bs =
      { s with mem := m, hist := h, lut := l, claim := s.claimAfterWrite a bs.length, free := f } := by
  obtain ⟨m, h, l, f, e⟩ := unsettleTouched_eq a bs.length s.completed (s.storeBytes a bs)
  exact ⟨m, h, l, f, e⟩

/-- A byte no unobserved completion owns is read as the pending operation leaves it (R206). -/
theorem lateByte_of_unowned (a n : Nat) (b : Byte) (cs : List Claim) (h : ∀ c ∈ cs, c.ownsDst a = false) :
    ∀ i, lateByte a n i b cs = b := by
  induction cs with
  | nil => exact fun _ => rfl
  | cons c cs ih =>
    intro i
    simp only [lateByte, h c List.mem_cons_self, Bool.false_and, Bool.false_eq_true, if_false]
    exact ih (fun d hd => h d (List.mem_cons_of_mem c hd)) _

/-- What the host may read where completions are not yet observed: the present byte, or the byte from before one
of them that owns it (R206). -/
theorem lateByte_cases (a n : Nat) (cs : List Claim) :
    ∀ i b, lateByte a n i b cs = b ∨ ∃ c ∈ cs, c.ownsDst a = true ∧ lateByte a n i b cs = c.before.read a := by
  induction cs with
  | nil => exact fun _ _ => .inl rfl
  | cons c cs ih =>
    intro i b
    simp only [lateByte]
    rcases ih (i + n) (if c.ownsDst a && Config.freeChoice i then c.before.read a else b) with h | ⟨d, hd, ho, h⟩
    · by_cases hc : (c.ownsDst a && Config.freeChoice i) = true
      · rw [if_pos hc] at h ⊢
        exact .inr ⟨c, List.mem_cons_self, (Bool.and_eq_true_iff.1 hc).1, h⟩
      · rw [if_neg hc] at h ⊢
        exact .inl h
    · exact .inr ⟨d, List.mem_cons_of_mem c hd, ho, h⟩

/-- The bytes a pending operation would write fill its destination region. -/
theorem pendingBytes_length (s : State) : s.pendingBytes.length = 0 ∨
    ∃ i, decode s.cmd = .ok i ∧ writesDst i = true ∧ s.pendingBytes.length = s.regionLen := by
  unfold State.pendingBytes
  split
  · rename_i i hi
    split
    · rename_i img himg
      refine .inr ⟨i, hi, ?_, effectOf_dst_bytes_length i s img himg⟩
      rw [← effectOf_dst_isSome i s, himg]
      rfl
    · exact .inl rfl
  · exact .inl rfl

theorem memAfterReset_wf (s : State) (hm : s.mem.wf = true)
    (hp : s.status.busy = true → s.validate s.cmd = none) : s.memAfterReset.wf = true := by
  unfold State.memAfterReset
  split
  · rename_i hb
    rcases pendingBytes_length s with h0 | ⟨i, hi, hw, hl⟩
    · rw [List.length_eq_zero_iff.1 h0]; exact hm
    · obtain ⟨j, hj, hv⟩ := decode_of_validate s s.cmd (hp hb)
      obtain rfl : i = j := by rw [hi] at hj; injection hj
      have ha := (addressable_of_validateInstr s i hv).2 hw
      exact Memory.writeBytes_wf _ _ _ hm (by simpa [hl] using ha)
  · exact hm

end Sys2Proof.Machine
end

