-- ==== Sys2Proof/Laws/PerInstr.lean ====
section
/-! SUPPORT. Facts about each operation as syntax, one lemma per constructor of `Instr`. -/

namespace Sys2Proof.Laws.TextRoundTrip

open Sys2Proof

/-- The canonical text of an operation, its mnemonic and its flags (R82), assembles to the operation. -/
def Statement (i : Instr) : Prop := assemble i.mnemonic i.flags = some i

theorem sobel (border : Border) : Statement (.sobel border) := by cases border <;> rfl
theorem prewitt (border : Border) : Statement (.prewitt border) := by cases border <;> rfl
theorem laplacian (border : Border) : Statement (.laplacian border) := by cases border <;> rfl
theorem canny (border : Border) (alpha : NoneAlpha) : Statement (.canny border alpha) := by
  cases border <;> cases alpha <;> rfl
theorem clahe (degen : Degen) : Statement (.clahe degen) := by cases degen <;> rfl
theorem equalize (degen : Degen) : Statement (.equalize degen) := by cases degen <;> rfl
theorem hist : Statement .hist := rfl
theorem gamma (exponent : GammaExp) : Statement (.gamma exponent) := by cases exponent <;> rfl
theorem sigmoid : Statement .sigmoid := rfl
theorem lutapply : Statement .lutapply := rfl

end Sys2Proof.Laws.TextRoundTrip
end

