-- ==== Sys2Proof/Laws/Step.lean ====
section
/-! SUPPORT. What one step can do (spec/10_state.md R20, R42, R44), what `validate` looks at
(spec/60_exceptions.md R178), and the legal flags (spec/10_state.md R33). -/

namespace Sys2Proof.Machine

open Sys2Proof

/-- Everything a step can be: nothing at all, the pending operation, or the host's next action. -/
theorem step_cases (s : State) :
    (s.inputs = [] ∧ s.status.busy = false ∧ step s = .next s) ∨
      (s.status.busy = true ∧ s.inputs = [] ∧ step s = runPending s) ∨
      (s.status.busy = true ∧ ∃ rest, s.inputs = .engine :: rest ∧
        step s = runPending { s with inputs := rest }) ∨
      (s.status.busy = false ∧ ∃ rest, s.inputs = .engine :: rest ∧
        step s = .next { s with inputs := rest }) ∨
      (s.status.busy = true ∧ ∃ rest, s.inputs = .wait :: rest ∧
        step s = hostStep .wait { s with inputs := .engine :: .wait :: rest }) ∨
      ∃ h rest, s.inputs = h :: rest ∧ h ≠ .engine ∧ (s.status.busy = true → h ≠ .wait) ∧
        step s = hostStep h { s with inputs := rest } := by
  cases hi : s.inputs with
  | nil => cases hb : s.status.busy <;> simp [step, nextTurn, hi, hb]
  | cons h rest =>
    cases hb : s.status.busy <;> cases h <;> simp [step, nextTurn, hi, hb, hostStep]

theorem run_next (M : Host.Core) (k : Nat) (s t : M.State) (h : M.step s = .next t) :
    M.run (k + 1) s = M.run k t := by
  simp only [Host.Core.run, h]

/-- A run of one step more, when that step answers a next state. -/
theorem run_succ (k : Nat) (s t : State) (h : step s = .next t) :
    Sys2Proof.core.run (k + 1) s = Sys2Proof.core.run k t :=
  run_next Sys2Proof.core k s t h

theorem run_zero (s : State) : Sys2Proof.core.run 0 s = .next s := rfl

/-- `validate` reads the command word and the parameter registers only (R178). -/
theorem validate_congr (s t : State) (v : Word) (h1 : t.srcBase = s.srcBase) (h2 : t.dstBase = s.dstBase)
    (h3 : t.width = s.width) (h4 : t.height = s.height) (h5 : t.clipLimit = s.clipLimit)
    (h6 : t.gridSize = s.gridSize) (h7 : t.gamma = s.gamma) (h8 : t.contrast = s.contrast) :
    t.validate v = s.validate v := by
  cases s
  cases t
  simp only at h1 h2 h3 h4 h5 h6 h7 h8
  subst h1 h2 h3 h4 h5 h6 h7 h8
  rfl

/-- Every sub-code of InvalidInput is a code of 1 to 9 (R177). -/
theorem InvalidInput.code_range (e : InvalidInput) : 1 ≤ e.code.toNat ∧ e.code.toNat ≤ 9 := by
  cases e <;> decide

/-- What legal flags are (R33). -/
theorem Status.legal_iff (st : Status) :
    st.legal = true ↔ (st.busy = true → st.done = false ∧ st.err = false) ∧
      (st.done = true → st.err = false) ∧ (st.err = true ↔ st.errcode ≠ 0) ∧ st.errcode.toNat ≤ 9 := by
  unfold Status.legal
  rcases st with ⟨b, d, e, w, c⟩
  cases b <;> cases d <;> cases e <;> by_cases hc : c = 0 <;> simp [hc]

end Sys2Proof.Machine
end

