-- ==== Sys2Proof/Laws/Tables.lean ====
section
/-! SUPPORT. Histograms, CDFs and tables entry by entry (spec/42_clahe.md R127, R129, spec/43_equalize.md
R141, R144). -/

namespace Sys2Proof.Machine

open Sys2Proof

/-- An entry of a table, given as a number below 256. -/
theorem tableOf_at (f : Nat → Nat) (v : Byte) : Table.at (tableOf f) v = BitVec.ofNat 8 (f v.toNat) := by
  simp [Table.at, tableOf]

theorem tableOf_getElem (f : Nat → Nat) (i : Nat) (hi : i < 256) :
    (tableOf f)[i] = BitVec.ofNat 8 (f i) := by
  simp [tableOf]

theorem histogramFile_getElem (h : List Nat) (i : Nat) (hi : i < 256) :
    (histogramFile h)[i] = BitVec.ofNat 32 (h.getD i 0) := by
  simp [histogramFile]

@[simp] theorem histogramOf_length (ps : List Pixel) : (histogramOf ps).length = 256 := by
  simp [histogramOf]

/-- `h[i]` counts the pixels whose bin is `i` (R127, R141). -/
theorem histogramOf_getD (ps : List Pixel) (i : Nat) (hi : i < 256) :
    (histogramOf ps).getD i 0 = ps.countP fun p => bin p == i := by
  simp [histogramOf, List.getD_eq_getElem?_getD, hi, List.count, List.countP_map, Function.comp_def]

/-- A bin is below 256 (R127). -/
theorem bin_lt (p : Pixel) : bin p < 256 := by
  have h1 := p.r.isLt
  have h2 := p.g.isLt
  have h3 := p.b.isLt
  simp only [bin, luma1000]
  omega

@[simp] theorem runningSums_length (acc : Nat) (ns : List Nat) : (runningSums acc ns).length = ns.length := by
  induction ns generalizing acc with
  | nil => rfl
  | cons n ns ih => simp [runningSums, ih]

/-- An entry of the running sums is the sum of the entries up to it. -/
theorem runningSums_getD (ns : List Nat) :
    ∀ acc i, i < ns.length → (runningSums acc ns).getD i 0 = acc + (ns.take (i + 1)).sum := by
  induction ns with
  | nil => intro acc i h; simp at h
  | cons n ns ih =>
    intro acc i h
    cases i with
    | zero => simp [runningSums]
    | succ i =>
      simp only [runningSums, List.getD_cons_succ, List.take_succ_cons, List.sum_cons]
      rw [ih _ _ (by simpa using h)]
      omega

/-- `CDF[i] = Σ_{j ≤ i} h[j]` (R129, R144). -/
theorem cdfOf_getD (h : List Nat) (i : Nat) (hi : i < h.length) :
    (cdfOf h).getD i 0 = (h.take (i + 1)).sum := by
  rw [cdfOf, runningSums_getD _ _ _ hi, Nat.zero_add]

/-- The bins of a histogram sum to the number of pixels it was built from (R37, R127). -/
theorem histogramOf_sum (ps : List Pixel) : (histogramOf ps).sum = ps.length := by
  have h : ∀ (l : List Nat) (n : Nat), (∀ v ∈ l, v < n) →
      ((List.range n).map fun i => l.count i).sum = l.length := by
    intro l
    induction l with
    | nil => intro n _; simp
    | cons v l ih =>
      intro n hl
      have hv := hl v List.mem_cons_self
      have hc : ∀ i, (v :: l).count i = l.count i + if v = i then 1 else 0 := by
        intro i; rw [List.count_cons]; simp [beq_iff_eq]
      simp only [hc, List.sum_map_add, List.length_cons]
      rw [ih n fun w hw => hl w (List.mem_cons_of_mem _ hw)]
      congr 1
      have : ∀ m, ((List.range m).map fun i => if v = i then 1 else 0).sum = if v < m then 1 else 0 := by
        intro m
        induction m with
        | zero => simp
        | succ m ihm =>
          rw [List.range_succ, List.map_append, List.sum_append, ihm]
          by_cases h1 : v < m
          · simp [h1, Nat.lt_succ_of_lt h1, Nat.ne_of_lt h1]
          · by_cases h2 : v = m
            · simp [h2]
            · simp [h1, h2, show ¬ v < m + 1 by omega]
      rw [this n, if_pos hv]
  have := h (ps.map bin) 256 (by simp only [List.mem_map]; rintro v ⟨p, -, rfl⟩; exact bin_lt p)
  simpa [histogramOf] using this

/-- The clipped histogram entry by entry (R128). -/
theorem clipped_getD (limit : Nat) (h : List Nat) (i : Nat) (hi : i < h.length) :
    (clipped limit h).getD i 0 = min (h.getD i 0) limit := by
  simp [clipped, List.getD_eq_getElem?_getD, hi]

/-- The entry of a table of rows, row by row. -/
theorem getD_flatMap_range {α : Type} (f : Nat → Nat → α) (d : α) (m j : Nat) (hj : j < m) :
    ∀ n i, i < n → ((List.range n).flatMap fun r => (List.range m).map (f r)).getD (i * m + j) d = f i j := by
  intro n
  have hl : ∀ k, ((List.range k).flatMap fun r => (List.range m).map (f r)).length = k * m := by
    intro k
    simp [List.length_flatMap]
  induction n with
  | zero => intro i hi; omega
  | succ n ih =>
    intro i hi
    rw [List.range_succ, List.flatMap_append, List.getD_eq_getElem?_getD]
    by_cases hin : i < n
    · rw [List.getElem?_append_left, ← List.getD_eq_getElem?_getD]
      · exact ih i hin
      · rw [hl]
        have := Nat.mul_le_mul_right m (show i + 1 ≤ n by omega)
        rw [Nat.add_mul] at this
        omega
    · obtain rfl : i = n := by omega
      rw [List.getElem?_append_right (by rw [hl]; omega), hl, Nat.add_sub_cancel_left]
      simp [hj]

/-- The table CLAHE looks a pixel up in is that of the tile its index names (R126, R132). -/
theorem tileTables_getD (d e : Degen) (cl grid : Nat) (img : Image) (tx ty : Nat)
    (hx : tx < tileCount img.w grid) (hy : ty < tileCount img.h grid) :
    (tileTables d cl grid img).getD (ty * tileCount img.w grid + tx) (degenerateTable e) =
      tileTable d cl ((tileAt img.w img.h grid tx ty).pixels img) :=
  getD_flatMap_range _ _ _ _ hx _ _ hy

end Sys2Proof.Machine
end

