-- ==== Sys2Proof/Tests/Slice0.lean ====
section
/-! SUPPORT. Tests: the well-formedness smoke test, decoding of words written out from R71 and R77, one or two
steps per operation with results taken from spec/95_test_vectors.md, and a witness for the hypotheses of each
statement that has any. -/

set_option maxRecDepth 100000

namespace Sys2Proof.Tests

open Sys2Proof Sys2Proof.Machine Sys2Proof.Claims

/-! ### Well-formedness: each check refuses an ill-formed term (R20, R50, R78, M9) -/

theorem test_wf_read_misaligned : (HostStep.regRead 0x006).wellFormed = false := by decide
theorem test_wf_read_outside : (HostStep.regRead 0x1000).wellFormed = false := by decide
theorem test_wf_read_last : (HostStep.regRead 0xFFC).wellFormed = true := by decide
theorem test_wf_write_misaligned : (HostStep.regWrite 0x00D 1).wellFormed = false := by decide
theorem test_wf_write_outside : (HostStep.regWrite 0x1004 1).wellFormed = false := by decide
theorem test_wf_narrow : (HostStep.narrow 0x004 1).wellFormed = false := by decide
theorem test_wf_mem_read_wraps : (HostStep.memRead 0xFFFFFFFF 2).wellFormed = false := by decide
theorem test_wf_mem_read_last : (HostStep.memRead 0xFFFFFFFF 1).wellFormed = true := by decide
theorem test_wf_mem_write_wraps : (HostStep.memWrite 0xFFFFFFFE [1, 2, 3]).wellFormed = false := by decide
theorem test_wf_word_zero : legalWord 0x000 = false := by decide
theorem test_wf_word_reserved_op : legalWord 0x00B = false := by decide
theorem test_wf_word_reserved_low : legalWord 0x011 = false := by decide
theorem test_wf_word_reserved_high : legalWord 0x1001 = false := by decide
theorem test_wf_word_flag : legalWord 0x107 = false := by decide
theorem test_wf_word_count : legalWords.length = 19 := by decide

/-! ### Decoding: a word written out from R71 and R72 for every operation and flag -/

theorem test_decode_sobel : decode 0b0000_0000_0000_0000_0000_0000_0000_0001#32 = .ok (.sobel .skip) := by decide
theorem test_decode_sobel_clamp : decode 0b0001_0000_0001#32 = .ok (.sobel .clamp) := by decide
theorem test_decode_prewitt : decode 0b0001_0000_0010#32 = .ok (.prewitt .clamp) := by decide
theorem test_decode_laplacian : decode 0b0000_0000_0011#32 = .ok (.laplacian .skip) := by decide
theorem test_decode_laplacian_clamp : decode 0b0001_0000_0011#32 = .ok (.laplacian .clamp) := by decide
theorem test_decode_canny_keep : decode 0b0010_0000_0100#32 = .ok (.canny .skip .keep) := by decide
theorem test_decode_canny_clamp : decode 0b0001_0000_0100#32 = .ok (.canny .clamp .zero) := by decide
theorem test_decode_clahe : decode 0b0100_0000_0101#32 = .ok (.clahe .zero) := by decide
theorem test_decode_equalize : decode 0b0100_0000_0110#32 = .ok (.equalize .zero) := by decide
theorem test_decode_equalize_identity : decode 0b0000_0000_0110#32 = .ok (.equalize .identity) := by decide
theorem test_decode_hist : decode 0b0000_0000_0111#32 = .ok .hist := by decide
theorem test_decode_gamma : decode 0b0000_0000_1000#32 = .ok (.gamma .inverse) := by decide
theorem test_decode_gamma_direct : decode 0b1000_0000_1000#32 = .ok (.gamma .direct) := by decide
theorem test_decode_sigmoid : decode 0b0000_0000_1001#32 = .ok .sigmoid := by decide
theorem test_decode_lutapply : decode 0b0000_0000_1010#32 = .ok .lutapply := by decide
theorem test_decode_zero : decode 0#32 = .error .reservedOp := by decide
theorem test_decode_reserved_op : decode 0b1111#32 = .error .reservedOp := by decide
theorem test_decode_reserved_low : decode 0b0001_0001#32 = .error .reservedBits := by decide
theorem test_decode_reserved_high : decode 0x80000001#32 = .error .reservedBits := by decide
theorem test_decode_flag : decode 0b0010_0000_0001#32 = .error .flagNotAllowed := by decide
theorem test_decode_flag_sigmoid : decode 0b1000_0000_1001#32 = .error .flagNotAllowed := by decide

/-- The examples of R82. -/
theorem test_encode : encode (.sobel .clamp) = 0x101 ∧ encode (.canny .clamp .keep) = 0x304 ∧
    encode (.clahe .zero) = 0x405 ∧ encode (.gamma .direct) = 0x808 ∧ encode .hist = 0x007 := by decide

theorem test_text : (Instr.canny .clamp .keep).text = "CANNY.C.K" := by decide
theorem test_assemble : assemble .CANNY [.K, .C] = some (.canny .clamp .keep) := by decide
theorem test_assemble_refuses : assemble .SOBEL [.C, .Z] = none := by decide
theorem test_table_word : decodeTableWord 32 0x808 = some (.gamma .direct) := by decide

/-! ### Small states -/

/-- The bytes of a grey image with one alpha. -/
def greyBytes (vs : List Nat) (a : Nat) : List Byte :=
  vs.flatMap fun v => [BitVec.ofNat 8 v, BitVec.ofNat 8 v, BitVec.ofNat 8 v, BitVec.ofNat 8 a]

/-- The reset state with the bytes `bs` at 0x1000 as a `w × h` image, destination 0x2000, and parameters
every operation accepts. -/
def withImage (w h : Nat) (bs : List Byte) : State :=
  { State.reset with
    mem := Memory.writeBytes [] 0x1000 bs
    srcBase := 0x1000
    dstBase := 0x2000
    width := BitVec.ofNat 16 w
    height := BitVec.ofNat 16 h
    clipLimit := 0x00800000
    gridSize := 2
    gamma := 0x00008000
    contrast := 0x00008000 }

/-- The operation is pending on that image. -/
def pendingOn (i : Instr) (w h : Nat) (bs : List Byte) : State := (withImage w h bs).issue (encode i)

/-- What the pixel `(x, y)` of the destination holds after the operation; `none` if it stops. -/
def pixelAfter (i : Instr) (s : State) (x y : Nat) : Option Pixel :=
  match exec i s with
  | .next t => some (t.mem.pixel (s.pixelAddr s.dstAddr x y))
  | _ => none

/-- What entry `k` of the LUT is after the operation. -/
def lutAfter (i : Instr) (s : State) (k : Fin 256) : Option Byte :=
  match exec i s with
  | .next t => some t.lut[k.val]
  | _ => none

/-- What bin `k` of HIST is after the operation. -/
def histAfter (i : Instr) (s : State) (k : Fin 256) : Option Word :=
  match exec i s with
  | .next t => some t.hist[k.val]
  | _ => none

/-- The ramp of V-GRAD-2. -/
def ramp (i : Instr) : State := pendingOn i 3 3 (greyBytes [10, 20, 30, 40, 50, 60, 70, 80, 90] 255)

/-- The colour row of V-GAMMA-3 and V-SIGMOID-4. -/
def colourRow (i : Instr) : State :=
  pendingOn i 3 1 [0x32, 0x32, 0x32, 0xFF, 0xC8, 0x80, 0x00, 0x07, 0xFF, 0x01, 0x40, 0x00]

/-! ### Operations, results from spec/95_test_vectors.md -/

/-- V-GRAD-2. -/
theorem test_sobel_corner :
    pixelAfter (.sobel .clamp) (ramp (.sobel .clamp)) 0 0 = some ⟨126, 126, 126, 255⟩ := by decide

/-- V-GRAD-2: a border pixel under SKIP. -/
theorem test_sobel_skip :
    pixelAfter (.sobel .skip) (ramp (.sobel .skip)) 1 0 = some ⟨0, 0, 0, 255⟩ := by decide

/-- V-GRAD-2. -/
theorem test_prewitt_corner :
    pixelAfter (.prewitt .clamp) (ramp (.prewitt .clamp)) 2 1 = some ⟨182, 182, 182, 255⟩ := by
  decide

/-- V-GRAD-2. -/
theorem test_laplacian_corner :
    pixelAfter (.laplacian .clamp) (ramp (.laplacian .clamp)) 0 0 = some ⟨40, 40, 40, 255⟩ := by
  decide

/-- V-GRAD-2: the centre of the ramp, SKIP. -/
theorem test_laplacian_centre :
    pixelAfter (.laplacian .skip) (ramp (.laplacian .skip)) 1 1 = some ⟨0, 0, 0, 255⟩ := by decide

/-- The image of V-CANNY-4. -/
def redBlue (i : Instr) : State :=
  let row : List Byte := [255, 0, 0, 10, 255, 0, 0, 20, 0, 0, 255, 30, 0, 0, 255, 40]
  pendingOn i 4 3 (row ++ row ++ row)

/-- V-CANNY-4, reset thresholds. -/
theorem test_canny_weak :
    pixelAfter (.canny .skip .keep) (redBlue (.canny .skip .keep)) 1 1 = some ⟨128, 128, 128, 255⟩ := by
  decide

/-- V-CANNY-4: a border pixel keeps its alpha under KEEPA. -/
theorem test_canny_none :
    pixelAfter (.canny .skip .keep) (redBlue (.canny .skip .keep)) 2 0 = some ⟨0, 0, 0, 30⟩ := by
  decide

/-- The tile of R134's example as a 2 × 2 image under a one-tile grid. -/
def oneTile (i : Instr) : State := { pendingOn i 2 2 (greyBytes [10, 10, 20, 30] 9) with gridSize := 1 }

/-- R134: 20 maps to 191. -/
theorem test_clahe_tile :
    pixelAfter (.clahe .identity) (oneTile (.clahe .identity)) 0 1 = some ⟨191, 191, 191, 9⟩ := by
  decide

/-- R134: `G ≥ max(W, H)` gives one-pixel tiles, here with `limit = 0`, so degenerate. -/
theorem test_clahe_degenerate :
    pixelAfter (.clahe .zero)
      { pendingOn (.clahe .zero) 2 2 (greyBytes [10, 10, 20, 30] 9) with clipLimit := 0x00010000 } 1 1 =
        some ⟨0, 0, 0, 9⟩ := by
  decide

/-- The image of V-EQ-1. -/
def fourGreys (i : Instr) : State := pendingOn i 2 2 (greyBytes [10, 10, 20, 30] 9)

/-- V-EQ-1. -/
theorem test_equalize :
    pixelAfter (.equalize .identity) (fourGreys (.equalize .identity)) 0 1 = some ⟨128, 128, 128, 9⟩ := by
  decide

/-- V-EQ-2: a uniform image under DEGEN = 1. -/
theorem test_equalize_degenerate :
    lutAfter (.equalize .zero) (pendingOn (.equalize .zero) 1 1 (greyBytes [77] 3)) 77 = some 0 := by
  decide

/-- V-EQ-1. -/
theorem test_hist : histAfter .hist (fourGreys .hist) 10 = some 2 := by decide

/-- V-HIST-2: a tie of the luma rounds up. -/
theorem test_hist_tie : histAfter .hist (pendingOn .hist 1 1 [0, 12, 4, 0]) 8 = some 1 := by decide

/-- V-GAMMA-3. -/
theorem test_gamma :
    pixelAfter (.gamma .direct) (colourRow (.gamma .direct)) 1 0 = some ⟨0xE2, 0xB5, 0x00, 0x07⟩ := by
  decide

/-- V-GAMMA-3. -/
theorem test_gamma_inverse :
    pixelAfter (.gamma .inverse) (colourRow (.gamma .inverse)) 2 0 = some ⟨0xFF, 0x00, 0x10, 0x00⟩ := by
  decide

/-- V-GAMMA-2: the exponent 1/65536 of the largest GAMMA. -/
theorem test_gamma_extreme : gammaEntry 0xFFFFFFFF .inverse 1 = 255 := by decide +kernel

/-- V-SIGMOID-4. -/
theorem test_sigmoid :
    pixelAfter .sigmoid { colourRow .sigmoid with contrast := 0xFFFF8000 } 1 0 =
      some ⟨0x1B, 0x11, 0x00, 0x07⟩ := by
  decide

/-- V-SIGMOID-2. -/
theorem test_sigmoid_up : lutAfter .sigmoid (colourRow .sigmoid) 34 = some 251 := by decide

/-- V-LUT-1: the complement table of P6. -/
theorem test_lutapply :
    pixelAfter .lutapply
      { pendingOn .lutapply 1 1 [0x00, 0x64, 0xFF, 0x4D] with
        lut := Vector.ofFn fun i => BitVec.ofNat 8 (255 - i.val) } 0 0 = some ⟨0xFF, 0x9B, 0x00, 0x4D⟩ := by
  decide

/-! ### States that meet the hypotheses of the statements -/

theorem ready_pendingOn (i : Instr) (w h : Nat) (bs : List Byte)
    (hm : (Memory.writeBytes [] 0x1000 bs).wf = true)
    (hl : 4 * (w % 2 ^ 16 * (h % 2 ^ 16)) ≤ 0x1000) : Ready i (pendingOn i w h bs) where
  memory := hm
  source := by
    show 0x1000 + 4 * (w % 2 ^ 16 * (h % 2 ^ 16)) ≤ 2 ^ 32
    omega
  destination _ := by
    show 0x2000 + 4 * (w % 2 ^ 16 * (h % 2 ^ 16)) ≤ 2 ^ 32
    omega
  kept := by
    constructor
    · rcases i with ⟨_ | _⟩ | ⟨_ | _⟩ | ⟨_ | _⟩ | ⟨_ | _, _ | _⟩ | ⟨_ | _⟩ | ⟨_ | _⟩ | _ | ⟨_ | _⟩ | _ | _ <;> rfl
    · intro a
      rcases i with ⟨_ | _⟩ | ⟨_ | _⟩ | ⟨_ | _⟩ | ⟨_ | _, _ | _⟩ | ⟨_ | _⟩ | ⟨_ | _⟩ | _ | ⟨_ | _⟩ | _ | _ <;> rfl

theorem ready_fourGreys (i : Instr) : Ready i (fourGreys i) :=
  ready_pendingOn i 2 2 _ (by decide) (by decide)

theorem inv_fourGreys (i : Instr) : (fourGreys i).Inv where
  memory := (ready_fourGreys i).memory
  flags := rfl
  pending _ := by
    rcases i with ⟨_ | _⟩ | ⟨_ | _⟩ | ⟨_ | _⟩ | ⟨_ | _, _ | _⟩ | ⟨_ | _⟩ | ⟨_ | _⟩ | _ | ⟨_ | _⟩ | _ | _ <;>
      decide
  owner _ := by
    refine ⟨i, (fourGreys i).claimFor i, ?_⟩
    rcases i with ⟨_ | _⟩ | ⟨_ | _⟩ | ⟨_ | _⟩ | ⟨_ | _, _ | _⟩ | ⟨_ | _⟩ | ⟨_ | _⟩ | _ | ⟨_ | _⟩ | _ | _ <;>
      exact ⟨rfl, rfl, rfl, rfl, rfl, rfl, rfl, rfl, rfl⟩
  region := by
    intro c hc _
    rcases hc with hc | hc
    swap
    · cases hc
    have h : c.dst = 0x2000 ∧ c.len = 16 := by
      rcases i with ⟨_ | _⟩ | ⟨_ | _⟩ | ⟨_ | _⟩ | ⟨_ | _, _ | _⟩ | ⟨_ | _⟩ | ⟨_ | _⟩ | _ | ⟨_ | _⟩ | _ | _ <;>
        (injection hc with hc; subst hc; exact ⟨rfl, rfl⟩)
    rw [h.1, h.2]
    decide

/-- The image of V-EQ-1 with nothing pending. -/
def idleGreys : State := withImage 2 2 (greyBytes [10, 10, 20, 30] 9)

theorem inv_idleGreys : idleGreys.Inv where
  memory := by decide
  flags := rfl
  pending h := by cases h
  owner h := by cases h
  region c h := by rcases h with h | h <;> cases h

/-- The schedule is no part of the invariant. -/
theorem inv_inputs (s : State) (inputs : List HostStep) (h : s.Inv) :
    State.Inv { s with inputs := inputs } where
  memory := h.memory
  flags := h.flags
  pending := h.pending
  owner := h.owner
  region := h.region

/-! ### Witnesses: encoding and steps -/

theorem witness_AssembledCommands :
    (Flag.Z ∈ [Flag.C, Flag.Z] ∧ Flag.Z ∉ allowedFlags .SOBEL) ∧ ∀ f ∈ [Flag.K, Flag.C], f ∈ allowedFlags .CANNY := by
  decide

theorem witness_EngineTurn :
    let s := State.reset.withFetchWord 32 0x101
    s.status.busy = true ∧ decode s.cmd = .ok (.sobel .clamp) ∧ s.inputs = [.engine] ∧
      (fourGreys .hist).status.busy = true ∧ decode (fourGreys .hist).cmd = .ok .hist ∧
      (fourGreys .hist).inputs = [] := by
  decide

theorem witness_AcceptedCommand :
    let s : State := { idleGreys with inputs := [.regWrite 0x000 0x405, .engine] }
    s.Inv ∧ s.status.busy = false ∧ s.validate 0x405 = none ∧ s.inputs = .regWrite 0x000 0x405 :: .engine :: [] :=
  ⟨inv_inputs _ _ inv_idleGreys, rfl, by decide, rfl⟩

theorem witness_IdleBlock : State.reset.inputs = [] ∧ State.reset.status.busy = false := ⟨rfl, rfl⟩

theorem witness_Wait :
    let s : State := { fourGreys .sigmoid with inputs := [.wait, .regRead 0x004] }
    s.Inv ∧ s.status.busy = true ∧ s.inputs = .wait :: [.regRead 0x004] :=
  ⟨inv_inputs _ _ (inv_fourGreys _), rfl, rfl⟩

/-! ### Witnesses: the operations -/

theorem ready_ramp (i : Instr) : Ready i (ramp i) :=
  ready_pendingOn i 3 3 _ (by decide) (by decide)

theorem witness_Sobel :
    Ready (.sobel .skip) (ramp (.sobel .skip)) ∧
      (inImage (ramp (.sobel .skip)) 1 1 ∧ processedAt .skip (ramp (.sobel .skip)) 1 1) ∧
      (inImage (ramp (.sobel .skip)) 2 1 ∧ ¬ processedAt .skip (ramp (.sobel .skip)) 2 1) ∧
      ¬ processedAt .skip (ramp (.sobel .skip)) 0 1 :=
  ⟨ready_ramp _, by unfold inImage processedAt; decide, by unfold inImage processedAt; decide,
    by unfold processedAt; decide⟩

theorem witness_Prewitt :
    Ready (.prewitt .clamp) (ramp (.prewitt .clamp)) ∧ inImage (ramp (.prewitt .clamp)) 2 2 ∧
      processedAt .clamp (ramp (.prewitt .clamp)) 2 2 ∧ Ready (.prewitt .skip) (ramp (.prewitt .skip)) ∧
      ¬ processedAt .skip (ramp (.prewitt .skip)) 1 2 :=
  ⟨ready_ramp _, by unfold inImage; decide, .inl rfl, ready_ramp _, by unfold processedAt; decide⟩

theorem witness_Laplacian :
    Ready (.laplacian .skip) (ramp (.laplacian .skip)) ∧ inImage (ramp (.laplacian .skip)) 1 1 ∧
      processedAt .skip (ramp (.laplacian .skip)) 1 1 ∧ ¬ processedAt .skip (ramp (.laplacian .skip)) 1 0 :=
  ⟨ready_ramp _, by unfold inImage; decide, by unfold processedAt; decide, by unfold processedAt; decide⟩

theorem ready_redBlue (i : Instr) : Ready i (redBlue i) :=
  ready_pendingOn i 4 3 _ (by decide) (by decide)

/-- V-CANNY-4: Weak and None with the reset thresholds, Strong with (20, 60). -/
theorem witness_Canny :
    let s := redBlue (.canny .skip .keep)
    Ready (.canny .skip .keep) s ∧ inImage s 1 1 ∧
      (¬ above .skip s 1 1 s.threshHigh.toNat ∧ above .skip s 1 1 s.threshLow.toNat) ∧
      (¬ above .skip s 2 0 s.threshHigh.toNat ∧ ¬ above .skip s 2 0 s.threshLow.toNat) ∧
      above .skip s 1 1 60 :=
  ⟨ready_redBlue _, by unfold inImage; decide, by unfold above processedAt; decide,
    by unfold above processedAt; decide, by unfold above processedAt; decide⟩

/-- R126: `W = 5`, `G = 4` has tile columns at 0, 2 and 4 only. -/
theorem witness_Clahe :
    let s : State := { pendingOn (.clahe .zero) 5 1 (greyBytes [1, 2, 3, 4, 5] 7) with gridSize := 4 }
    Ready (.clahe .zero) s ∧ s.gridSize ≠ 0 ∧ inImage s 4 0 ∧ inTile s 2 0 4 0 ∧ inTile s 1 0 3 0 ∧
      inTile s 0 0 0 0 ∧ ¬ inTile s 3 0 4 0 := by
  refine ⟨?_, by decide, by unfold inImage; decide, by unfold inTile; decide,
    by unfold inTile; decide, by unfold inTile; decide, by unfold inTile; decide⟩
  have h := ready_pendingOn (.clahe .zero) 5 1 (greyBytes [1, 2, 3, 4, 5] 7) (by decide) (by decide)
  exact ⟨h.memory, h.source, h.destination, ⟨h.kept.source, h.kept.destination⟩⟩

theorem witness_Hist : Ready .hist (fourGreys .hist) ∧ inImage (fourGreys .hist) 1 1 :=
  ⟨ready_fourGreys _, by unfold inImage; decide⟩

theorem witness_Equalize :
    Ready (.equalize .identity) (fourGreys (.equalize .identity)) ∧
      0 < (fourGreys (.equalize .identity)).pixelCount ∧ isCdfMin (fourGreys (.equalize .identity)) 2 :=
  ⟨ready_fourGreys _, by decide, 10, by decide, by decide, by decide, by decide⟩

theorem witness_Gamma : Ready (.gamma .direct) (colourRow (.gamma .direct)) ∧
    (colourRow (.gamma .direct)).gamma ≠ 0 ∧ inImage (colourRow (.gamma .direct)) 2 0 :=
  ⟨ready_pendingOn _ 3 1 _ (by decide) (by decide), by decide, by unfold inImage; decide⟩

/-- Both ends of the range, both signs, and zero. -/
theorem witness_Sigmoid (c : Word) (hc : c ∈ [0x00010000, 0xFFFF0000, 0x00000001, 0xFFFFFFFF, 0x00000000]) :
    Ready .sigmoid { colourRow .sigmoid with contrast := c } ∧ c.toInt.natAbs ≤ 65536 := by
  have h := ready_pendingOn .sigmoid 3 1
    [0x32, 0x32, 0x32, 0xFF, 0xC8, 0x80, 0x00, 0x07, 0xFF, 0x01, 0x40, 0x00] (by decide) (by decide)
  refine ⟨⟨h.memory, h.source, h.destination, ⟨h.kept.source, h.kept.destination⟩⟩, ?_⟩
  simp only [List.mem_cons, List.not_mem_nil, or_false] at hc
  rcases hc with rfl | rfl | rfl | rfl | rfl <;> decide

theorem witness_Sigmoid_signs : 0 < (0x00010000#32).toInt ∧ (0xFFFF0000#32).toInt < 0 ∧ (0#32).toInt = 0 := by
  decide

theorem witness_SigmoidAtZero :
    Ready .sigmoid { fourGreys .sigmoid with contrast := 0 } ∧ 0 < (fourGreys .sigmoid).regionLen := by
  have h := ready_fourGreys .sigmoid
  exact ⟨⟨h.memory, h.source, h.destination, ⟨h.kept.source, h.kept.destination⟩⟩, by decide⟩

theorem witness_Lutapply : Ready .lutapply (fourGreys .lutapply) ∧ inImage (fourGreys .lutapply) 1 1 :=
  ⟨ready_fourGreys _, by unfold inImage; decide⟩

/-! ### Witnesses: properties of the operations -/

theorem witness_GammaTable : 0 < 0x18000 ∧ 0x18000 < 2 ^ 32 ∧ 65536 < 0x18000 ∧ 0 < 1 ∧ 1 < 65536 ∧
    0xFFFFFFFF < 2 ^ 32 ∧ (0 ≤ 255 ∧ 255 < 256) := by decide

theorem witness_SigmoidTable : (65536 : Int).natAbs ≤ 65536 ∧ (-65536 : Int).natAbs ≤ 65536 ∧
    (0 : Int).natAbs ≤ 65536 ∧ (5 ≤ 255 ∧ 255 < 256) := by decide

theorem witness_SigmoidTable_saturates : 254.5 ≤ ((255 : ℕ) : ℝ) * factor 65536 := by
  have h : (1 : ℝ) ≤ factor 65536 := Real.one_le_exp (by positivity)
  push_cast
  linarith

theorem witness_Alpha : Ready (.clahe .zero) (fourGreys (.clahe .zero)) ∧ writesDst (.clahe .zero) = true ∧
    (∀ b k, Instr.clahe .zero ≠ .canny b k) ∧ inImage (fourGreys (.clahe .zero)) 0 1 :=
  ⟨ready_fourGreys _, rfl, by simp, by unfold inImage; decide⟩

theorem witness_HistogramSums : (Instr.equalize .zero = .hist ∨ ∃ d, Instr.equalize .zero = .equalize d) ∧
    Ready (.equalize .zero) (fourGreys (.equalize .zero)) ∧ Ready .hist (fourGreys .hist) :=
  ⟨.inr ⟨_, rfl⟩, ready_fourGreys _, ready_fourGreys _⟩

theorem witness_EqualizeTable : Ready (.equalize .zero) (fourGreys (.equalize .zero)) ∧ 0 ≤ 255 ∧ 255 < 256 :=
  ⟨ready_fourGreys _, by decide⟩

/-- R126: `W = 5`, `G = 4` has the tile columns 0, 1 and 2. -/
theorem witness_EveryPixel :
    0 < 4 ∧ 4 < (⟨5, 1, List.replicate 5 ⟨1, 2, 3, 4⟩⟩ : Image).w ∧
      0 < (⟨5, 1, List.replicate 5 ⟨1, 2, 3, 4⟩⟩ : Image).h ∧ tileCount 5 4 = 3 ∧
      covers (tileAt 5 1 4 2 0) 4 0 ∧ ¬ covers (tileAt 5 1 4 1 0) 4 0 :=
  ⟨by decide, by decide, by decide, by decide, by unfold covers; decide, by unfold covers; decide⟩

/-- Two images that differ outside the first tile. -/
theorem witness_TilesIndependent :
    let s := fourGreys (.clahe .identity)
    let u := pendingOn (.clahe .identity) 2 2 (greyBytes [10, 90, 91, 92] 9)
    Ready (.clahe .identity) s ∧ Ready (.clahe .identity) u ∧ s.gridSize ≠ 0 ∧ u.srcBase = s.srcBase ∧
      u.dstBase = s.dstBase ∧ u.width = s.width ∧ u.height = s.height ∧ u.clipLimit = s.clipLimit ∧
      u.gridSize = s.gridSize ∧ inTile s 0 0 0 0 ∧
      ∀ x y, inImage s x y → inTile s 0 0 x y → src u x y = src s x y := by
  refine ⟨ready_fourGreys _, ready_pendingOn _ 2 2 _ (by decide) (by decide), by decide, rfl, rfl,
    rfl, rfl, rfl, rfl, by unfold inTile; decide, ?_⟩
  intro x y _ ht
  have e1 : tileX2 (fourGreys (.clahe .identity)) 0 = 1 := by decide
  have e2 : tileY2 (fourGreys (.clahe .identity)) 0 = 1 := by decide
  obtain ⟨-, -, -, -, -, hx, -, hy⟩ := ht
  rw [e1] at hx
  rw [e2] at hy
  obtain rfl : x = 0 := by omega
  obtain rfl : y = 0 := by omega
  decide

/-- Two states that differ in a register the operation does not read and in the LUT. -/
theorem witness_ResultsDepend :
    let s := fourGreys (.sobel .clamp)
    let u : State := { s with gamma := 7, lut := Vector.ofFn fun _ => 3 }
    Ready (.sobel .clamp) s ∧ Ready (.sobel .clamp) u ∧
      (∀ r ∈ paramsRead (.sobel .clamp), u.regValue r = s.regValue r) ∧
      (∀ k, k < s.regionLen → u.operandMem.read (s.srcAddr + k) = s.operandMem.read (s.srcAddr + k)) ∧
      (Instr.sobel .clamp = .lutapply → u.operandLut = s.operandLut) := by
  have h := ready_fourGreys (.sobel .clamp)
  refine ⟨h, ⟨h.memory, h.source, h.destination, ⟨h.kept.source, h.kept.destination⟩⟩, by decide,
    fun _ _ => rfl, fun h => by cases h⟩

theorem witness_ResultsDepend_lutapply :
    Ready .lutapply (fourGreys .lutapply) ∧ (fourGreys .lutapply).operandLut = (fourGreys .lutapply).lut :=
  ⟨ready_fourGreys _, rfl⟩

/-! ### Witnesses: broken ownership -/

/-- The operation is pending and the host wrote the first two bytes of its destination. -/
def brokenDst : State := (fourGreys (.sobel .clamp)).hostWrite 0x2000 [1, 2]

theorem witness_EveryCompletion :
    brokenDst.srcAddr + brokenDst.regionLen ≤ addressSpace ∧
      (writesDst (.sobel .clamp) = true → brokenDst.dstAddr + brokenDst.regionLen ≤ addressSpace) := by
  decide

theorem witness_HostWrittenDestination :
    brokenDst.mem.wf = true ∧ writesDst (.sobel .clamp) = true ∧
      brokenDst.srcAddr + brokenDst.regionLen ≤ addressSpace ∧
      brokenDst.dstAddr + brokenDst.regionLen ≤ addressSpace ∧ brokenDst.srcHit = false ∧
      (brokenDst.dstAddr = 0x2000 ∧ brokenDst.regionLen = 16) ∧ brokenDst.dstHit 0x2001 = true ∧
      brokenDst.dstHit 0x2002 = false := by
  decide

/-- A completion the host has not observed. -/
def unobserved : State :=
  match exec (.sobel .clamp) (fourGreys (.sobel .clamp)) with
  | .next t => t
  | _ => State.reset

/-- Without observing it, the host has started a GAMMA from its destination. -/
def chained : State := State.issue { unobserved with srcBase := 0x2000, dstBase := 0x3000 } (encode (.gamma .direct))

/-- The record of that completion. -/
def sobelClaim : Claim :=
  { (fourGreys (.sobel .clamp)).claimFor (.sobel .clamp) with before := (fourGreys (.sobel .clamp)).mem }

theorem chained_earlier : chained.earlier = [sobelClaim] := by decide

theorem inv_chained : chained.Inv where
  memory := by decide
  flags := rfl
  pending _ := by decide
  owner _ := ⟨.gamma .direct, _, by decide, rfl, rfl, rfl, rfl, rfl, rfl, rfl, rfl⟩
  region := by
    intro c hc _
    rcases hc with hc | hc
    · injection hc with hc
      subst hc
      decide
    · rw [chained_earlier, List.mem_singleton] at hc
      subst hc
      decide

theorem kept_chained : chained.ownershipKept := ⟨by decide, fun _ => rfl⟩

/-- The completion of the GAMMA leaves both completions unobserved, the older one first. -/
theorem test_earlier_kept :
    (match step chained with | .next t => t.completed.map (fun c => (c.src, c.dst)) | _ => []) =
      [(0x1000, 0x2000), (0x2000, 0x3000)] := by decide

/-- R61: a STATUS read while BUSY = 1 observes nothing, one while BUSY = 0 observes both. -/
theorem test_observation :
    (chained.readReg (some .STATUS)).earlier = [sobelClaim] ∧
      (match step chained with | .next t => (t.readReg (some .STATUS)).completed | _ => [sobelClaim]) = [] := by
  decide

/-- The host has observed neither a GAMMA from 0x1000 to 0x2000 nor a LUTAPPLY from 0x4000 to 0x5000, then writes
into the first source: the second result is in no region of the first, and stays (R206, R212). -/
theorem test_untouched_result_stays :
    let first : Claim := { (fourGreys (.gamma .direct)).claimFor (.gamma .direct) with before := [] }
    let second : Claim := { (fourGreys .lutapply).claimFor .lutapply with src := 0x4000, dst := 0x5000 }
    let s : State := { idleGreys with claim := some second, earlier := [first], mem := [(0x5003, 9)] }
    s.completed = [first, second] ∧ first.touchesSrc 0x100F 1 = true ∧ second.touchesSrc 0x100F 1 = false ∧
      newest (·.ownsDst 0x5003) s = some second ∧ newest (·.ownsDst 0x2003) s = some first ∧
      newest (·.writesLut) s = some first := by
  decide

/-- A byte that a newer completion wrote is that one's, and a write into its source reaches it (R206, R212). -/
theorem test_newest_owner :
    let second : Claim := { sobelClaim with src := 0x4000 }
    let s : State := { idleGreys with claim := some second, earlier := [sobelClaim] }
    newest (·.ownsDst 0x2000) s = some second ∧
      (s.unsettle [second] sobelClaim).mem.read 0x2000 = s.mem.read 0x2000 := by
  decide

/-- The pending GAMMA of `chained` reads what the SOBEL left, though the host then writes into the SOBEL's source
(R61): its operands are held; a write that meets no source leaves its record without any. -/
theorem test_operands_held :
    ((chained.hostWrite 0x1000 [7]).claim.bind Claim.seen).map (·.1 == chained.mem) = some true ∧
      (chained.hostWrite 0x6000 [7]).claim.bind Claim.seen = none := by
  decide

theorem witness_HostReads :
    (fourGreys (.gamma .direct)).Inv ∧ (fourGreys (.gamma .direct)).status.busy = true ∧
      (fourGreys (.gamma .direct)).ownershipKept ∧ 0x1FFE + 4 ≤ addressSpace ∧
      (0x1FFF < (fourGreys (.gamma .direct)).dstAddr) :=
  ⟨inv_fourGreys _, rfl, (ready_fourGreys _).kept, by decide, by decide⟩

/-- With an earlier completion not yet observed: bytes of both destinations and of neither. -/
theorem witness_HostReads_earlier :
    chained.Inv ∧ chained.status.busy = true ∧ chained.ownershipKept ∧ 0x200F + 1 ≤ addressSpace ∧
      chained.dstAddr = 0x3000 ∧ (∃ c ∈ chained.earlier, c.ownsDst 0x200F = true) ∧
      ∀ c ∈ chained.earlier, c.ownsDst 0x2010 = false :=
  ⟨inv_chained, by decide, kept_chained, by decide, by decide, by decide, by decide⟩

theorem witness_HostReadsBeforeObservation :
    (chained.Inv ∧ chained.status.busy = true ∧ decode chained.cmd = .ok (.gamma .direct) ∧
      0x3000 + 16 ≤ addressSpace) ∧
      (chained.dstAddr ≤ 0x300F ∧ 0x300F < chained.dstAddr + chained.regionLen) ∧
      (0x2FFF < chained.dstAddr ∧ ∀ c ∈ chained.earlier, c.ownsDst 0x2FFF = false) :=
  ⟨⟨inv_chained, by decide, by decide, by decide⟩, by decide, by decide⟩

theorem witness_HostWriteWhileBusy :
    (fourGreys .lutapply).mem.wf = true ∧ (fourGreys .lutapply).status.busy = true ∧
      (fourGreys .lutapply).claim = some ((fourGreys .lutapply).claimFor .lutapply) ∧
      0x100F + ([1, 2] : List Byte).length ≤ addressSpace ∧ (fourGreys .lutapply).earlier = [] :=
  ⟨(ready_fourGreys _).memory, rfl, rfl, by decide, rfl⟩

theorem witness_HostWriteWhileBusy_earlier :
    chained.mem.wf = true ∧ chained.claim.isSome = true ∧ 0x300F + ([1, 2] : List Byte).length ≤ addressSpace ∧
      ∀ d ∈ chained.earlier, d.touchesSrc 0x300F 2 = false ∧ ∀ k, k < 2 → d.ownsDst (0x300F + k) = false := by
  decide

theorem witness_Unobserved :
    unobserved.mem.wf = true ∧ unobserved.status.busy = false ∧ unobserved.completed = [sobelClaim] ∧
      0x200F + ([1, 2] : List Byte).length ≤ addressSpace ∧
      (∀ c ∈ unobserved.completed, 0x200F + 2 ≤ c.src ∨ c.src + c.len ≤ 0x200F) ∧
      (∃ c ∈ unobserved.completed, c.hasDst = true ∧ c.dst ≤ 0x200F ∧ 0x200F < c.dst + c.len) := by
  decide

/-- A write into the source of an unobserved completion, while idle and while the next operation is pending: a
byte of its destination, one of no destination, and the files, which SOBEL does not write. -/
theorem witness_HostWriteStaysInside :
    (unobserved.mem.wf = true ∧ 0x100F + ([1, 2] : List Byte).length ≤ addressSpace ∧
      (∀ c ∈ unobserved.completed, c.hasDst = true → c.dst + c.len ≤ addressSpace) ∧
      newest (·.ownsDst 0x200F) unobserved = some sobelClaim ∧ sobelClaim.touchesSrc 0x100F 2 = true ∧
      newest (·.ownsDst 0x2010) unobserved = none ∧ newest (·.writesHist) unobserved = none ∧
      newest (·.writesLut) unobserved = none) ∧
      (chained.mem.wf = true ∧ (∀ c ∈ chained.completed, c.hasDst = true → c.dst + c.len ≤ addressSpace) ∧
        newest (·.ownsDst 0x2000) chained = some sobelClaim) := by
  decide

/-- The write meets the source of the unobserved SOBEL, whose destination the pending GAMMA reads. -/
theorem witness_HostWriteElsewhere :
    (chained.Inv ∧ chained.status.busy = true ∧ decode chained.cmd = .ok (.gamma .direct) ∧
      chained.ownershipKept) ∧ 0x100F + ([1, 2] : List Byte).length ≤ addressSpace ∧
      0x100F + 2 ≤ chained.srcAddr ∧ 0x100F + 2 ≤ chained.dstAddr ∧ sobelClaim.touchesSrc 0x100F 2 = true ∧
      chained.earlier = [sobelClaim] :=
  ⟨⟨inv_chained, by decide, by decide, kept_chained⟩, by decide, by decide, by decide, by decide,
    chained_earlier⟩

theorem witness_OwnershipEnds :
    unobserved.status.busy = false ∧ unobserved.status.done = true ∧ (0x2#32).getLsbD 1 = true ∧
      Ready .hist { fourGreys .hist with ien := ⟨true, false⟩ } := by
  refine ⟨rfl, rfl, by decide, ?_⟩
  have h := ready_fourGreys .hist
  exact ⟨h.memory, h.source, h.destination, ⟨h.kept.source, h.kept.destination⟩⟩

/-! ### Witnesses: commands and errors -/

/-- The n-th check is the first that fails. -/
def firstFailing (s : State) (v : Word) (n : Nat) : Prop :=
  failsCheck s v n ∧ ∀ m, 1 ≤ m → m < n → ¬ failsCheck s v m

/-- V-ERR-1 to V-ERR-8: each check of R178 as the first failing one. -/
theorem witness_CommandWrite_codes :
    firstFailing idleGreys 0x00B 1 ∧ firstFailing State.reset 0x001 2 ∧
      firstFailing { idleGreys with srcBase := 0x1002 } 0x001 3 ∧
      firstFailing { idleGreys with srcBase := 0xFFFFFFF4 } 0x007 4 ∧
      firstFailing { idleGreys with dstBase := 0x100C } 0x008 5 ∧
      firstFailing { idleGreys with clipLimit := 0, gridSize := 0 } 0x005 6 ∧
      firstFailing { idleGreys with gridSize := 0 } 0x405 7 ∧
      firstFailing { idleGreys with gamma := 0 } 0x808 8 ∧
      firstFailing { idleGreys with contrast := 0x00010001 } 0x009 9 ∧
      firstFailing { idleGreys with contrast := 0xFFFEFFFF } 0x009 9 := by
  refine ⟨?_, ?_, ?_, ?_, ?_, ?_, ?_, ?_, ?_, ?_⟩ <;>
    (refine ⟨by simp only [failsCheck]; decide, ?_⟩
     intro m h1 h2
     interval_cases m <;> (simp only [failsCheck]; decide))

/-- No check fails: the source region ends exactly at 2^32, in-place GAMMA is allowed. -/
theorem witness_CommandWrite_accepted :
    (∀ n, 1 ≤ n → n ≤ 9 → ¬ failsCheck { idleGreys with srcBase := 0xFFFFFFF0 } 0x007 n) ∧
      ∀ n, 1 ≤ n → n ≤ 9 → ¬ failsCheck { idleGreys with dstBase := 0x1000 } 0x008 n := by
  constructor <;>
    (intro n h1 h2
     interval_cases n <;> (simp only [failsCheck]; decide))

theorem witness_Rejected :
    State.reset.status.busy = false ∧ State.reset.validate 0x001 = some .E_DIM := by decide

theorem witness_Accepted : idleGreys.status.busy = false ∧ idleGreys.validate 0x006 = none := by
  decide

theorem witness_WriteWhileBusy :
    (fourGreys .hist).status.busy = true ∧ ∀ off ∈ [0x000, 0x00C, 0x02C, 0x030, 0x400, 0xBFC, 0xFFC],
      off < 4096 ∧ off % 4 = 0 ∧ off ≠ 0x004 ∧ off ≠ 0x008 :=
  ⟨rfl, by decide⟩

theorem witness_StatusWrite :
    (0xE#32).getLsbD 1 = true ∧ (0xE#32).getLsbD 2 = true ∧ (0xE#32).getLsbD 3 = true ∧
      (0#32).getLsbD 2 = false := by decide

theorem witness_EitherOrder :
    State.Inv { fourGreys .hist with inputs := [.regWrite 0x004 2, .engine] } ∧
      State.Inv { fourGreys .hist with inputs := [.engine, .regWrite 0x004 2] } ∧
      (fourGreys .hist).status.busy = true ∧ (2#32).getLsbD 1 = true :=
  ⟨inv_inputs _ _ (inv_fourGreys _), inv_inputs _ _ (inv_fourGreys _), rfl, by decide⟩

theorem witness_Irq : (0x6#32).getLsbD 1 = true ∧ (0x6#32).getLsbD 2 = true := by decide

/-! ### Witnesses: registers, memory, reset, invariants -/

theorem witness_RegistersReadBack :
    State.reset.status.busy = false ∧ isStored .THRESH ∧ isStored (.LUT 255) ∧ isStored .IEN := by
  refine ⟨rfl, ?_, ?_, ?_⟩ <;> simp [isStored]

theorem witness_RegisterWrite :
    State.reset.status.busy = false ∧ isStored .WIDTH ∧ RegName.HEIGHT ≠ .WIDTH := by
  refine ⟨rfl, by simp [isStored], by decide⟩

theorem witness_HistReadOnly : State.reset.status.busy = false := rfl

theorem witness_ReservedOffsets :
    State.reset.status.busy = false ∧ (fourGreys .hist).status.busy = true ∧
      ∀ off ∈ [0x030, 0x3FC, 0xC00, 0xFFC], off % 4 = 0 ∧
        (0x030 ≤ off ∧ off < 0x400 ∨ 0xC00 ≤ off ∧ off < 4096) := by
  decide

theorem witness_RegisterRead : ∀ off ∈ [0x000, 0xFFC], off < 4096 ∧ off % 4 = 0 := by decide

theorem witness_ReadsWhileBusy :
    (fourGreys .hist).status.busy = true ∧ fieldValue (fourGreys .hist) .THRESH = some 0x9632 ∧
      fieldValue (fourGreys .hist) .STATUS = some 1 := by
  decide

theorem witness_IdleReads :
    State.reset.status.busy = false ∧ fieldValue State.reset .THRESH = some 0x9632 := by decide

theorem witness_Pseudo :
    State.reset.status.busy = false ∧ State.reset.validate (encode .hist) = some .E_DIM := by decide

theorem witness_UnownedMemory : State.reset.mem.wf = true ∧ State.reset.claim = none ∧
    State.reset.earlier = [] ∧
    0xFFFFFFFF + ([7] : List Byte).length ≤ addressSpace := by decide

theorem witness_LittleEndian : Memory.wf [] = true ∧ 0xFFFFFFFC + 4 ≤ addressSpace := by decide

theorem witness_Rst :
    idleGreys.Inv ∧ idleGreys.status.busy = false ∧ (fourGreys .sigmoid).Inv ∧
      (fourGreys .sigmoid).status.busy = true ∧ (fourGreys .sigmoid).ownershipKept ∧
      0x1FFF < (fourGreys .sigmoid).dstAddr :=
  ⟨inv_idleGreys, rfl, inv_fourGreys _, rfl, (ready_fourGreys _).kept, by decide⟩

theorem witness_EveryStep : idleGreys.Inv ∧ step idleGreys = .next idleGreys :=
  ⟨inv_idleGreys, rfl⟩

theorem witness_EveryStep_engine :
    (fourGreys (.sobel .clamp)).Inv ∧ step (fourGreys (.sobel .clamp)) = .next unobserved :=
  ⟨inv_fourGreys _, rfl⟩

theorem witness_OnlyTheHost :
    State.Inv { idleGreys with inputs := [.memWrite 0xFFFFFFFF [1, 2]] } ∧
      State.hostLeavesMemory { idleGreys with inputs := [.memWrite 0xFFFFFFFF [1, 2]] } :=
  ⟨inv_inputs _ _ inv_idleGreys, _, _, rfl, .inr ⟨_, _, rfl, by decide⟩⟩

end Sys2Proof.Tests
end

/-! PROOF. Values of several bytes in memory (spec/00_scope.md R17, spec/20_memory.md R52). -/

namespace Sys2Proof.Machine

open Sys2Proof

/-- The bytes `MemWrite(a, n, v)` stores, least significant first (R17). -/
def leBytes (n v : Nat) : List Byte := (List.range n).map fun k => BitVec.ofNat 8 (v / 256 ^ k % 256)

theorem Memory.writeNat_eq (m : Memory) (a n v : Nat) : m.writeNat a n v = m.writeBytes a (leBytes n v) := rfl

@[simp] theorem leBytes_length (n v : Nat) : (leBytes n v).length = n := by simp [leBytes]

theorem leBytes_getElem_toNat (n v k : Nat) (hk : k < (leBytes n v).length) :
    ((leBytes n v)[k]).toNat = v / 256 ^ k % 256 := by
  simp [leBytes]

/-- The first byte is the low one; those after it are the bytes of the quotient by 256. -/
theorem leBytes_succ (n v : Nat) :
    leBytes (n + 1) v = BitVec.ofNat 8 (v % 256) :: leBytes n (v / 256) := by
  simp [leBytes, List.range_succ_eq_map, Function.comp_def, Nat.pow_succ', Nat.div_div_eq_div_mul]

/-- The little-endian value of the `n` stored bytes is what `n` bytes can hold of `v` (R52). -/
theorem littleEndian_leBytes (n v : Nat) : littleEndian (leBytes n v) = v % 256 ^ n := by
  induction n generalizing v with
  | zero => simp [leBytes, littleEndian, Nat.mod_one]
  | succ n ih => rw [leBytes_succ, littleEndian, ih, Nat.pow_succ', Nat.mod_mul]; simp

/-- Bytes stored inside the memory space read back as they were stored. -/
theorem Memory.readBytes_writeBytes (m : Memory) (hm : m.wf = true) (a : Nat) (bs : List Byte)
    (ha : a + bs.length ≤ addressSpace) : (m.writeBytes a bs).readBytes a bs.length = bs := by
  refine List.ext_getElem (by simp [Memory.readBytes]) fun k _ hk => ?_
  simp [Memory.readBytes, Memory.read_writeBytes_same bs m a k hk hm ha]

end Sys2Proof.Machine

namespace Sys2Proof.Claims

open Sys2Proof Sys2Proof.Machine

/-- Settles O55: the stored bytes are the digits of `v` to the base 256, and they read back. -/
theorem memoryIsLittleEndian : Obligations.MemoryIsLittleEndian := by
  intro m a n v hm ha
  have hlen : a + (leBytes n v).length ≤ addressSpace := by simpa using ha
  constructor
  · have hread := Memory.readBytes_writeBytes m hm a (leBytes n v) hlen
    rw [leBytes_length] at hread
    rw [Memory.readNat, Memory.writeNat_eq, hread, littleEndian_leBytes]
  · intro k hk
    rw [Memory.writeNat_eq, Memory.read_writeBytes_same _ m a k (by simpa using hk) hm hlen,
      leBytes_getElem_toNat]

end Sys2Proof.Claims

/-! PROOF. The completion of an operation that is ready: it answers a next state, with the frame of a completion
(spec/10_state.md R39, R44) and the destination pixels of its effect. -/

namespace Sys2Proof.Claims

open Sys2Proof Sys2Proof.Machine

/-- What the operation `i` leaves when it completes from `s` (R44). -/
def completionOf (i : Instr) (s : State) : State := s.finish s.dstAddr s.regionLen (effectOf i s)

theorem Ready.exec_eq {i : Instr} {s : State} (h : Ready i s) : exec i s = .next (completionOf i s) := by
  rw [exec_eq_complete]
  refine complete_eq_next _ _ ((addressable_iff _ _).2 h.source) fun hd => ?_
  rw [effectOf_dst_isSome] at hd
  exact (addressable_iff _ _).2 (h.destination hd)

/-- An operation that does not write a file leaves it unchanged (R39). -/
theorem effectOf_hist_unchanged (i : Instr) (s : State) (h : writesHist i = false) :
    (effectOf i s).hist = .unchanged := by
  match i, h with
  | .sobel _, _ | .prewitt _, _ | .laplacian _, _ | .canny _ _, _ | .gamma _, _ | .sigmoid, _
  | .lutapply, _ => rfl

theorem effectOf_lut_unchanged (i : Instr) (s : State) (h : writesLut i = false) :
    (effectOf i s).lut = .unchanged := by
  match i, h with
  | .sobel _, _ | .prewitt _, _ | .laplacian _, _ | .canny _ _, _ | .hist, _ | .lutapply, _ => rfl

/-- Outside the destination region a completion keeps every byte (R57). -/
theorem completionOf_mem_outside (i : Instr) (s : State) (a : Nat)
    (h : writesDst i = true → a < s.dstAddr ∨ s.dstAddr + s.regionLen ≤ a) :
    (completionOf i s).mem.read a = s.mem.read a := by
  refine finish_mem_outside _ _ _ _ _ fun img himg => ?_
  rw [effectOf_dst_bytes_length i s img himg]
  exact h (by rw [← effectOf_dst_isSome i s, himg]; rfl)

/-- Every completion has the frame of a completion, whatever the operation. -/
theorem completes_completionOf (i : Instr) (s : State) : Completes i s (completionOf i s) where
  status := rfl
  cmd := rfl
  ien := rfl
  srcBase := rfl
  dstBase := rfl
  width := rfl
  height := rfl
  threshLow := rfl
  threshHigh := rfl
  clipLimit := rfl
  gridSize := rfl
  gamma := rfl
  contrast := rfl
  inputs := rfl
  rdata := rfl
  mdata := rfl
  claim := rfl
  earlier := rfl
  free := rfl
  hist h := by rw [completionOf, State.finish_hist, effectOf_hist_unchanged i s h]; rfl
  lut h := by rw [completionOf, State.finish_lut, effectOf_lut_unchanged i s h]; rfl
  memory := completionOf_mem_outside i s

/-- With the ownership kept, a written file holds what the operation computes (R61). -/
theorem completionOf_hist_wrote {i : Instr} {s : State} (hk : s.ownershipKept) {v : Histogram}
    (h : (effectOf i s).hist = .wrote v) : (completionOf i s).hist = v := by
  rw [completionOf, State.finish_hist, h, hk.source]; rfl

theorem completionOf_lut_wrote {i : Instr} {s : State} (hk : s.ownershipKept) {v : Table}
    (h : (effectOf i s).lut = .wrote v) : (completionOf i s).lut = v := by
  rw [completionOf, State.finish_lut, h, hk.source]; rfl

/-- With the ownership kept, `dst(x, y)` is the pixel of the image the operation computes (R53, R61). -/
theorem dst_completionOf {i : Instr} {s : State} (h : Ready i s) {img : Image}
    (himg : (effectOf i s).dst = some img) {x y : Nat} (hxy : inImage s x y) :
    dst s (completionOf i s) x y = img.at x y := by
  obtain ⟨hw, -, hlen⟩ := effectOf_dst_shape i s img himg
  have hwrites : writesDst i = true := by rw [← effectOf_dst_isSome i s, himg]; rfl
  exact finish_pixel s h.memory h.kept _ img himg hw hlen
    ((addressable_iff _ _).2 (h.destination hwrites)) x y hxy.1 hxy.2

/-- `src(x, y)` is the pixel of the source image (R53). -/
theorem source_at_eq_src {s : State} {x y : Nat} (hxy : inImage s x y) : s.source.at x y = src s x y :=
  State.source_at s x y hxy.1 hxy.2

/-- The source image changed pixel by pixel, at a position of the image. -/
theorem mapPixels_source_at (f : Pixel → Pixel) {s : State} {x y : Nat} (hxy : inImage s x y) :
    (s.source.mapPixels f).at x y = f (src s x y) := by
  rw [Image.at_mapPixels, source_at_eq_src hxy]
  rw [State.source_length]
  exact index_lt _ _ _ _ hxy.1 hxy.2

/-- The model's table lookup is the one the statements are written with (R156). -/
theorem tableApply_eq_through (t : Table) (p : Pixel) : Table.apply t p = through t p := rfl

end Sys2Proof.Claims

/-! PROOF. The global histogram of the source image, its CDF and `CDF_min` (spec/43_equalize.md R141, R144,
R146): the model's list of counts against the counts over image positions. -/

namespace Sys2Proof.Claims

open Sys2Proof Sys2Proof.Machine

/-- Row-major indices enumerate the positions of an image of `w × h` pixels (R19). -/
theorem card_filter_rowMajor (w h : Nat) (q : Nat → Prop) [DecidablePred q] :
    ((Finset.range (w * h)).filter q).card =
      ((Finset.Ico 0 w ×ˢ Finset.Ico 0 h).filter fun p => q (p.2 * w + p.1)).card := by
  refine Finset.card_nbij' (fun k => (k % w, k / w)) (fun p => p.2 * w + p.1) ?_ ?_ ?_ ?_
  · intro k hk
    obtain ⟨hlt, hq⟩ : k < w * h ∧ q k := by simpa using hk
    have hw : 0 < w := Nat.pos_of_ne_zero (by rintro rfl; simp at hlt)
    have hx : k % w < w := Nat.mod_lt _ hw
    have hy : k / w < h := Nat.div_lt_of_lt_mul hlt
    have hindex : k / w * w + k % w = k := Nat.div_add_mod' k w
    simpa [hindex] using ⟨⟨hx, hy⟩, hq⟩
  · rintro ⟨x, y⟩ hp
    obtain ⟨⟨hx, hy⟩, hq⟩ : (x < w ∧ y < h) ∧ q (y * w + x) := by simpa using hp
    simpa using ⟨index_lt w h x y hx hy, hq⟩
  · intro k _
    exact Nat.div_add_mod' k w
  · rintro ⟨x, y⟩ hp
    obtain ⟨⟨hx, -⟩, -⟩ : (x < w ∧ y < h) ∧ q (y * w + x) := by simpa using hp
    have hw : 0 < w := by omega
    simp [Nat.add_div_of_dvd_right, Nat.add_mod, Nat.mod_eq_of_lt hx, Nat.div_eq_of_lt hx, hw]

/-- Counting the pixels of the source image is counting the positions they stand at (R19, R53). -/
theorem countP_source (s : State) (q : Pixel → Bool) :
    s.source.px.countP q =
      ((Finset.Ico 0 s.imgW ×ˢ Finset.Ico 0 s.imgH).filter fun p => q (src s p.1 p.2) = true).card := by
  have hindex := card_filter_rowMajor s.imgW s.imgH
    fun k => q (s.operandMem.pixel (s.srcAddr + 4 * k)) = true
  refine Eq.trans ?_ hindex
  rw [State.source, List.countP_map, State.pixelCount, ← Nat.count_eq_card_filter_range]
  simp [Nat.count, Function.comp_def]

/-- The histogram entry `i` is the number of source pixels in bin `i` (R141). -/
theorem histogramOf_source_getD (s : State) (i : Nat) (hi : i < 256) :
    (histogramOf s.source.px).getD i 0 = globalCount s i := by
  rw [histogramOf_getD _ _ hi, countP_source, globalCount, countIn]
  simp [bin, luma1000, binOf]

/-- The sum of the first entries of a list, entry by entry. -/
theorem sum_take_eq_sum_getD (l : List Nat) (n : Nat) :
    (l.take n).sum = ∑ j ∈ Finset.range n, l.getD j 0 := by
  induction n with
  | zero => simp
  | succ n ih =>
    rw [List.take_add_one, List.sum_append, ih, Finset.sum_range_succ, List.getD_eq_getElem?_getD]
    cases l[n]? <;> simp

/-- The model's running sums are the CDF of the global counts (R144). -/
theorem cdfOf_source_getD (s : State) (i : Nat) (hi : i < 256) :
    (cdfOf (histogramOf s.source.px)).getD i 0 = cdf (globalCount s) i := by
  rw [cdfOf_getD _ _ (by simpa using hi), sum_take_eq_sum_getD, cdf]
  refine Finset.sum_congr rfl fun j hj => histogramOf_source_getD s j ?_
  have := Finset.mem_range.1 hj
  omega

/-- No CDF entry counts more than every pixel (R144). -/
theorem cdf_globalCount_le (s : State) (i : Nat) (hi : i < 256) : cdf (globalCount s) i ≤ s.pixelCount := by
  have htake := List.sum_take_add_sum_drop (histogramOf s.source.px) (i + 1)
  rw [histogramOf_sum, State.source_length] at htake
  rw [← cdfOf_source_getD s i hi, cdfOf_getD _ _ (by simpa using hi)]
  omega

/-- The last CDF entry counts every pixel (R144). -/
theorem cdf_globalCount_last (s : State) : cdf (globalCount s) 255 = s.pixelCount := by
  rw [← cdfOf_source_getD s 255 (by omega), cdfOf_getD _ _ (by simp),
    List.take_of_length_le (by simp), histogramOf_sum, State.source_length]

theorem globalCount_le (s : State) (i : Nat) (hi : i < 256) : globalCount s i ≤ s.pixelCount := by
  rw [← histogramOf_source_getD s i hi, histogramOf_getD _ _ hi, ← State.source_length]
  exact List.countP_le_length

/-- A counter of 32 bits holds the count of any bin, as both sides of an image are below 2^16 (R25, R26). -/
theorem pixelCount_lt (s : State) : s.pixelCount < 2 ^ 32 :=
  calc s.imgW * s.imgH < 2 ^ 16 * 2 ^ 16 := Nat.mul_lt_mul'' s.width.isLt s.height.isLt
    _ = 2 ^ 32 := by norm_num

/-- The file an operation makes of the source image's histogram holds the global counts (R141). -/
theorem histogramFile_source_toNat (s : State) (i : Nat) (hi : i < 256) :
    ((histogramFile (histogramOf s.source.px))[i]).toNat = globalCount s i := by
  have hcount := globalCount_le s i hi
  have hpixels := pixelCount_lt s
  rw [histogramFile_getElem _ _ hi, histogramOf_source_getD s i hi, BitVec.toNat_ofNat,
    Nat.mod_eq_of_lt (by omega)]

/-- An image with a pixel has a first occupied bin (R146). -/
theorem exists_isCdfMin (s : State) (hn : 0 < s.pixelCount) : ∃ m, isCdfMin s m := by
  have hex : ∃ i, i < 256 ∧ 0 < globalCount s i := by
    have hsum : 0 < cdf (globalCount s) 255 := by rwa [cdf_globalCount_last]
    obtain ⟨i, hi, hpos⟩ := Finset.exists_ne_zero_of_sum_ne_zero hsum.ne'
    exact ⟨i, Finset.mem_range.1 hi, Nat.pos_of_ne_zero hpos⟩
  classical
  obtain ⟨hlt, hpos⟩ := Nat.find_spec hex
  refine ⟨_, Nat.find hex, hlt, hpos, fun j hj => ?_, rfl⟩
  by_contra hne
  exact Nat.find_min hex hj ⟨by omega, Nat.pos_of_ne_zero hne⟩

/-- The model's `CDF_min` under FIRST_NONZERO is the count of the first occupied bin (R11, R146). -/
theorem cdfMin_source (s : State) (m : Nat) (hm : isCdfMin s m) :
    cdfMin .firstNonzero (histogramOf s.source.px) = m := by
  obtain ⟨i, hi, hpos, hfirst, rfl⟩ := hm
  have hentry : ∀ j (hj : j < 256), (histogramOf s.source.px)[j]'(by simpa using hj) = globalCount s j := by
    intro j hj
    rw [← histogramOf_source_getD s j hj, List.getD_eq_getElem _ _ (by simpa using hj)]
  have hfind : (histogramOf s.source.px).find? (fun c => decide (0 < c)) = some (globalCount s i) := by
    rw [List.find?_eq_some_iff_getElem]
    refine ⟨by simpa using hpos, i, by simpa using hi, hentry i hi, fun j hj => ?_⟩
    simp [hentry j (by omega), hfirst j hj]
  simp [cdfMin, hfind]

end Sys2Proof.Claims

/-! PROOF. EQUALIZE (spec/43_equalize.md R146 to R150): the global table entry by entry, and the remap. -/

namespace Sys2Proof.Claims

open Sys2Proof Sys2Proof.Machine

theorem degenerateTable_toNat (d : Degen) (i : Nat) (hi : i < 256) :
    ((degenerateTable d)[i]).toNat = degenerate d i := by
  cases d <;> simp [degenerateTable, tableOf_getElem, degenerate, Nat.mod_eq_of_lt hi]

/-- A rounded fraction of 255 is a byte (R147). -/
theorem rhu_scaled_lt (a den : Nat) (hden : 0 < den) (ha : a ≤ den) : rhu (255 * a) den < 256 := by
  have hmono := rhu_mono (255 * a) (255 * den) den (by omega)
  rw [rhu_mul_self 255 den hden] at hmono
  omega

/-- The table EQUALIZE builds from the source image is that of R147, or of R148 where `N = CDF_min`. -/
theorem equalizeTable_toNat (d : Degen) (s : State) (m : Nat) (hm : isCdfMin s m) (i : Nat) (hi : i < 256) :
    ((equalizeTable .firstNonzero d s.source)[i]).toNat = globalEntry d s m i := by
  have hcdf := cdf_globalCount_le s i hi
  simp only [equalizeTable, globalTable, globalEntry, cdfMin_source s m hm, State.source_length]
  by_cases hden : s.pixelCount - m = 0
  · simp only [hden, if_true]
    exact degenerateTable_toNat d i hi
  · simp only [hden, if_false, tableOf_getElem _ _ hi, cdfOf_source_getD s i hi, BitVec.toNat_ofNat]
    by_cases hlow : cdf (globalCount s) i < m
    · simp [hlow]
    · have hbyte := rhu_scaled_lt (cdf (globalCount s) i - m) (s.pixelCount - m) (by omega) (by omega)
      simp only [hlow, if_false, Nat.mod_eq_of_lt hbyte]
      rw [rhu, ← Nat.mul_assoc]

/-- Settles O16: the completion writes the global histogram, the table built from it, and the source image
looked up in that table. -/
theorem equalizeRemapsThroughTheGlobalTable : Obligations.EqualizeRemapsThroughTheGlobalTable := by
  intro d s hready hn
  have hhist : (completionOf (.equalize d) s).hist = histogramFile (histogramOf s.source.px) :=
    completionOf_hist_wrote hready.kept rfl
  have hlut : (completionOf (.equalize d) s).lut = equalizeTable .firstNonzero d s.source :=
    completionOf_lut_wrote hready.kept rfl
  refine ⟨_, hready.exec_eq, completes_completionOf _ s, ?_, exists_isCdfMin s hn, ?_, ?_⟩
  · intro i hi
    rw [hhist]
    exact histogramFile_source_toNat s i hi
  · intro m hm i hi
    rw [hlut]
    exact equalizeTable_toNat d s m hm i hi
  · intro x y hxy
    rw [hlut, dst_completionOf hready rfl hxy, mapPixels_source_at _ hxy, tableApply_eq_through]
    rfl

end Sys2Proof.Claims

/-! PROOF. The register port (spec/10_state.md R20, R34, R36, R45): what a word access does at the offset of a
register, and at a reserved one. -/

namespace Sys2Proof.Machine

open Sys2Proof

/-! ### A word access is answered -/

theorem hostStep_regRead {off : Nat} (h : portOffset off = true) (s : State) :
    hostStep (.regRead off) s = .next (s.readReg (regAt off)) := by
  rw [hostStep, if_pos h]

theorem hostStep_regWrite {off : Nat} (h : portOffset off = true) (v : Word) (s : State) :
    hostStep (.regWrite off v) s = .next (s.writeReg (regAt off) v) := by
  rw [hostStep, if_pos h]

theorem hostStep_regRead_regOffset (r : RegName) (s : State) :
    hostStep (.regRead (regOffset r)) s = .next (s.readReg (some r)) := by
  rw [hostStep_regRead (portOffset_regOffset r), regAt_regOffset]

theorem hostStep_regWrite_regOffset (r : RegName) (v : Word) (s : State) :
    hostStep (.regWrite (regOffset r) v) s = .next (s.writeReg (some r) v) := by
  rw [hostStep_regWrite (portOffset_regOffset r), regAt_regOffset]

/-- No register stands at a reserved offset (R36). -/
theorem regAt_of_reserved {off : Nat} (h : 0x030 ≤ off ∧ off < 0x400 ∨ 0xC00 ≤ off ∧ off < 4096) :
    regAt off = none := by
  unfold regAt
  rcases h with ⟨hlow, hhigh⟩ | ⟨hlow, hhigh⟩
  · rw [if_neg (by omega), if_pos hhigh]
  · rw [if_neg (by omega), if_neg (by omega), if_neg (by omega), if_neg (by omega)]

/-! ### What a register write does, by BUSY (R45) -/

theorem writeReg_of_busy {s : State} (hb : s.status.busy = true) {r : Option RegName}
    (hstatus : r ≠ some .STATUS) (hien : r ≠ some .IEN) (v : Word) : s.writeReg r v = s.dropWrite := by
  rcases writeReg_cases s r v with ⟨hr, -⟩ | ⟨hr, -⟩ | ⟨-, -, -, h⟩ | ⟨hidle, -⟩ | ⟨hidle, -⟩
  · exact absurd hr hstatus
  · exact absurd hr hien
  · exact h
  · simp [hb] at hidle
  · simp [hb] at hidle

theorem writeReg_of_idle {s : State} (hb : s.status.busy = false) {q : RegName} (hstatus : q ≠ .STATUS)
    (hien : q ≠ .IEN) (v : Word) : s.writeReg (some q) v = s.writeIdle q v := by
  rcases writeReg_cases s (some q) v with ⟨hr, -⟩ | ⟨hr, -⟩ | ⟨hbusy, -⟩ | ⟨-, hr, -⟩ | ⟨-, p, hp, -, -, h⟩
  · exact absurd (Option.some.inj hr) hstatus
  · exact absurd (Option.some.inj hr) hien
  · simp [hb] at hbusy
  · cases hr
  · rw [h, Option.some.inj hp]

theorem writeReg_none_of_idle {s : State} (hb : s.status.busy = false) (v : Word) : s.writeReg none v = s := by
  simp [State.writeReg, hb]

/-- A command word that passes `validate`, written to CMD while BUSY = 0, is pending (R32). -/
theorem writeReg_CMD_accepted {s : State} {v : Word} (hb : s.status.busy = false) (hv : s.validate v = none) :
    s.writeReg (some .CMD) v = s.issue v := by
  rw [writeReg_of_idle hb (by decide) (by decide)]
  exact startCommand_accepted s v hv

/-- While BUSY = 0 the claims of completions not yet observed are all claims there are (R61). -/
theorem completed_of_idle {s : State} (hb : s.status.busy = false) : s.completed = s.earlier ++ s.claim.toList := by
  simp [State.completed, hb]

end Sys2Proof.Machine

/-! PROOF. The invariant (spec/10_state.md R33, R44, spec/20_memory.md R55, R61), kept by each thing a step can do:
the host's register and memory accesses, `rst`, and the completion. -/

namespace Sys2Proof.Machine

open Sys2Proof Sys2Proof.Claims

/-! ### Ownership records -/

/-- The destination that a record owns, if any, lies inside the memory space (R55). -/
def Claim.inMemory (c : Claim) : Prop := c.hasDst = true → c.dst + c.len ≤ addressSpace

/-- The record `c` stands in `s`, for the last command or for one before it (R61). -/
def State.holds (s : State) (c : Claim) : Prop := s.claim = some c ∨ c ∈ s.earlier

theorem State.Inv.inMemory_of_holds {s : State} (h : s.Inv) {c : Claim} (hc : s.holds c) : c.inMemory :=
  h.region c hc

/-- An observation drops all records or none (R61). -/
theorem holds_of_observed {s : State} {c : Claim} (b : Bool)
    (h : (if b then none else s.claim) = some c ∨ c ∈ (if b then [] else s.earlier)) : s.holds c := by
  cases b with
  | false => exact h
  | true => rcases h with h | h <;> cases h

/-- A host write changes in the record only what it says of host writes; the regions and files stay (R206). -/
theorem claimAfterWrite_some {s : State} {a n : Nat} {c : Claim} (h : s.claim = some c) :
    ∃ hit hits o, s.claimAfterWrite a n = some { c with srcHit := hit, dstHit := hits, seen := o } := by
  unfold State.claimAfterWrite
  cases s.status.busy with
  | false => exact ⟨c.srcHit, c.dstHit, c.seen, h⟩
  | true =>
    obtain ⟨o, ho⟩ := holdOperands_eq s a n c
    rw [if_pos rfl, h, Option.map_some, ho]
    exact ⟨_, _, o, rfl⟩

theorem claimAfterWrite_none {s : State} {a n : Nat} (h : s.claim = none) : s.claimAfterWrite a n = none := by
  simp [State.claimAfterWrite, h]

/-- A state with nothing pending meets the invariant if its memory, flags and records do. -/
theorem inv_of_idle {s : State} (hb : s.status.busy = false) (hm : s.mem.wf = true) (hf : s.status.legal = true)
    (hr : ∀ c, s.holds c → c.inMemory) : s.Inv where
  memory := hm
  flags := hf
  pending h := by simp [hb] at h
  owner h := by simp [hb] at h
  region := hr

/-- The schedule is no part of the invariant. -/
theorem inv_withInputs {s : State} (h : s.Inv) (l : List HostStep) : State.Inv { s with inputs := l } where
  memory := h.memory
  flags := h.flags
  pending := h.pending
  owner := h.owner
  region := h.region

/-! ### Register accesses -/

theorem acknowledge_legal {s : State} (h : s.status.legal = true) (d e w : Bool) :
    (s.acknowledge d e w).status.legal = true := by
  rw [Status.legal_iff] at h ⊢
  obtain ⟨hbusy, hdone, herr, hcode⟩ := h
  cases e with
  | true => simp +contextual [State.acknowledge, hbusy]
  | false => simp +contextual [State.acknowledge, hbusy, hdone, herr, hcode]

theorem inv_writeStatus {s : State} (h : s.Inv) (v : Word) : (s.writeStatus v).Inv where
  memory := h.memory
  flags := acknowledge_legal h.flags _ _ _
  pending := h.pending
  owner := h.owner
  region := h.region

theorem inv_dropWrite {s : State} (h : s.Inv) : s.dropWrite.Inv where
  memory := h.memory
  flags := h.flags
  pending := h.pending
  owner := h.owner
  region := h.region

/-- While BUSY = 1 no IEN write observes a completion, so the pending operation keeps its record. -/
theorem inv_writeIen {s : State} (h : s.Inv) (v : Word) : (s.writeIen v).Inv where
  memory := h.memory
  flags := h.flags
  pending := h.pending
  owner hb := by
    obtain ⟨i, c, hi, hc, hrest⟩ := h.owner hb
    have hno : s.ienObserves (Ien.ofWord v) = false := by
      rw [State.ienObserves, show s.status.busy = true from hb]; rfl
    exact ⟨i, c, hi, by rw [State.writeIen_claim, hno]; exact hc, hrest⟩
  region _ hc := h.inMemory_of_holds (holds_of_observed _ hc)

/-- While BUSY = 1 no read observes a completion, so the pending operation keeps its record. -/
theorem inv_readReg {s : State} (h : s.Inv) (r : Option RegName) : (s.readReg r).Inv where
  memory := h.memory
  flags := h.flags
  pending := h.pending
  owner hb := by
    obtain ⟨i, c, hi, hc, hrest⟩ := h.owner hb
    have hno : s.readObserves r = false := by
      rw [State.readObserves, show s.status.busy = true from hb]; exact Bool.and_false _
    exact ⟨i, c, hi, by rw [State.readReg_claim, hno]; exact hc, hrest⟩
  region _ hc := h.inMemory_of_holds (holds_of_observed _ hc)

/-! ### Starting a command (R32) -/

/-- A rejected command reports a code of R177 and nothing else (R176). -/
theorem rejected_legal {s : State} (hb : s.status.busy = false) (v : Word) (e : InvalidInput) :
    ((s.present v).raiseInvalidInput e).status.legal = true := by
  obtain ⟨hlow, hhigh⟩ := e.code_range
  rw [Status.legal_iff]
  refine ⟨by simp [hb], by simp, ⟨fun _ h0 => ?_, fun _ => rfl⟩, hhigh⟩
  simp [show e.code = 0 from h0] at hlow

theorem issue_legal (s : State) (v : Word) : (s.issue v).status.legal = true := by
  simp [Status.legal_iff]

/-- The claim of an accepted command. -/
theorem issue_claim {s : State} {v : Word} {i : Instr} (h : decode v = .ok i) :
    (s.issue v).claim = some (s.claimFor i) := by
  simp [State.issue, h]

/-- An accepted command owns regions inside the memory space (R55, R178). -/
theorem claimFor_inMemory {s : State} {i : Instr} (h : s.validateInstr i = none) : (s.claimFor i).inMemory :=
  fun hdst => (addressable_iff _ _).1 ((addressable_of_validateInstr s i h).2 hdst)

theorem inv_issue {s : State} (h : s.Inv) {v : Word} (hv : s.validate v = none) : (s.issue v).Inv := by
  obtain ⟨i, hi, hinstr⟩ := decode_of_validate s v hv
  exact
    { memory := h.memory
      flags := issue_legal s v
      pending := fun _ => hv
      owner := fun _ => ⟨i, s.claimFor i, hi, issue_claim hi, rfl, rfl, rfl, rfl, rfl, rfl, rfl⟩
      region := fun c hc => by
        rcases hc with hc | hc
        · rw [issue_claim hi] at hc
          exact Option.some.inj hc ▸ claimFor_inMemory hinstr
        · exact h.inMemory_of_holds (mem_completed s c hc) }

theorem inv_startCommand {s : State} (h : s.Inv) (hb : s.status.busy = false) (v : Word) :
    (s.startCommand v).Inv := by
  cases hv : s.validate v with
  | none => rw [startCommand_accepted s v hv]; exact inv_issue h hv
  | some e =>
    rw [startCommand_rejected s v e hv]
    exact inv_of_idle hb h.memory (rejected_legal hb v e) h.region

theorem inv_writeIdle {s : State} (h : s.Inv) (hb : s.status.busy = false) (r : RegName) (v : Word) :
    (s.writeIdle r v).Inv := by
  cases r with
  | CMD => exact inv_startCommand h hb v
  | _ => exact inv_of_idle hb h.memory h.flags h.region

theorem inv_writeReg {s : State} (h : s.Inv) (r : Option RegName) (v : Word) : (s.writeReg r v).Inv := by
  rcases writeReg_cases s r v with ⟨-, e⟩ | ⟨-, e⟩ | ⟨-, -, -, e⟩ | ⟨-, -, e⟩ | ⟨hb, q, -, -, -, e⟩ <;> rw [e]
  · exact inv_writeStatus h v
  · exact inv_writeIen h v
  · exact inv_dropWrite h
  · exact h
  · exact inv_writeIdle h hb q v

/-! ### Memory accesses and `rst` -/

theorem inv_hostRead {s : State} (h : s.Inv) (a n : Nat) : (s.hostRead a n).Inv where
  memory := h.memory
  flags := h.flags
  pending := h.pending
  owner := h.owner
  region := h.region

/-- A host write changes memory, the files and what the pending operation's record says of host writes; its
regions stay (R61, R206). -/
theorem inv_hostWrite {s : State} (h : s.Inv) {a : Nat} {bs : List Byte} (ha : addressable a bs.length = true) :
    (s.hostWrite a bs).Inv := by
  have hwf := hostWrite_wf s h.memory h.region a bs ha
  obtain ⟨m, hist, lut, free, e⟩ := hostWrite_eq s a bs
  rw [e] at hwf ⊢
  exact
    { memory := hwf
      flags := h.flags
      pending := h.pending
      owner := fun hb => by
        obtain ⟨i, c, hi, hc, hregions⟩ := h.owner hb
        obtain ⟨hit, hits, o, hd⟩ := claimAfterWrite_some (a := a) (n := bs.length) hc
        exact ⟨i, _, hi, hd, hregions⟩
      region := fun c hc => by
        rcases hc with hc | hc
        · cases hs : s.claim with
          | none => rw [claimAfterWrite_none hs] at hc; cases hc
          | some b =>
            obtain ⟨hit, hits, o, hd⟩ := claimAfterWrite_some (a := a) (n := bs.length) hs
            obtain rfl := Option.some.inj (hd.symm.trans hc)
            exact h.region b (.inl hs)
        · exact h.region c (.inr hc) }

theorem inv_assertReset {s : State} (h : s.Inv) : s.assertReset.Inv := by
  refine inv_of_idle rfl (memAfterReset_wf s h.memory h.pending) rfl fun c hc => ?_
  rcases hc with hc | hc
  · cases hc
  · obtain ⟨d, hd, rfl⟩ := List.mem_map.1 hc
    have hin : d.inMemory := h.inMemory_of_holds (mem_completed s d hd)
    exact hin

/-- Every host step that answers a next state keeps the invariant. -/
theorem inv_hostStep {s t : State} (hs : s.Inv) (h : HostStep) (ht : hostStep h s = .next t) : t.Inv := by
  cases h with
  | regRead off =>
    by_cases hp : portOffset off = true
    · rw [hostStep_regRead hp] at ht
      injection ht with ht
      exact ht ▸ inv_readReg hs _
    · simp [hostStep, hp] at ht
  | regWrite off v =>
    by_cases hp : portOffset off = true
    · rw [hostStep_regWrite hp] at ht
      injection ht with ht
      exact ht ▸ inv_writeReg hs _ v
    · simp [hostStep, hp] at ht
  | narrow off n => cases ht
  | memRead a n =>
    simp only [hostStep] at ht
    split at ht
    · injection ht with ht
      exact ht ▸ inv_hostRead hs a n
    · cases ht
  | memWrite a bs =>
    simp only [hostStep] at ht
    split at ht
    · rename_i ha
      injection ht with ht
      exact ht ▸ inv_hostWrite hs ha
    · cases ht
  | wait => injection ht with ht; exact ht ▸ inv_readReg hs _
  | rst => injection ht with ht; exact ht ▸ inv_assertReset hs
  | engine => injection ht with ht; exact ht ▸ hs

/-! ### The completion (R44) -/

theorem runPending_of_decode {s : State} {i : Instr} (h : decode s.cmd = .ok i) : runPending s = exec i s := by
  simp [runPending, h]

/-- From a state that meets the invariant the engine's turn completes the operation of CMD: it never stops (R44,
R55). -/
theorem State.Inv.exec_eq {s : State} (h : s.Inv) (hb : s.status.busy = true) {i : Instr}
    (hi : decode s.cmd = .ok i) : exec i s = .next (completionOf i s) := by
  obtain ⟨j, hj, hinstr⟩ := decode_of_validate s s.cmd (h.pending hb)
  obtain rfl : j = i := Except.ok.inj (hj.symm.trans hi)
  obtain ⟨hsrc, hdst⟩ := addressable_of_validateInstr s j hinstr
  rw [exec_eq_complete]
  exact complete_eq_next _ _ hsrc fun hd => hdst (effectOf_dst_isSome j s ▸ hd)

theorem State.Inv.decode_pending {s : State} (h : s.Inv) (hb : s.status.busy = true) :
    ∃ i, decode s.cmd = .ok i :=
  have ⟨i, hi, _⟩ := decode_of_validate s s.cmd (h.pending hb)
  ⟨i, hi⟩

theorem State.Inv.runPending_eq {s : State} (h : s.Inv) (hb : s.status.busy = true) :
    ∃ i, decode s.cmd = .ok i ∧ runPending s = .next (completionOf i s) := by
  obtain ⟨i, hi⟩ := h.decode_pending hb
  exact ⟨i, hi, (runPending_of_decode hi).trans (h.exec_eq hb hi)⟩

/-- BUSY excludes ERR (R33), so a completion reports DONE alone. -/
theorem completionOf_legal {s : State} (h : s.status.legal = true) (hb : s.status.busy = true) (i : Instr) :
    (completionOf i s).status.legal = true := by
  rw [Status.legal_iff] at h ⊢
  obtain ⟨hbusy, -, herr, hcode⟩ := h
  obtain ⟨-, hnoerr⟩ := hbusy hb
  rw [(completes_completionOf i s).status]
  exact ⟨nofun, fun _ => hnoerr, herr, hcode⟩

theorem completionOf_holds {s : State} {i : Instr} {c : Claim} (hc : (completionOf i s).holds c) :
    ∃ d, s.holds d ∧ c.hasDst = d.hasDst ∧ c.dst = d.dst ∧ c.len = d.len := by
  have hframe := completes_completionOf i s
  rw [State.holds, hframe.claim, hframe.earlier, State.claimAfterCompletion, State.earlierAfterCompletion] at hc
  cases hie : s.ien.doneIe with
  | true => simp [hie] at hc
  | false =>
    rw [hie] at hc
    rcases hc with hc | hc
    · obtain ⟨d, hd, rfl⟩ := Option.map_eq_some_iff.1 hc
      exact ⟨d, .inl hd, rfl, rfl, rfl⟩
    · exact ⟨c, .inr hc, rfl, rfl, rfl⟩

theorem inv_completionOf {s : State} (h : s.Inv) (hb : s.status.busy = true) {i : Instr}
    (hi : decode s.cmd = .ok i) : (completionOf i s).Inv := by
  obtain ⟨-, -, hdst⟩ := complete_next _ _ _ ((exec_eq_complete i s).symm.trans (h.exec_eq hb hi))
  refine inv_of_idle rfl (finish_mem_wf s h.memory _ _ _ fun img himg => ?_) (completionOf_legal h.flags hb i)
    fun c hc => ?_
  · rw [effectOf_dst_bytes_length i s img himg]
    exact (addressable_iff _ _).1 (hdst (by rw [himg]; rfl))
  · obtain ⟨d, hd, hhas, hdst, hlen⟩ := completionOf_holds hc
    rw [Claim.inMemory, hhas, hdst, hlen]
    exact h.inMemory_of_holds hd

theorem inv_runPending {s t : State} (h : s.Inv) (hb : s.status.busy = true) (ht : runPending s = .next t) :
    t.Inv := by
  obtain ⟨i, hi, e⟩ := h.runPending_eq hb
  rw [e] at ht
  injection ht with ht
  exact ht ▸ inv_completionOf h hb hi

/-! ### One step -/

/-- Whose turn a step is: nobody's, the engine's, or that of the host step at the head of the schedule. -/
theorem step_turn (s : State) :
    (s.inputs = [] ∧ step s = .next s) ∨
      (s.status.busy = true ∧ (∀ h rest, s.inputs = h :: rest → h = .engine) ∧
        ∃ l, step s = runPending { s with inputs := l }) ∨
      ∃ h rest l, s.inputs = h :: rest ∧ step s = hostStep h { s with inputs := l } := by
  rcases step_cases s with ⟨hi, -, e⟩ | ⟨hb, hi, e⟩ | ⟨hb, rest, hi, e⟩ | ⟨-, rest, hi, e⟩ | ⟨-, rest, hi, e⟩ |
    ⟨h, rest, hi, -, -, e⟩
  · exact .inl ⟨hi, e⟩
  · refine .inr (.inl ⟨hb, ?_, s.inputs, e⟩)
    simp [hi]
  · refine .inr (.inl ⟨hb, ?_, rest, e⟩)
    simp +contextual [hi]
  · exact .inr (.inr ⟨_, rest, rest, hi, e⟩)
  · exact .inr (.inr ⟨_, rest, _, hi, e⟩)
  · exact .inr (.inr ⟨h, rest, rest, hi, e⟩)

end Sys2Proof.Machine

namespace Sys2Proof.Claims

open Sys2Proof Sys2Proof.Machine

/-- Settles O59: nothing happens, the engine completes, or the host acts, and each keeps the invariant. -/
theorem everyStepKeepsTheInvariant : Obligations.EveryStepKeepsTheInvariant := by
  intro s t hs ht
  rcases step_turn s with ⟨-, e⟩ | ⟨hb, -, l, e⟩ | ⟨h, rest, l, -, e⟩ <;> rw [e] at ht
  · injection ht with ht
    exact ht ▸ hs
  · exact inv_runPending (inv_withInputs hs l) hb ht
  · exact inv_hostStep (inv_withInputs hs l) h ht

end Sys2Proof.Claims

/-! PROOF. Registers as words (spec/10_state.md R22 to R38): the places of the fields, and what a written register
reads back. -/

namespace Sys2Proof.Machine

open Sys2Proof

/-! ### Fields at their places -/

/-- A byte at bits 15:8 above a value of one byte. -/
theorem or_shift_toNat (w : Word) (hw : w.toNat < 256) (hi : Byte) :
    (w ||| (hi.setWidth 32 <<< 8)).toNat = w.toNat + 256 * hi.toNat := by
  have hbyte : hi.toNat < 2 ^ 8 := hi.isLt
  have hshift : (hi.setWidth 32 <<< 8).toNat = 2 ^ 8 * hi.toNat := by
    rw [BitVec.toNat_shiftLeft, BitVec.toNat_setWidth, Nat.shiftLeft_eq]
    omega
  rw [BitVec.toNat_or, hshift, Nat.or_comm, ← Nat.two_pow_add_eq_or_of_lt (by simpa using hw)]
  omega

theorem flags_toNat (busy done err wrbusy : Bool) :
    (flagWord busy 0 ||| flagWord done 1 ||| flagWord err 2 ||| flagWord wrbusy 3).toNat =
      busy.toNat + 2 * done.toNat + 4 * err.toNat + 8 * wrbusy.toNat := by
  revert busy done err wrbusy
  decide

/-- The places of the fields of STATUS (R33). -/
theorem Status.word_toNat (st : Status) :
    st.word.toNat =
      st.busy.toNat + 2 * st.done.toNat + 4 * st.err.toNat + 8 * st.wrbusy.toNat + 256 * st.errcode.toNat := by
  have hflags := flags_toNat st.busy st.done st.err st.wrbusy
  rw [Status.word, or_shift_toNat, hflags]
  have h0 := st.busy.toNat_le
  have h1 := st.done.toNat_le
  have h2 := st.err.toNat_le
  have h3 := st.wrbusy.toNat_le
  omega

/-- The places of the fields of IEN (R35). -/
theorem Ien.word_toNat (e : Ien) : e.word.toNat = 2 * e.doneIe.toNat + 4 * e.errIe.toNat := by
  have hflags := flags_toNat false e.doneIe e.errIe false
  simpa [Ien.word, flagWord] using hflags

/-- The places of the fields of THRESH (R27). -/
theorem thresh_toNat (low high : Byte) :
    (low.setWidth 32 ||| (high.setWidth 32 <<< 8)).toNat = low.toNat + 256 * high.toNat := by
  have hlow : (low.setWidth 32).toNat = low.toNat := by
    rw [BitVec.toNat_setWidth]
    omega
  rw [or_shift_toNat _ (by rw [hlow]; exact low.isLt), hlow]

/-! ### The stored bits of a written word -/

/-- The low `n` bits of a word. -/
theorem and_lowMask_toNat (v : Word) (n : Nat) (hn : n ≤ 32) :
    (v &&& BitVec.ofNat 32 (2 ^ n - 1)).toNat = v.toNat % 2 ^ n := by
  have hle : 2 ^ n ≤ 2 ^ 32 := Nat.pow_le_pow_right (by decide) hn
  have hpos : 0 < 2 ^ n := Nat.two_pow_pos n
  rw [BitVec.toNat_and, BitVec.toNat_ofNat, Nat.mod_eq_of_lt (by omega), Nat.and_two_pow_sub_one_eq_mod]

/-- A field of the low `n` bits reads back with the other bits 0 (R22). -/
theorem setWidth_extractLow (v : Word) (n : Nat) (hn : n ≤ 32) :
    (v.extractLsb' 0 n).setWidth 32 = v &&& BitVec.ofNat 32 (2 ^ n - 1) := by
  apply BitVec.eq_of_toNat_eq
  have hle : 2 ^ n ≤ 2 ^ 32 := Nat.pow_le_pow_right (by decide) hn
  have hpos : 0 < 2 ^ n := Nat.two_pow_pos n
  have hlt : v.toNat % 2 ^ n < 2 ^ n := Nat.mod_lt _ hpos
  rw [and_lowMask_toNat v n hn, BitVec.toNat_setWidth, BitVec.extractLsb'_toNat, Nat.shiftRight_zero]
  exact Nat.mod_eq_of_lt (by omega)

/-- The two fields of THRESH read back together (R27). -/
theorem thresh_readBack (v : Word) :
    (v.extractLsb' 0 8).setWidth 32 ||| ((v.extractLsb' 8 8).setWidth 32 <<< 8) =
      v &&& BitVec.ofNat 32 (2 ^ 16 - 1) := by
  apply BitVec.eq_of_toNat_eq
  rw [thresh_toNat, and_lowMask_toNat v 16 (by decide), BitVec.extractLsb'_toNat, BitVec.extractLsb'_toNat,
    Nat.shiftRight_eq_div_pow]
  omega

/-- A flag taken from a bit of `v` and put back there is that bit of `v`. -/
theorem flagWord_getLsbD (v : Word) (pos : Nat) : flagWord (v.getLsbD pos) pos = v &&& BitVec.twoPow 32 pos := by
  have hbit : BitVec.ofNat 32 (2 ^ pos) = BitVec.twoPow 32 pos :=
    BitVec.eq_of_toNat_eq (by rw [BitVec.toNat_twoPow, BitVec.toNat_ofNat])
  rw [BitVec.and_twoPow, flagWord, hbit]
  rfl

/-- IEN reads back its two bits (R35). -/
theorem ien_readBack (v : Word) : (Ien.ofWord v).word = v &&& 0x00000006 := by
  have hmask : BitVec.twoPow 32 1 ||| BitVec.twoPow 32 2 = 0x00000006 := by decide
  rw [Ien.word, Ien.ofWord, flagWord_getLsbD, flagWord_getLsbD, ← BitVec.and_or_distrib_left, hmask]

theorem and_allStored (v : Word) : v &&& 0xFFFFFFFF = v := BitVec.and_allOnes

end Sys2Proof.Machine

namespace Sys2Proof.Claims

open Sys2Proof Sys2Proof.Machine

/-! ### Register values -/

/-- A register of the kind that has fields reads them at their places, whatever BUSY is (R22, R33, R35, R46). -/
theorem regValue_toNat {s : State} {r : RegName} {n : Nat} (h : fieldValue s r = some n) :
    (s.regValue r).toNat = n := by
  cases r with
  | STATUS => exact (Status.word_toNat _).trans (Option.some.inj h)
  | IEN => exact (Ien.word_toNat _).trans (Option.some.inj h)
  | THRESH => exact (thresh_toNat _ _).trans (Option.some.inj h)
  | WIDTH | HEIGHT | GRID_SIZE =>
    rw [← Option.some.inj h]
    exact BitVec.toNat_setWidth_of_le (by decide)
  | HIST i | LUT i => cases h
  | _ => exact Option.some.inj h

/-- A read of a register at its offset returns the register's value. -/
theorem regRead_rdata (s : State) (r : RegName) :
    ∃ t, hostStep (.regRead (regOffset r)) s = .next t ∧ t.rdata = s.regValue r :=
  ⟨_, hostStep_regRead_regOffset r s, rfl⟩

theorem regRead_fieldValue {s : State} {r : RegName} {n : Nat} (h : fieldValue s r = some n) :
    ∃ t, hostStep (.regRead (regOffset r)) s = .next t ∧ t.rdata.toNat = n := by
  obtain ⟨t, ht, hrdata⟩ := regRead_rdata s r
  exact ⟨t, ht, hrdata ▸ regValue_toNat h⟩

/-! ### Writes to the registers that store a value -/

section

variable {s : State} {r : RegName} (hb : s.status.busy = false) (hr : isStored r) (v : Word)

include hb hr

/-- Such a write goes to IEN, or is an idle write of another register. -/
theorem writeReg_of_isStored :
    (r = .IEN ∧ s.writeReg (some r) v = s.writeIen v) ∨
      (r ≠ .IEN ∧ s.writeReg (some r) v = s.writeIdle r v) := by
  obtain ⟨-, hstatus, -⟩ := hr
  by_cases hien : r = .IEN
  · exact .inl ⟨hien, by rw [hien]; rfl⟩
  · exact .inr ⟨hien, writeReg_of_idle hb hstatus hien v⟩

/-- Such a write leaves memory, STATUS, HIST and CMD as they were (R22, R38). -/
theorem writeReg_isStored_frame :
    (s.writeReg (some r) v).mem = s.mem ∧ (s.writeReg (some r) v).status = s.status ∧
      (s.writeReg (some r) v).hist = s.hist ∧ (s.writeReg (some r) v).cmd = s.cmd := by
  rcases writeReg_of_isStored hb hr v with ⟨-, e⟩ | ⟨-, e⟩ <;> rw [e]
  · exact ⟨rfl, rfl, rfl, rfl⟩
  · obtain ⟨hcmd, -, -⟩ := hr
    cases r with
    | CMD => exact absurd rfl hcmd
    | _ => exact ⟨rfl, rfl, rfl, rfl⟩

/-- The written register holds the bits it stores (R22 to R38). -/
theorem regValue_writeReg_same : (s.writeReg (some r) v).regValue r = v &&& storedBits r := by
  rcases writeReg_of_isStored hb hr v with ⟨rfl, e⟩ | ⟨hien, e⟩ <;> rw [e]
  · exact ien_readBack v
  · obtain ⟨hcmd, hstatus, hhist⟩ := hr
    cases r with
    | CMD => exact absurd rfl hcmd
    | STATUS => exact absurd rfl hstatus
    | IEN => exact absurd rfl hien
    | HIST i => exact absurd rfl (hhist i)
    | WIDTH | HEIGHT | GRID_SIZE => exact setWidth_extractLow v 16 (by decide)
    | THRESH => exact thresh_readBack v
    | LUT i =>
      simp only [State.writeIdle, State.regValue, hb, Bool.false_eq_true, if_false, Vector.getElem_set_self]
      exact setWidth_extractLow v 8 (by decide)
    | _ => exact (and_allStored v).symm

/-- Every other register keeps its value: each reads fields of its own (R22). -/
theorem regValue_writeReg_other {q : RegName} (hq : q ≠ r) :
    (s.writeReg (some r) v).regValue q = s.regValue q := by
  rcases writeReg_of_isStored hb hr v with ⟨rfl, e⟩ | ⟨hien, e⟩ <;> rw [e]
  · cases q <;> simp [State.regValue, hb] at hq ⊢
  · obtain ⟨hcmd, hstatus, hhist⟩ := hr
    cases r with
    | CMD => exact absurd rfl hcmd
    | LUT i =>
      cases q with
      | LUT j =>
        have hij : i.val ≠ j.val := fun h => hq (by rw [Fin.ext h])
        simp only [State.writeIdle, State.regValue, hb, Bool.false_eq_true, if_false,
          Vector.getElem_set_ne _ _ hij]
      | _ => rfl
    | _ => cases q <;> simp [State.writeIdle, State.regValue, hb] at hq ⊢

end

/-! ### The obligations -/

/-- Settles O46: the frame of a stored write, and the other registers. -/
theorem registerWriteChangesThatRegisterOnly : Obligations.RegisterWriteChangesThatRegisterOnly := by
  intro s r q v hb hr hq
  exact ⟨_, hostStep_regWrite_regOffset r v s, regValue_writeReg_other hb hr v hq,
    writeReg_isStored_frame hb hr v⟩

/-- Settles O45: the read after the write returns the register's value, which is the stored bits. -/
theorem registersReadBackTheStoredBits : Obligations.RegistersReadBackTheStoredBits := by
  intro s r v hb hr
  exact ⟨_, _, hostStep_regWrite_regOffset r v s, hostStep_regRead_regOffset r _,
    regValue_writeReg_same hb hr v⟩

/-- Settles O41: off STATUS and IEN the write is dropped. -/
theorem writeWhileBusyIsDropped : Obligations.WriteWhileBusyIsDropped := by
  intro s off v hb hlt halign hstatus hien
  have hport : portOffset off = true := (portOffset_iff off).2 ⟨hlt, halign⟩
  rw [hostStep_regWrite hport, writeReg_of_busy hb (fun h => hstatus (regAt_eq_some off hport _ h))
    (fun h => hien (regAt_eq_some off hport _ h))]
  rfl

/-- Settles O42: the write is an acknowledgement of the flags whose bits are 1. -/
theorem statusWriteClearsTheNamedFlags : Obligations.StatusWriteClearsTheNamedFlags := by
  intro s v
  refine ⟨s.writeStatus v, hostStep_regWrite_regOffset .STATUS v s, rfl, rfl, ?_, ?_, ?_, ?_, ?_⟩ <;>
    simp +contextual [State.writeStatus, State.acknowledge]

/-- Settles O47: the offset is that of HIST[i], whose idle write does nothing. -/
theorem histIsReadOnlyForTheHost : Obligations.HistIsReadOnlyForTheHost := by
  intro s i v hb
  have hstep := hostStep_regWrite_regOffset (.HIST i) v s
  rwa [writeReg_of_idle hb (by simp) (by simp)] at hstep

/-- Settles O48: no register stands at a reserved offset. -/
theorem reservedOffsetsReadZeroAndIgnoreWrites : Obligations.ReservedOffsetsReadZeroAndIgnoreWrites := by
  intro s off v halign hreserved
  have hport : portOffset off = true := (portOffset_iff off).2 ⟨by omega, halign⟩
  have hnone : regAt off = none := regAt_of_reserved hreserved
  rw [hostStep_regRead hport, hostStep_regWrite hport, hnone]
  refine ⟨⟨_, rfl, rfl⟩, fun hb => ?_, fun hb => ?_⟩
  · rw [writeReg_none_of_idle hb]
  · rw [writeReg_of_busy hb (by decide) (by decide)]
    rfl

/-- Settles O49: only fields of the model's own differ after a read. -/
theorem registerReadHasNoSideEffect : Obligations.RegisterReadHasNoSideEffect := by
  intro s off hlt halign
  exact ⟨_, hostStep_regRead ((portOffset_iff off).2 ⟨hlt, halign⟩) s, rfl⟩

/-- Settles O50: the fields read as when idle, and the byte of a LUT entry is zero-extended. -/
theorem readsWhileBusy : Obligations.ReadsWhileBusy := by
  intro s hb
  refine ⟨fun r n h => regRead_fieldValue h, fun i => ?_, fun i => ?_⟩
  · obtain ⟨t, ht, hrdata⟩ := regRead_rdata s (.LUT i)
    refine ⟨t, ht, ?_⟩
    rw [hrdata, State.regValue, BitVec.toNat_setWidth_of_le (by decide)]
    exact BitVec.isLt _
  · obtain ⟨t, ht, -⟩ := regRead_rdata s (.HIST i)
    exact ⟨t, ht⟩

/-- Settles O51: while BUSY = 0 HIST and LUT read their entries, no free value. -/
theorem idleReadsReturnTheFields : Obligations.IdleReadsReturnTheFields := by
  intro s hb
  refine ⟨fun r n h => regRead_fieldValue h, fun i hi => ?_, fun i hi => ?_⟩
  · obtain ⟨t, ht, hrdata⟩ := regRead_rdata s (.HIST ⟨i, hi⟩)
    refine ⟨t, ht, ?_⟩
    rw [hrdata, State.regValue, if_neg (by simp [hb])]
  · obtain ⟨t, ht, hrdata⟩ := regRead_rdata s (.LUT ⟨i, hi⟩)
    refine ⟨t, ht, ?_⟩
    rw [hrdata, State.regValue, if_neg (by simp [hb]), BitVec.toNat_setWidth_of_le (by decide)]

end Sys2Proof.Claims

/-! PROOF. The schedule (spec/10_state.md R42, R44, spec/70_reset_and_hazards.md R214): which step is whose, when a
step stops, and the steps from an accepted command to its completion. -/

namespace Sys2Proof.Machine

open Sys2Proof Sys2Proof.Claims

/-! ### One turn at the head of the schedule -/

theorem step_engine {s : State} {rest : List HostStep} (hb : s.status.busy = true)
    (hi : s.inputs = .engine :: rest) : step s = runPending { s with inputs := rest } := by
  simp [step, nextTurn, hi, hb]

theorem step_default {s : State} (hb : s.status.busy = true) (hi : s.inputs = []) : step s = runPending s := by
  simp [step, nextTurn, hi, hb]

theorem step_idle {s : State} (hb : s.status.busy = false) (hi : s.inputs = []) : step s = .next s := by
  simp [step, nextTurn, hi, hb]

theorem step_regWrite {s : State} {r : RegName} {v : Word} {rest : List HostStep}
    (hi : s.inputs = .regWrite (regOffset r) v :: rest) :
    step s = .next (State.writeReg { s with inputs := rest } (some r) v) := by
  rw [← hostStep_regWrite_regOffset]
  simp [step, nextTurn, hi]

/-- From a state that meets the invariant the engine's turn while BUSY = 1 is the completion of the pending
operation. -/
theorem State.Inv.step_engine_eq {s : State} (h : s.Inv) (hb : s.status.busy = true) {rest : List HostStep}
    (hi : s.inputs = .engine :: rest) :
    ∃ i, decode s.cmd = .ok i ∧ step s = .next (completionOf i { s with inputs := rest }) := by
  rw [step_engine hb hi]
  exact (inv_withInputs h rest).runPending_eq hb

theorem run_two {s t u : State} (hst : step s = .next t) (htu : step t = .next u) :
    Sys2Proof.core.run 2 s = .next u := by
  rw [run_succ 1 s t hst, run_succ 0 t u htu, run_zero]

/-! ### Where a step stops -/

/-- A register-port access that is not a word access of the window (R20, M9). -/
def misusesPort (h : HostStep) : Prop :=
  (∃ off, h = .regRead off ∧ portOffset off = false) ∨ (∃ off v, h = .regWrite off v ∧ portOffset off = false) ∨
    (∃ off n, h = .narrow off n)

/-- A host memory access that leaves the memory space (R50). -/
def leavesMemory (h : HostStep) : Prop :=
  (∃ a n, h = .memRead a n ∧ addressable a n = false) ∨
    (∃ a bs, h = .memWrite a bs ∧ addressable a bs.length = false)

theorem hostMisusesPort_iff (s : State) :
    s.hostMisusesPort ↔ ∃ h rest, s.inputs = h :: rest ∧ misusesPort h := Iff.rfl

theorem hostLeavesMemory_iff (s : State) :
    s.hostLeavesMemory ↔ ∃ h rest, s.inputs = h :: rest ∧ leavesMemory h := Iff.rfl

theorem hostStep_refused_iff (h : HostStep) (s : State) :
    (∃ r, hostStep h s = .refused r) ↔ misusesPort h := by
  cases h with
  | regRead off => cases hp : portOffset off <;> simp [hostStep, misusesPort, hp]
  | regWrite off v => cases hp : portOffset off <;> simp [hostStep, misusesPort, hp]
  | memRead a n => cases ha : addressable a n <;> simp [hostStep, misusesPort, ha]
  | memWrite a bs => cases ha : addressable a bs.length <;> simp [hostStep, misusesPort, ha]
  | _ => simp [hostStep, misusesPort]

theorem hostStep_fault_iff (h : HostStep) (s : State) :
    (∃ r, hostStep h s = .fault r) ↔ leavesMemory h := by
  cases h with
  | regRead off => cases hp : portOffset off <;> simp [hostStep, leavesMemory, hp]
  | regWrite off v => cases hp : portOffset off <;> simp [hostStep, leavesMemory, hp]
  | memRead a n => cases ha : addressable a n <;> simp [hostStep, leavesMemory, ha]
  | memWrite a bs => cases ha : addressable a bs.length <;> simp [hostStep, leavesMemory, ha]
  | _ => simp [hostStep, leavesMemory]

/-- The engine's turn is never refused: every operation has a meaning. -/
theorem runPending_not_refused (s : State) (r : Refusal) : runPending s ≠ .refused r := by
  unfold runPending
  split
  · rw [exec_eq_complete]
    exact complete_not_refused _ s r
  · nofun

end Sys2Proof.Machine

namespace Sys2Proof.Claims

open Sys2Proof Sys2Proof.Machine

/-- Settles O58: nothing is pending and no record stands. -/
theorem invariantHoldsAtReset : Obligations.InvariantHoldsAtReset :=
  inv_of_idle rfl Memory.wf_nil rfl (by rintro c (hc | hc) <;> cases hc)

/-- Settles O8: the turn is nobody's. -/
theorem idleBlockStaysAsItIs : Obligations.IdleBlockStaysAsItIs :=
  fun _ hi hb => step_idle hb hi

/-- Settles O6: scheduled or by default, the engine's turn runs what CMD decodes to. -/
theorem engineTurnRunsThePendingOperation : Obligations.EngineTurnRunsThePendingOperation := by
  intro s i hb hdecode
  refine ⟨fun rest hi => ?_, fun hi => ?_⟩
  · rw [step_engine hb hi]
    exact runPending_of_decode hdecode
  · rw [step_default hb hi]
    exact runPending_of_decode hdecode

/-- Settles O40: the accepted word is pending, with the record of its operation. -/
theorem acceptedCommandOnlySetsBusy : Obligations.AcceptedCommandOnlySetsBusy := by
  intro s v hb hv
  obtain ⟨i, hi, -⟩ := decode_of_validate s v hv
  refine ⟨s.claimFor i, ?_, rfl, rfl, rfl, rfl, rfl, rfl⟩
  have hstep := hostStep_regWrite_regOffset .CMD v s
  rw [writeReg_CMD_accepted hb hv] at hstep
  rw [← issue_claim hi, ← completed_of_idle hb]
  exact hstep

/-- Settles O7: the write leaves the command pending, which the engine's turn then completes. -/
theorem acceptedCommandCompletesOnTheEngineTurn : Obligations.AcceptedCommandCompletesOnTheEngineTurn := by
  intro s v rest hinv hb hv hi
  obtain ⟨i, hdecode, -⟩ := decode_of_validate s v hv
  have hstep : step s = .next (State.issue { s with inputs := .engine :: rest } v) :=
    (step_regWrite (r := .CMD) hi).trans (congrArg _ (writeReg_CMD_accepted hb hv))
  have hissue := everyStepKeepsTheInvariant _ _ hinv hstep
  have hexec := (inv_withInputs hissue rest).exec_eq rfl hdecode
  refine ⟨_, _, i, hstep, rfl, rfl, hdecode, ?_, hexec, rfl, rfl, rfl⟩
  rw [step_engine rfl rfl, ← hexec]
  exact runPending_of_decode hdecode

/-- Settles O43: a STATUS write leaves the operation pending, and clears what a completion before it set. -/
theorem statusWriteAndCompletionInEitherOrder : Obligations.StatusWriteAndCompletionInEitherOrder := by
  intro s v rest hinv hb
  constructor
  · intro hi
    have hwrite := step_regWrite (r := .STATUS) hi
    have hinv' := everyStepKeepsTheInvariant _ _ hinv hwrite
    obtain ⟨i, -, hcomplete⟩ := hinv'.step_engine_eq hb rfl
    exact ⟨_, run_two hwrite hcomplete, rfl, rfl⟩
  · intro hi hbit
    obtain ⟨i, -, hcomplete⟩ := hinv.step_engine_eq hb hi
    refine ⟨_, run_two hcomplete (step_regWrite (r := .STATUS) rfl), rfl, ?_⟩
    simp [State.writeReg, State.writeStatus, State.acknowledge, hbit]

/-- Settles O52: the engine's turn is never refused, and a host step exactly where it misuses the port. -/
theorem onlyPortMisuseIsRefused : Obligations.OnlyPortMisuseIsRefused := by
  intro s
  rw [hostMisusesPort_iff]
  rcases step_turn s with ⟨hi, e⟩ | ⟨-, hengine, l, e⟩ | ⟨h, rest, l, hi, e⟩ <;> rw [e]
  · simp [hi]
  · refine ⟨fun ⟨r, hr⟩ => absurd hr (runPending_not_refused _ r), fun ⟨h, rest, hi, hm⟩ => ?_⟩
    simp [hengine h rest hi, misusesPort] at hm
  · rw [hostStep_refused_iff]
    simp [hi]

/-- Settles O60: a pending operation that meets the invariant completes, and a host step faults exactly where it
leaves memory. -/
theorem onlyTheHostCanLeaveMemory : Obligations.OnlyTheHostCanLeaveMemory := by
  intro s hinv
  rw [hostLeavesMemory_iff]
  rcases step_turn s with ⟨hi, e⟩ | ⟨hb, hengine, l, e⟩ | ⟨h, rest, l, hi, e⟩ <;> rw [e]
  · simp [hi]
  · obtain ⟨i, -, hcomplete⟩ := (inv_withInputs hinv l).runPending_eq hb
    rw [hcomplete]
    refine ⟨nofun, fun ⟨h, rest, hi, hm⟩ => ?_⟩
    simp [hengine h rest hi, leavesMemory] at hm
  · rw [hostStep_fault_iff]
    simp [hi]

end Sys2Proof.Claims

/-! PROOF. Memory accesses of the host (spec/20_memory.md R50, R61, spec/70_reset_and_hazards.md R206): which bytes
a record owns, what a read returns, and what a write leaves in each byte, file and record. -/

namespace Sys2Proof.Machine

open Sys2Proof Sys2Proof.Claims

/-! ### An access inside memory is answered -/

theorem hostStep_memRead {a n : Nat} (h : a + n ≤ addressSpace) (s : State) :
    hostStep (.memRead a n) s = .next (s.hostRead a n) := by
  rw [hostStep, if_pos ((addressable_iff a n).2 h)]

theorem hostStep_memWrite {a : Nat} {bs : List Byte} (h : a + bs.length ≤ addressSpace) (s : State) :
    hostStep (.memWrite a bs) s = .next (s.hostWrite a bs) := by
  rw [hostStep, if_pos ((addressable_iff a bs.length).2 h)]

/-! ### The bytes a record owns -/

theorem Claim.ownsDst_iff (c : Claim) (j : Nat) :
    c.ownsDst j = true ↔ c.hasDst = true ∧ c.dst ≤ j ∧ j < c.dst + c.len := by
  simp [Claim.ownsDst, and_assoc]

/-- A range meets the source region when one of its bytes lies there. -/
theorem Claim.touchesSrc_iff (c : Claim) (a n : Nat) :
    c.touchesSrc a n = true ↔ ∃ k, k < n ∧ c.src ≤ a + k ∧ a + k < c.src + c.len := by
  rw [Claim.touchesSrc, decide_eq_true_iff]
  constructor
  · intro h
    exact ⟨max a c.src - a, by omega, by omega, by omega⟩
  · rintro ⟨k, hk, hlow, hhigh⟩
    omega

theorem Claim.touchesSrc_of_apart {c : Claim} {a n : Nat} (h : a + n ≤ c.src ∨ c.src + c.len ≤ a) :
    c.touchesSrc a n = false := by
  rw [Claim.touchesSrc, decide_eq_false_iff_not]
  omega

/-- A completion that owns a byte of a pending operation's source feeds it (R58, R61). -/
theorem Claim.feeds_of_ownsDst {c d : Claim} {j : Nat} (h : c.ownsDst j = true) (hlow : d.src ≤ j)
    (hhigh : j < d.src + d.len) : c.feeds d = true := by
  obtain ⟨hdst, hfirst, hlast⟩ := (c.ownsDst_iff j).1 h
  have htouch : d.touchesSrc c.dst c.len = true :=
    (d.touchesSrc_iff _ _).2 ⟨j - c.dst, by omega, by omega, by omega⟩
  simp [Claim.feeds, hdst, htouch]

/-- The destination bytes recorded are those before and those of the write that the record owns (R206). -/
theorem Claim.recordWrite_dstHit_contains (c : Claim) (a n j : Nat) :
    (c.recordWrite a n).dstHit.contains j = true ↔
      c.dstHit.contains j = true ∨ (a ≤ j ∧ j < a + n ∧ c.ownsDst j = true) := by
  have hrange : (∃ k, k < n ∧ a + k = j) ↔ a ≤ j ∧ j < a + n :=
    ⟨by rintro ⟨k, hk, rfl⟩; omega, fun h => ⟨j - a, by omega, by omega⟩⟩
  simp [Claim.recordWrite, hrange, and_assoc]

theorem completed_of_busy {s : State} (hb : s.status.busy = true) : s.completed = s.earlier := by
  simp [State.completed, hb]

theorem completed_of_unclaimed {s : State} (hclaim : s.claim = none) (hearlier : s.earlier = []) :
    s.completed = [] := by
  simp [State.completed, hclaim, hearlier]

/-! ### What a read returns -/

@[simp] theorem State.hostRead_mdata_length (s : State) (a n : Nat) : (s.hostRead a n).mdata.length = n := by
  simp [State.hostRead]

theorem State.hostRead_mdata_getElem? (s : State) (a : Nat) {n k : Nat} (hk : k < n) :
    (s.hostRead a n).mdata[k]? = some (s.hostByte s.pendingBytes n k (a + k)) := by
  simp [State.hostRead, hk]

theorem pendingByte_of_unclaimed {s : State} (h : s.claim = none) (bs : List Byte) (k j : Nat) :
    s.pendingByte bs k j = s.mem.read j := by
  simp [State.pendingByte, h]

theorem pendingByte_of_idle {s : State} (h : s.status.busy = false) (bs : List Byte) (k j : Nat) :
    s.pendingByte bs k j = s.mem.read j := by
  cases hc : s.claim <;> simp [State.pendingByte, hc, h]

theorem pendingByte_of_not_ownsDst {s : State} {c : Claim} (hc : s.claim = some c) {j : Nat}
    (h : c.ownsDst j = false) (bs : List Byte) (k : Nat) : s.pendingByte bs k j = s.mem.read j := by
  simp [State.pendingByte, hc, h]

/-- With no source byte written, the pending operation's destination reads old or new (R206). -/
theorem pendingByte_cases {s : State} {c : Claim} (hc : s.claim = some c) (hsrc : s.srcHit = false)
    (bs : List Byte) (k j : Nat) :
    s.pendingByte bs k j = s.mem.read j ∨
      (c.ownsDst j = true ∧ s.pendingByte bs k j = bs.getD (j - c.dst) Config.unlistedByte) := by
  have hhit : c.srcHit = false := by simpa [State.srcHit, hc] using hsrc
  by_cases hown : (s.status.busy && c.ownsDst j) = true
  · by_cases hchoice : Config.freeChoice (s.free + k) = true
    · exact .inl (by simp [State.pendingByte, hc, hchoice])
    · exact .inr ⟨(Bool.and_eq_true_iff.1 hown).2, by simp [State.pendingByte, hc, hown, hchoice, hhit]⟩
  · exact .inl (by simp [State.pendingByte, hc, hown])

/-- A byte read is the present one or that from before an unobserved completion that owns it (R206). -/
theorem hostByte_cases (s : State) (bs : List Byte) (n k j : Nat) :
    s.hostByte bs n k j = s.pendingByte bs k j ∨
      ∃ c ∈ s.completed, c.ownsDst j = true ∧ s.hostByte bs n k j = c.before.read j :=
  lateByte_cases j n s.completed _ _

theorem hostByte_of_unowned {s : State} {j : Nat} (h : ∀ c ∈ s.completed, c.ownsDst j = false) (bs : List Byte)
    (n k : Nat) : s.hostByte bs n k j = s.pendingByte bs k j :=
  lateByte_of_unowned j n _ s.completed h _

/-- Memory nobody owns reads as it is (R50). -/
theorem hostRead_mdata_of_unowned {s : State} (hclaim : s.claim = none) (hnone : s.completed = []) (a n : Nat) :
    (s.hostRead a n).mdata = s.mem.readBytes a n := by
  refine List.map_congr_left fun k _ => ?_
  rw [hostByte_of_unowned (by simp [hnone]), pendingByte_of_unclaimed hclaim]

/-! ### What a write leaves in the record -/

theorem claimAfterWrite_of_idle {s : State} (hb : s.status.busy = false) (a n : Nat) :
    s.claimAfterWrite a n = s.claim := by
  simp [State.claimAfterWrite, hb]

theorem claimAfterWrite_of_busy {s : State} {c : Claim} (hb : s.status.busy = true) (hc : s.claim = some c)
    (a n : Nat) : s.claimAfterWrite a n = some ((s.holdOperands a n c).recordWrite a n) := by
  simp [State.claimAfterWrite, hb, hc]

theorem hostWrite_claim (s : State) (a : Nat) (bs : List Byte) :
    (s.hostWrite a bs).claim = s.claimAfterWrite a bs.length := by
  obtain ⟨m, h, l, f, e⟩ := hostWrite_eq s a bs
  rw [e]

/-- A host write changes memory, the two files, the record of a pending operation and the free-value counter. -/
theorem hostWrite_frame (s : State) (a : Nat) (bs : List Byte) :
    s.hostWrite a bs = { s with
      mem := (s.hostWrite a bs).mem
      hist := (s.hostWrite a bs).hist
      lut := (s.hostWrite a bs).lut
      claim := (s.hostWrite a bs).claim
      free := (s.hostWrite a bs).free } := by
  obtain ⟨m, h, l, f, e⟩ := hostWrite_eq s a bs
  rw [e]

/-! ### What storing leaves in memory -/

theorem storeBytes_read_outside (s : State) {a : Nat} {bs : List Byte} {j : Nat} (h : j < a ∨ a + bs.length ≤ j) :
    (s.storeBytes a bs).mem.read j = s.mem.read j :=
  Memory.read_writeBytes_other _ _ _ _ (by simpa using h)

/-- A stored byte is the host's, or inside the destination of an unobserved completion may stay the engine's
(R206). -/
theorem storeBytes_read_inside {s : State} (hm : s.mem.wf = true) {a : Nat} {bs : List Byte}
    (ha : a + bs.length ≤ addressSpace) {k : Nat} (hk : k < bs.length) :
    (s.storeBytes a bs).mem.read (a + k) = bs[k] ∨
      ((∃ c ∈ s.completed, c.ownsDst (a + k) = true) ∧
        (s.storeBytes a bs).mem.read (a + k) = s.mem.read (a + k)) := by
  have hread : (s.storeBytes a bs).mem.read (a + k) = s.mixedByte k (a + k) bs[k] := by
    rw [State.storeBytes, Memory.read_writeBytes_same _ _ _ k (by simpa using hk) hm (by simpa using ha),
      List.getElem_mapIdx]
  rw [hread, State.mixedByte]
  split
  · rename_i hkeep
    exact .inr ⟨List.any_eq_true.1 (Bool.and_eq_true_iff.1 hkeep).1, rfl⟩
  · exact .inl rfl

/-! ### What a write leaves in memory and the files, also where it meets the source of an unobserved completion -/

section

variable {s : State} {a : Nat} {bs : List Byte} (hm : s.mem.wf = true) (ha : a + bs.length ≤ addressSpace)
  (hr : ∀ c ∈ s.completed, c.hasDst = true → c.dst + c.len ≤ addressSpace)

include hm ha hr

/-- A byte whose newest writer's source the write does not meet is what storing leaves there. -/
theorem hostWrite_read_of_settled {j : Nat}
    (h : ∀ c, newest (·.ownsDst j) s = some c → c.touchesSrc a bs.length = false) :
    (s.hostWrite a bs).mem.read j = (s.storeBytes a bs).mem.read j := by
  obtain ⟨-, -, hread, -, -⟩ := unsettleTouched_spec a bs.length s.completed (s.storeBytes a bs)
    (storeBytes_wf s hm a bs ((addressable_iff _ _).2 ha)) hr
  exact hread j h

/-- A byte whose newest writer's source the write meets is a free value. -/
theorem hostWrite_read_of_unsettled {j : Nat} {c : Claim} (hc : newest (·.ownsDst j) s = some c)
    (h : c.touchesSrc a bs.length = true) : ∃ n, (s.hostWrite a bs).mem.read j = Config.freeByte n := by
  obtain ⟨-, hfree, -, -, -⟩ := unsettleTouched_spec a bs.length s.completed (s.storeBytes a bs)
    (storeBytes_wf s hm a bs ((addressable_iff _ _).2 ha)) hr
  exact hfree j c hc h

theorem hostWrite_hist_of_settled
    (h : ∀ c, newest (·.writesHist) s = some c → c.touchesSrc a bs.length = false) :
    (s.hostWrite a bs).hist = s.hist := by
  obtain ⟨-, -, -, hhist, -⟩ := unsettleTouched_spec a bs.length s.completed (s.storeBytes a bs)
    (storeBytes_wf s hm a bs ((addressable_iff _ _).2 ha)) hr
  exact hhist h

theorem hostWrite_lut_of_settled
    (h : ∀ c, newest (·.writesLut) s = some c → c.touchesSrc a bs.length = false) :
    (s.hostWrite a bs).lut = s.lut := by
  obtain ⟨-, -, -, -, hlut⟩ := unsettleTouched_spec a bs.length s.completed (s.storeBytes a bs)
    (storeBytes_wf s hm a bs ((addressable_iff _ _).2 ha)) hr
  exact hlut h

end

/-! ### What a read of STATUS shows -/

/-- Bit 0 of STATUS is BUSY (R33). -/
theorem Status.word_getLsbD_zero (st : Status) : st.word.getLsbD 0 = st.busy := by
  have hword := st.word_toNat
  have hbit : st.word.toNat % 2 = st.busy.toNat := by
    have := st.busy.toNat_le
    omega
  rw [BitVec.getLsbD, Nat.testBit_zero, hbit]
  cases st.busy <;> rfl

end Sys2Proof.Machine

namespace Sys2Proof.Claims

open Sys2Proof Sys2Proof.Machine

/-- Settles O54: with no record the write stores its bytes and the read returns memory's. -/
theorem unownedMemoryReadsBackWhatWasWritten : Obligations.UnownedMemoryReadsBackWhatWasWritten := by
  intro s a bs hm hclaim hearlier ha
  have hnone : s.completed = [] := completed_of_unclaimed hclaim hearlier
  have hclaim' : (s.storeBytes a bs).claim = none := claimAfterWrite_none hclaim
  have hnone' : (s.storeBytes a bs).completed = [] := completed_of_unclaimed hclaim' hearlier
  have hmem : (s.storeBytes a bs).mem = s.mem.writeBytes a bs := storeBytes_mem_of_unowned s a bs (by simp [hnone])
  have hwrite := hostStep_memWrite ha s
  rw [hostWrite_of_untouched s a bs (by simp [hnone])] at hwrite
  refine ⟨_, _, hwrite, hostStep_memRead ha _, ?_, fun j hj => storeBytes_read_outside s hj⟩
  rw [hostRead_mdata_of_unowned hclaim' hnone', hmem, Memory.readBytes_writeBytes s.mem hm a bs ha]

/-- Settles O34: the write is stored as it stands, as it meets no source region. -/
theorem unobservedDestinationByteIsTheHostsOrTheEngines :
    Obligations.UnobservedDestinationByteIsTheHostsOrTheEngines := by
  intro s a bs hm hb ha hapart
  have hstore : s.hostWrite a bs = s.storeBytes a bs :=
    hostWrite_of_untouched s a bs fun c hc => Claim.touchesSrc_of_apart (hapart c hc)
  refine ⟨_, hostStep_memWrite ha s, ?_, fun k hk => ?_, fun j hj => ?_⟩ <;> rw [hstore]
  · rw [State.storeBytes, claimAfterWrite_of_idle hb]
  · simpa only [Claim.ownsDst_iff] using storeBytes_read_inside hm ha hk
  · exact storeBytes_read_outside s hj

/-- Settles O35: what a write leaves, byte by byte and file by file. -/
theorem hostWriteStaysInsideTheUnobservedResults : Obligations.HostWriteStaysInsideTheUnobservedResults := by
  intro s a bs hm ha hr
  refine ⟨_, hostStep_memWrite ha s, hostWrite_frame s a bs, fun hb => ?_, fun j hj hnew => ?_,
    fun k hk hnew => ?_, fun j c => hostWrite_read_of_unsettled hm ha hr, hostWrite_hist_of_settled hm ha hr,
    hostWrite_lut_of_settled hm ha hr⟩
  · rw [hostWrite_claim, claimAfterWrite_of_idle hb]
  · rw [hostWrite_read_of_settled hm ha hr hnew, storeBytes_read_outside s hj]
  · rw [hostWrite_read_of_settled hm ha hr hnew]
    exact storeBytes_read_inside hm ha hk

/-- Settles O33: the write meets no earlier completion, so it is stored as it stands and recorded. -/
theorem hostWriteWhileBusyIsStoredAndRecorded : Obligations.HostWriteWhileBusyIsStoredAndRecorded := by
  intro s c a bs hm hb hc ha hoff
  have huntouched : ∀ d ∈ s.completed, d.touchesSrc a bs.length = false := by
    rw [completed_of_busy hb]
    exact fun d hd => (hoff d hd).1
  have hunowned : ∀ k, k < bs.length → s.completed.any (·.ownsDst (a + k)) = false := by
    intro k hk
    rw [completed_of_busy hb, List.any_eq_false]
    exact fun d hd => by simp [(hoff d hd).2 k hk]
  have hstore : s.hostWrite a bs = s.storeBytes a bs := hostWrite_of_untouched s a bs huntouched
  have hmem : (s.storeBytes a bs).mem = s.mem.writeBytes a bs := storeBytes_mem_of_unowned s a bs hunowned
  have hclaim : (s.storeBytes a bs).claim = some (c.recordWrite a bs.length) := by
    rw [State.storeBytes_claim, claimAfterWrite_of_busy hb hc, holdOperands_of_untouched _ _ _ _ huntouched]
  refine ⟨_, c.recordWrite a bs.length, hostStep_memWrite ha s, ?_, rfl, fun k hk => ?_, fun j hj => ?_, ?_,
    fun j => ?_⟩ <;> rw [hstore]
  · rw [← hclaim]
    rfl
  · rw [hmem, Memory.read_writeBytes_same bs _ _ k hk hm ha]
  · exact storeBytes_read_outside s hj
  · rw [State.srcHit, State.srcHit, hclaim, hc]
    simp only [Claim.recordWrite_srcHit, Bool.or_eq_true, Claim.touchesSrc_iff]
  · rw [State.dstHit, State.dstHit, hclaim, hc]
    simp only [Claim.recordWrite_dstHit_contains, Claim.ownsDst_iff]

/-- Settles O37: each observation drops the records of the last command and of those before it. -/
theorem ownershipEndsWhenTheCompletionIsObserved : Obligations.OwnershipEndsWhenTheCompletionIsObserved := by
  refine ⟨fun s hb => ?_, fun i s hready hie => ?_, fun s v hb hdone hbit => ?_⟩
  · have hobs : s.readObserves (some .STATUS) = true := by simp [State.readObserves, hb]
    refine ⟨_, hostStep_regRead_regOffset .STATUS s, ?_, ?_, (Status.word_getLsbD_zero _).trans hb⟩
    · rw [State.readReg_claim, hobs, if_pos rfl]
    · rw [State.readReg_earlier, hobs, if_pos rfl]
  · have hframe := completes_completionOf i s
    refine ⟨_, hready.exec_eq, ?_, ?_, ?_⟩
    · simp [State.irq, hframe.status, hframe.ien, hie]
    · rw [hframe.claim, State.claimAfterCompletion, if_pos hie]
    · rw [hframe.earlier, State.earlierAfterCompletion, if_pos hie]
  · have hobs : s.ienObserves (Ien.ofWord v) = true := by simp [State.ienObserves, Ien.ofWord, hb, hdone, hbit]
    refine ⟨_, hostStep_regWrite_regOffset .IEN v s, ?_, ?_, ?_⟩
    · simp [State.writeReg, State.irq, Ien.ofWord, hdone, hbit]
    · rw [State.writeReg, State.writeIen_claim, if_pos hobs]
    · rw [State.writeReg, State.writeIen_earlier, if_pos hobs]

end Sys2Proof.Claims

/-! PROOF. The pending operation and the host (spec/20_memory.md R61, spec/70_reset_and_hazards.md R206, R212): the
record of the pending operation, the bytes its completion leaves in the destination, and what the host reads before
and after it. -/

namespace Sys2Proof.Claims

open Sys2Proof Sys2Proof.Machine

/-! ### The record of the pending operation -/

/-- `c` is the record of the pending operation `i`: it names that operation's regions and its use of LUT (R51,
R61). -/
structure RecordOf (i : Instr) (s : State) (c : Claim) : Prop where
  claim : s.claim = some c
  src : c.src = s.srcAddr
  dst : c.dst = s.dstAddr
  len : c.len = s.regionLen
  hasDst : c.hasDst = writesDst i
  readsLut : c.readsLut = readsLut i

theorem exists_recordOf {i : Instr} {s : State} (h : s.Inv) (hb : s.status.busy = true)
    (hi : decode s.cmd = .ok i) : ∃ c, RecordOf i s c := by
  obtain ⟨j, c, hj, hc, hsrc, hdst, hlen, hhas, -, -, hreads⟩ := h.owner hb
  obtain rfl : j = i := Except.ok.inj (hj.symm.trans hi)
  exact ⟨c, hc, hsrc, hdst, hlen, hhas, hreads⟩

theorem RecordOf.ownsDst_iff {i : Instr} {s : State} {c : Claim} (h : RecordOf i s c) (j : Nat) :
    c.ownsDst j = true ↔ writesDst i = true ∧ s.dstAddr ≤ j ∧ j < s.dstAddr + s.regionLen := by
  rw [Claim.ownsDst_iff, h.hasDst, h.dst, h.len]

theorem RecordOf.not_ownsDst {i : Instr} {s : State} {c : Claim} (h : RecordOf i s c) {j : Nat}
    (hj : writesDst i = true → j < s.dstAddr ∨ s.dstAddr + s.regionLen ≤ j) : c.ownsDst j = false := by
  rw [Bool.eq_false_iff]
  intro hown
  obtain ⟨hw, hlow, hhigh⟩ := (h.ownsDst_iff j).1 hown
  have := hj hw
  omega

/-! ### The completion of a pending operation with the ownership kept -/

/-- A pending operation whose ownership the host kept can complete (R32, R61). -/
theorem ready_of_inv {i : Instr} {s : State} (h : s.Inv) (hb : s.status.busy = true) (hi : decode s.cmd = .ok i)
    (hk : s.ownershipKept) : Ready i s := by
  obtain ⟨j, hj, hvalid⟩ := decode_of_validate s s.cmd (h.pending hb)
  obtain rfl : j = i := Except.ok.inj (hj.symm.trans hi)
  obtain ⟨hsrc, hdst⟩ := addressable_of_validateInstr s j hvalid
  exact ⟨h.memory, (addressable_iff _ _).1 hsrc, fun hw => (addressable_iff _ _).1 (hdst hw), hk⟩

/-- An operation with a destination computes an image for it (R58). -/
theorem exists_dst_image {i : Instr} (h : writesDst i = true) (s : State) :
    ∃ img, (effectOf i s).dst = some img :=
  Option.isSome_iff_exists.1 ((effectOf_dst_isSome i s).trans h)

/-- With the ownership kept, a destination byte is that of the image the operation computes (R53, R61). -/
theorem completionOf_read_dst {i : Instr} {s : State} (h : Ready i s) {img : Image}
    (himg : (effectOf i s).dst = some img) {k : Nat} (hk : k < s.regionLen) :
    (completionOf i s).mem.read (s.dstAddr + k) = img.bytes.getD k Config.unlistedByte := by
  have hlen := effectOf_dst_bytes_length i s img himg
  have hwrites : writesDst i = true := by rw [← effectOf_dst_isSome i s, himg]; rfl
  rw [completionOf, finish_mem_of_kept s h.kept _ _ _ img himg,
    Memory.read_writeBytes_same _ _ _ k (hlen ▸ hk) h.memory (hlen ▸ h.destination hwrites),
    List.getD_eq_getElem _ _ (hlen ▸ hk)]

theorem pendingBytes_eq {i : Instr} {s : State} (hi : decode s.cmd = .ok i) {img : Image}
    (himg : (effectOf i s).dst = some img) : s.pendingBytes = img.bytes := by
  simp [State.pendingBytes, hi, himg]

/-- With the ownership kept, the pending operation's byte reads as before or as after the completion (R206). -/
theorem pendingByte_old_or_new {i : Instr} {s : State} {c : Claim} (hready : Ready i s)
    (hi : decode s.cmd = .ok i) (hc : RecordOf i s c) (k j : Nat) :
    s.pendingByte s.pendingBytes k j = s.mem.read j ∨
      s.pendingByte s.pendingBytes k j = (completionOf i s).mem.read j := by
  rcases pendingByte_cases hc.claim hready.kept.source s.pendingBytes k j with hold | ⟨hown, hnew⟩
  · exact .inl hold
  · right
    obtain ⟨hwrites, hlow, hhigh⟩ := (hc.ownsDst_iff j).1 hown
    obtain ⟨img, himg⟩ := exists_dst_image hwrites s
    have hread := completionOf_read_dst hready himg (k := j - s.dstAddr) (by omega)
    rw [Nat.add_sub_cancel' hlow] at hread
    rw [hnew, pendingBytes_eq hi himg, hc.dst, hread]

/-- Settles O31: the pending operation's byte is old or new, over which an earlier completion's may still lie. -/
theorem hostReadsOldOrNewDestinationBytes : Obligations.HostReadsOldOrNewDestinationBytes := by
  intro s a n hinv hb hkept ha
  obtain ⟨i, hi, hrun⟩ := hinv.runPending_eq hb
  obtain ⟨c, hc⟩ := exists_recordOf hinv hb hi
  refine ⟨_, _, hostStep_memRead ha s, hrun, rfl, by simp, fun k hk => ?_⟩
  simp only [State.hostRead_mdata_getElem? s a hk, Option.some.injEq]
  constructor
  · rcases hostByte_cases s s.pendingBytes n k (a + k) with hbyte | ⟨e, he, hown, hbyte⟩
    · rw [hbyte]
      exact (pendingByte_old_or_new (ready_of_inv hinv hb hi hkept) hi hc k (a + k)).imp_right .inl
    · exact .inr (.inr ⟨e, completed_of_busy hb ▸ he, hown, hbyte⟩)
  · intro hout hunowned
    rw [hostByte_of_unowned (completed_of_busy hb ▸ hunowned),
      pendingByte_of_not_ownsDst hc.claim (hc.not_ownsDst fun _ => hout)]

/-! ### Between the completion and its observation -/

/-- After the completion, an unobserved one is the operation's own, with the memory from before, or an earlier one
(R61). -/
theorem completed_completionOf {i : Instr} {s : State} {c d : Claim} (hc : s.claim = some c)
    (hd : d ∈ (completionOf i s).completed) :
    d = { c with before := s.mem, seen := none } ∨ d ∈ s.earlier := by
  have hframe := completes_completionOf i s
  have hidle : (completionOf i s).status.busy = false := by rw [hframe.status]
  rw [completed_of_idle hidle, hframe.claim, hframe.earlier, State.claimAfterCompletion,
    State.earlierAfterCompletion, hc] at hd
  cases hie : s.ien.doneIe with
  | true => simp [hie] at hd
  | false =>
    rw [hie] at hd
    rcases List.mem_append.1 hd with hd | hd
    · exact .inr hd
    · exact .inl (List.mem_singleton.1 hd)

/-- Settles O32: nothing is pending, so a byte is the present one or that from before an unobserved completion. -/
theorem hostReadsBeforeObservationAreOldOrNew : Obligations.HostReadsBeforeObservationAreOldOrNew := by
  intro i s a n hinv hb hi ha
  obtain ⟨c, hc⟩ := exists_recordOf hinv hb hi
  have hidle : (completionOf i s).status.busy = false := by rw [(completes_completionOf i s).status]
  refine ⟨_, _, hinv.exec_eq hb hi, hostStep_memRead ha _, rfl, by simp, fun k hk => ?_⟩
  simp only [State.hostRead_mdata_getElem? _ a hk, Option.some.injEq]
  constructor
  · rcases hostByte_cases (completionOf i s) (completionOf i s).pendingBytes n k (a + k) with
      hbyte | ⟨d, hd, hown, hbyte⟩
    · exact .inl (hbyte.trans (pendingByte_of_idle hidle _ _ _))
    · rcases completed_completionOf hc.claim hd with rfl | hd
      · obtain ⟨hwrites, hlow, hhigh⟩ := (hc.ownsDst_iff _).1 hown
        exact .inr (.inl ⟨hwrites, hlow, hhigh, hbyte⟩)
      · exact .inr (.inr ⟨d, hd, hown, hbyte⟩)
  · intro hout hunowned
    have hnone : ∀ d ∈ (completionOf i s).completed, d.ownsDst (a + k) = false := by
      intro d hd
      rcases completed_completionOf hc.claim hd with rfl | hd
      · exact hc.not_ownsDst hout
      · exact hunowned d hd
    rw [hostByte_of_unowned hnone, pendingByte_of_idle hidle, completionOf_mem_outside i s _ hout]

/-! ### Operations with the same operands -/

/-- `s` and `t` name one destination for the operation and give it the same operands (R79, R212); the parameters
stand for every operation at once. -/
structure SameOperands (i : Instr) (s t : State) : Prop where
  dstBase : t.dstBase = s.dstBase
  width : t.width = s.width
  height : t.height = s.height
  threshLow : t.threshLow = s.threshLow
  threshHigh : t.threshHigh = s.threshHigh
  clipLimit : t.clipLimit = s.clipLimit
  gridSize : t.gridSize = s.gridSize
  gamma : t.gamma = s.gamma
  contrast : t.contrast = s.contrast
  source : t.source = s.source
  lut : readsLut i = true → t.operandLut = s.operandLut

/-- The source image is that of the bytes of the source region (R53). -/
theorem source_congr {s t : State} (hbase : t.srcBase = s.srcBase) (hwidth : t.width = s.width)
    (hheight : t.height = s.height)
    (h : ∀ j, s.srcAddr ≤ j → j < s.srcAddr + s.regionLen → t.operandMem.read j = s.operandMem.read j) :
    t.source = s.source := by
  have hpixels : ∀ p, p < s.pixelCount →
      t.operandMem.pixel (s.srcAddr + 4 * p) = s.operandMem.pixel (s.srcAddr + 4 * p) := by
    intro p hp
    have hread : ∀ k, k < 4 →
        t.operandMem.read (s.srcAddr + 4 * p + k) = s.operandMem.read (s.srcAddr + 4 * p + k) :=
      fun k hk => h _ (by omega) (by rw [State.regionLen]; omega)
    simp only [Memory.pixel, hread 1, hread 2, hread 3, Nat.reduceLT]
    exact congrArg (Pixel.mk · _ _ _) (hread 0 (by decide))
  simp only [State.source, State.imgW, State.imgH, State.pixelCount, State.srcAddr, hbase, hwidth, hheight]
  congr 1
  exact List.map_congr_left fun p hp => hpixels p (List.mem_range.1 hp)

section

variable {i : Instr} {s t : State} (h : SameOperands i s t)

include h

/-- An operation computes its effect from its operands alone (R79). -/
theorem SameOperands.effectOf_eq : effectOf i t = effectOf i s := by
  cases i with
  | sobel b => simp only [effectOf, sobelEffect, h.source]
  | prewitt b => simp only [effectOf, prewittEffect, h.source]
  | laplacian b => simp only [effectOf, laplacianEffect, h.source]
  | canny b k => simp only [effectOf, cannyEffect, h.source, h.threshLow, h.threshHigh]
  | clahe d => simp only [effectOf, claheEffect, h.source, h.clipLimit, h.gridSize]
  | equalize d => simp only [effectOf, equalizeEffect, h.source]
  | hist => simp only [effectOf, histEffect, h.source]
  | gamma e => simp only [effectOf, gammaEffect, h.source, h.gamma]
  | sigmoid => simp only [effectOf, sigmoidEffect, h.source, h.contrast]
  | lutapply => simp only [effectOf, lutapplyEffect, h.source, h.lut rfl]

variable (hs : Ready i s) (ht : Ready i t)

include hs ht

/-- With the ownership kept in both, the two completions write the same bytes to the destination (R212). -/
theorem SameOperands.read_dst (hw : writesDst i = true) {k : Nat} (hk : k < s.regionLen) :
    (completionOf i t).mem.read (s.dstAddr + k) = (completionOf i s).mem.read (s.dstAddr + k) := by
  obtain ⟨img, himg⟩ := exists_dst_image hw s
  have hbase : t.dstAddr = s.dstAddr := by rw [State.dstAddr, State.dstAddr, h.dstBase]
  have hlen : t.regionLen = s.regionLen := by
    simp only [State.regionLen, State.pixelCount, State.imgW, State.imgH, h.width, h.height]
  rw [completionOf_read_dst hs himg hk, ← hbase,
    completionOf_read_dst ht ((congrArg Effect.dst h.effectOf_eq).trans himg) (hlen.symm ▸ hk)]

/-- The two completions leave the same histogram (R141, R212). -/
theorem SameOperands.hist_eq (hi : i = .hist ∨ ∃ d, i = .equalize d) :
    (completionOf i t).hist = (completionOf i s).hist := by
  obtain ⟨v, hv⟩ : ∃ v, (effectOf i s).hist = .wrote v := by
    rcases hi with rfl | ⟨d, rfl⟩ <;> exact ⟨_, rfl⟩
  rw [completionOf_hist_wrote hs.kept hv,
    completionOf_hist_wrote ht.kept ((congrArg Effect.hist h.effectOf_eq).trans hv)]

/-- The two completions leave the same table (R39, R212). -/
theorem SameOperands.lut_eq (hi : i = .sigmoid ∨ (∃ e, i = .gamma e) ∨ ∃ d, i = .equalize d) :
    (completionOf i t).lut = (completionOf i s).lut := by
  obtain ⟨v, hv⟩ : ∃ v, (effectOf i s).lut = .wrote v := by
    rcases hi with rfl | ⟨e, rfl⟩ | ⟨d, rfl⟩ <;> exact ⟨_, rfl⟩
  rw [completionOf_lut_wrote hs.kept hv,
    completionOf_lut_wrote ht.kept ((congrArg Effect.lut h.effectOf_eq).trans hv)]

end

/-! ### The operands of the pending operation under a host write (R61) -/

/-- The newest completion that `p` accepts is one of those not yet observed, and `p` accepts it. -/
theorem newest_some {p : Claim → Bool} {s : State} {c : Claim} (h : newest p s = some c) :
    c ∈ s.completed ∧ p c = true :=
  ⟨List.mem_reverse.1 (List.mem_of_find?_eq_some h), List.find?_some h⟩

theorem completed_inMemory {s : State} (h : s.Inv) : ∀ c ∈ s.completed, c.inMemory :=
  fun c hc => h.inMemory_of_holds (mem_completed s c hc)

section

variable (s : State) (a : Nat) (bs : List Byte)

@[simp] theorem hostWrite_cmd : (s.hostWrite a bs).cmd = s.cmd := by rw [hostWrite_frame]
@[simp] theorem hostWrite_status : (s.hostWrite a bs).status = s.status := by rw [hostWrite_frame]
@[simp] theorem hostWrite_srcBase : (s.hostWrite a bs).srcBase = s.srcBase := by rw [hostWrite_frame]
@[simp] theorem hostWrite_dstBase : (s.hostWrite a bs).dstBase = s.dstBase := by rw [hostWrite_frame]
@[simp] theorem hostWrite_width : (s.hostWrite a bs).width = s.width := by rw [hostWrite_frame]
@[simp] theorem hostWrite_height : (s.hostWrite a bs).height = s.height := by rw [hostWrite_frame]
@[simp] theorem hostWrite_threshLow : (s.hostWrite a bs).threshLow = s.threshLow := by rw [hostWrite_frame]
@[simp] theorem hostWrite_threshHigh : (s.hostWrite a bs).threshHigh = s.threshHigh := by rw [hostWrite_frame]
@[simp] theorem hostWrite_clipLimit : (s.hostWrite a bs).clipLimit = s.clipLimit := by rw [hostWrite_frame]
@[simp] theorem hostWrite_gridSize : (s.hostWrite a bs).gridSize = s.gridSize := by rw [hostWrite_frame]
@[simp] theorem hostWrite_gamma : (s.hostWrite a bs).gamma = s.gamma := by rw [hostWrite_frame]
@[simp] theorem hostWrite_contrast : (s.hostWrite a bs).contrast = s.contrast := by rw [hostWrite_frame]

end

section

variable {i : Instr} {s : State} {c : Claim} {a : Nat} {bs : List Byte}

/-- Either the record holds the operands as they stood, or no completion whose source the write meets feeds the
operation, and operands present before the write are the present ones after it. -/
theorem operands_hostWrite (hb : s.status.busy = true) (hc : s.claim = some c) :
    ((s.hostWrite a bs).operandMem = s.operandMem ∧ (s.hostWrite a bs).operandLut = s.operandLut) ∨
      ((∀ d ∈ s.completed, d.touchesSrc a bs.length = true → d.feeds c = false) ∧
        s.operandMem = s.mem ∧ (s.hostWrite a bs).operandMem = (s.hostWrite a bs).mem ∧
        s.operandLut = s.lut ∧ (s.hostWrite a bs).operandLut = (s.hostWrite a bs).lut) := by
  have hclaim : (s.hostWrite a bs).claim =
      some ((s.holdOperands a bs.length c).recordWrite a bs.length) := by
    rw [hostWrite_claim, claimAfterWrite_of_busy hb hc]
  by_cases hfeeds : (s.completed.any fun d => d.touchesSrc a bs.length && d.feeds c) = true
  · left
    cases hseen : c.seen <;>
      simp [State.operandMem, State.operandLut, hclaim, hc, State.holdOperands, hfeeds, hseen]
  · have hhold : s.holdOperands a bs.length c = c := by rw [State.holdOperands, if_neg hfeeds]
    rw [hhold] at hclaim
    cases hseen : c.seen with
    | some v => left; simp [State.operandMem, State.operandLut, hclaim, hc, hseen]
    | none =>
      right
      refine ⟨fun d hd htouch => ?_, ?_⟩
      · by_contra hfeed
        exact hfeeds (List.any_eq_true.2 ⟨d, hd, by simp [htouch, hfeed]⟩)
      · simp [State.operandMem, State.operandLut, hclaim, hc, hseen]

variable (hinv : s.Inv) (hb : s.status.busy = true) (hc : RecordOf i s c) (ha : a + bs.length ≤ addressSpace)
  (hsrc : a + bs.length ≤ s.srcAddr ∨ s.srcAddr + s.regionLen ≤ a)

include hinv hb hc ha

/-- A byte of the source region off the write reads for the operation as before (R61, R206). -/
theorem operandMem_read_hostWrite {j : Nat} (hlow : s.srcAddr ≤ j) (hhigh : j < s.srcAddr + s.regionLen)
    (hoff : j < a ∨ a + bs.length ≤ j) : (s.hostWrite a bs).operandMem.read j = s.operandMem.read j := by
  rcases operands_hostWrite hb hc.claim with ⟨hmem, -⟩ | ⟨hfeeds, hold, hnew, -⟩
  · rw [hmem]
  · have hsettled : ∀ d, newest (·.ownsDst j) s = some d → d.touchesSrc a bs.length = false := by
      intro d hd
      obtain ⟨hmem, hown⟩ := newest_some hd
      rw [Bool.eq_false_iff]
      intro htouch
      have hfeed := Claim.feeds_of_ownsDst (d := c) hown (by rwa [hc.src]) (by rwa [hc.src, hc.len])
      simp [hfeeds d hmem htouch] at hfeed
    rw [hold, hnew, hostWrite_read_of_settled hinv.memory ha (completed_inMemory hinv) hsettled,
      storeBytes_read_outside s hoff]

/-- An operation that reads LUT reads the one from before the write (R61, R167). -/
theorem operandLut_hostWrite (hreads : readsLut i = true) :
    (s.hostWrite a bs).operandLut = s.operandLut := by
  rcases operands_hostWrite hb hc.claim with ⟨-, hlut⟩ | ⟨hfeeds, -, -, hold, hnew⟩
  · exact hlut
  · rw [hold, hnew]
    refine hostWrite_lut_of_settled hinv.memory ha (completed_inMemory hinv) fun d hd => ?_
    obtain ⟨hmem, hwrites⟩ := newest_some hd
    rw [Bool.eq_false_iff]
    intro htouch
    have hfeed : d.feeds c = true := by simp [Claim.feeds, hwrites, hc.readsLut, hreads]
    simp [hfeeds d hmem htouch] at hfeed

include hsrc

theorem sameOperands_hostWrite : SameOperands i s (s.hostWrite a bs) where
  dstBase := by simp
  threshLow := by simp
  threshHigh := by simp
  clipLimit := by simp
  gridSize := by simp
  gamma := by simp
  contrast := by simp
  width := by simp
  height := by simp
  source := source_congr (by simp) (by simp) (by simp) fun j hlow hhigh =>
    operandMem_read_hostWrite hinv hb hc ha hlow hhigh (by omega)
  lut := operandLut_hostWrite hinv hb hc ha

omit hinv ha

/-- A write off both regions of the pending operation breaks no ownership (R61). -/
theorem ownershipKept_hostWrite (hk : s.ownershipKept)
    (hdst : writesDst i = true → a + bs.length ≤ s.dstAddr ∨ s.dstAddr + s.regionLen ≤ a) :
    (s.hostWrite a bs).ownershipKept := by
  obtain ⟨o, hhold⟩ := holdOperands_eq s a bs.length c
  have hclaim : (s.hostWrite a bs).claim = some (Claim.recordWrite { c with seen := o } a bs.length) := by
    rw [hostWrite_claim, claimAfterWrite_of_busy hb hc.claim, hhold]
  have hapart : a + bs.length ≤ c.src ∨ c.src + c.len ≤ a := by rwa [hc.src, hc.len]
  have hhit : c.srcHit = false := by simpa [State.srcHit, hc.claim] using hk.source
  refine ⟨?_, fun j => ?_⟩
  · rw [State.srcHit, hclaim]
    exact Bool.or_eq_false_iff.2 ⟨hhit, Claim.touchesSrc_of_apart hapart⟩
  · rw [State.dstHit, hclaim, Bool.eq_false_iff]
    intro hcontains
    have hunhit : c.dstHit.contains j = false := by simpa only [State.dstHit, hc.claim] using hk.destination j
    rcases (Claim.recordWrite_dstHit_contains _ a bs.length j).1 hcontains with hold | ⟨hlow, hhigh, hown⟩
    · exact Bool.eq_false_iff.1 hunhit hold
    · refine Bool.eq_false_iff.1 (hc.not_ownsDst fun hw => ?_) hown
      have := hdst hw
      omega

end

/-- Settles O36: the write leaves the operation's operands and its ownership, and so its result. -/
theorem hostWriteElsewhereLeavesThePendingResult : Obligations.HostWriteElsewhereLeavesThePendingResult := by
  intro i s a bs hinv hb hi hk ha hsrc hdst
  obtain ⟨c, hc⟩ := exists_recordOf hinv hb hi
  have hready := ready_of_inv hinv hb hi hk
  have hready' : Ready i (s.hostWrite a bs) :=
    ready_of_inv (inv_hostWrite hinv ((addressable_iff _ _).2 ha)) (by simpa using hb) (by simpa using hi)
      (ownershipKept_hostWrite hb hc hsrc hk hdst)
  have hsame := sameOperands_hostWrite hinv hb hc ha hsrc
  exact ⟨_, _, _, hostStep_memWrite ha s, hready.exec_eq, hready'.exec_eq,
    fun hw _ => hsame.read_dst hready hready' hw, hsame.hist_eq hready hready', hsame.lut_eq hready hready'⟩

end Sys2Proof.Claims

/-! PROOF. Alpha (spec/20_memory.md R67, spec/40_gradient.md R96, R103, R132, R149, R156). -/

namespace Sys2Proof.Claims

open Sys2Proof Sys2Proof.Machine

theorem gradientImage_at_alpha (b : Border) (m : Nat → Nat → Nat) {s : State} {x y : Nat} (hxy : inImage s x y) :
    ((gradientImage b m s.source).at x y).a = (src s x y).a := by
  rw [gradientImage, Image.at_ofFn s.source.w s.source.h _ _ _ hxy.1 hxy.2, greyPixel, source_at_eq_src hxy]

theorem claheImage_at_alpha (d : Degen) (limit grid : Nat) {s : State} {x y : Nat} (hxy : inImage s x y) :
    ((claheImage d limit grid s.source).at x y).a = (src s x y).a := by
  rw [claheImage, Image.at_ofFn s.source.w s.source.h _ _ _ hxy.1 hxy.2, tableApply_eq_through, source_at_eq_src hxy]
  rfl

theorem mapPixels_at_alpha (t : Table) {s : State} {x y : Nat} (hxy : inImage s x y) :
    ((s.source.mapPixels (Table.apply t)).at x y).a = (src s x y).a := by
  rw [mapPixels_source_at _ hxy]
  rfl

/-- Every image computed, but CANNY's, has the alpha of the source (R67). -/
theorem effectOf_dst_alpha {i : Instr} (hcanny : ∀ b k, i ≠ .canny b k) {s : State} {img : Image}
    (himg : (effectOf i s).dst = some img) {x y : Nat} (hxy : inImage s x y) :
    (img.at x y).a = (src s x y).a := by
  cases i with
  | hist => cases himg
  | canny b k => exact absurd rfl (hcanny b k)
  | sobel b | prewitt b | laplacian b =>
    obtain rfl := Option.some.inj himg
    exact gradientImage_at_alpha b _ hxy
  | clahe d =>
    obtain rfl := Option.some.inj himg
    exact claheImage_at_alpha d _ _ hxy
  | equalize _ | gamma _ | sigmoid | lutapply =>
    obtain rfl := Option.some.inj himg
    exact mapPixels_at_alpha _ hxy

/-- Settles O23: the destination pixel is that of the computed image. -/
theorem alphaIsPreservedByAllButCanny : Obligations.AlphaIsPreservedByAllButCanny := by
  intro i s hready hwrites hcanny
  obtain ⟨img, himg⟩ := exists_dst_image hwrites s
  refine ⟨_, hready.exec_eq, fun x y hxy => ?_⟩
  rw [dst_completionOf hready himg hxy, effectOf_dst_alpha hcanny himg hxy]

end Sys2Proof.Claims

/-! PROOF. The encoding (spec/30_encoding.md R71 to R78, R82, R86): a command word by its fields, the fields of an
encoded operation, and decoding by the fields of the word. -/

namespace Sys2Proof

/-! ### The fields of a command word (R71) -/

/-- OP is bits 3:0. -/
theorem opField_toNat (v : Word) : (v.extractLsb' 0 4).toNat = v.toNat % 16 := by
  rw [BitVec.extractLsb'_toNat, Nat.shiftRight_zero]

/-- A field that two words share gives them the same bits there. -/
theorem getLsbD_eq_of_extractLsb'_eq {v w : Word} {start len k : Nat}
    (h : v.extractLsb' start len = w.extractLsb' start len) (hlow : start ≤ k) (hhigh : k < start + len) :
    v.getLsbD k = w.getLsbD k := by
  have hbit := congrArg (fun field => field.getLsbD (k - start)) h
  have hlen : k - start < len := by omega
  simpa [BitVec.getLsbD_extractLsb', hlen, Nat.add_sub_cancel' hlow] using hbit

/-- OP, the two reserved fields and the four flags are all there is to a command word (R71). -/
theorem word_eq_of_fields {v w : Word} (hop : v.extractLsb' 0 4 = w.extractLsb' 0 4)
    (hmid : v.extractLsb' 4 4 = w.extractLsb' 4 4) (hhigh : v.extractLsb' 12 20 = w.extractLsb' 12 20)
    (hflags : ∀ f, v.getLsbD (flagBit f) = w.getLsbD (flagBit f)) : v = w := by
  apply BitVec.eq_of_getLsbD_eq
  intro k hk
  by_cases h4 : k < 4
  · exact getLsbD_eq_of_extractLsb'_eq hop (by omega) (by omega)
  by_cases h8 : k < 8
  · exact getLsbD_eq_of_extractLsb'_eq hmid (by omega) (by omega)
  by_cases h12 : 12 ≤ k
  · exact getLsbD_eq_of_extractLsb'_eq hhigh (by omega) (by omega)
  obtain rfl | rfl | rfl | rfl : k = 8 ∨ k = 9 ∨ k = 10 ∨ k = 11 := by omega
  · exact hflags .C
  · exact hflags .K
  · exact hflags .Z
  · exact hflags .I

/-! ### The opcode table (R72) -/

/-- The OP number of a mnemonic. -/
def Mnemonic.opcode : Mnemonic → Nat
  | .SOBEL => 0x1
  | .PREWITT => 0x2
  | .LAPLACIAN => 0x3
  | .CANNY => 0x4
  | .CLAHE => 0x5
  | .EQUALIZE => 0x6
  | .HIST => 0x7
  | .GAMMA => 0x8
  | .SIGMOID => 0x9
  | .LUTAPPLY => 0xA

/-- Each number of the table is the number of one mnemonic. -/
theorem opcodeMnemonic_eq_some_iff (n : Nat) (m : Mnemonic) : opcodeMnemonic n = some m ↔ n = m.opcode := by
  constructor
  · intro h
    unfold opcodeMnemonic at h
    split at h <;> cases h <;> rfl
  · rintro rfl
    cases m <;> rfl

theorem Mnemonic.opcode_range (m : Mnemonic) : 1 ≤ m.opcode ∧ m.opcode ≤ 0xA := by
  cases m <;> decide

/-- The numbers that no operation has are the reserved ones (R78). -/
theorem opcodeMnemonic_eq_none_iff (n : Nat) : opcodeMnemonic n = none ↔ n = 0 ∨ 0xB ≤ n := by
  constructor
  · intro h
    by_contra hn
    obtain ⟨hlow, hhigh⟩ : 1 ≤ n ∧ n < 0xB := by omega
    interval_cases n <;> cases h
  · intro h
    rw [Option.eq_none_iff_forall_ne_some]
    intro m hm
    have hrange := m.opcode_range
    have hn := (opcodeMnemonic_eq_some_iff n m).1 hm
    omega

/-- The operations that allow each flag, by their numbers (R72). -/
theorem mem_allowedFlags_iff (f : Flag) (m : Mnemonic) :
    f ∈ allowedFlags m ↔
      match f with
      | .C => 1 ≤ m.opcode ∧ m.opcode ≤ 4
      | .K => m.opcode = 4
      | .Z => m.opcode = 5 ∨ m.opcode = 6
      | .I => m.opcode = 8 := by
  cases f <;> cases m <;> decide

/-- There are four flags (R71). -/
theorem Flag.exists_iff (p : Flag → Prop) : (∃ f, p f) ↔ p .C ∨ p .K ∨ p .Z ∨ p .I := by
  constructor
  · rintro ⟨f, hf⟩
    cases f <;> simp [hf]
  · rintro (h | h | h | h) <;> exact ⟨_, h⟩

/-! ### Operations by mnemonic and flags (R73 to R76) -/

@[simp] theorem mnemonic_withFlags (set : Flag → Bool) (m : Mnemonic) : (withFlags set m).mnemonic = m := by
  cases m <;> rfl

/-- The letters of an operation's canonical text are the flags that its mnemonic allows and that are set (R82). -/
theorem mem_flags_withFlags (set : Flag → Bool) (m : Mnemonic) (f : Flag) :
    f ∈ (withFlags set m).flags ↔ f ∈ allowedFlags m ∧ set f = true := by
  have hborder (b : Bool) : f ∈ Instr.flags.borderLetters (borderOf b) ↔ f = .C ∧ b = true := by
    cases b <;> simp [borderOf, Instr.flags.borderLetters]
  have hdegen (b : Bool) : f ∈ Instr.flags.degenLetters (degenOf b) ↔ f = .Z ∧ b = true := by
    cases b <;> simp [degenOf, Instr.flags.degenLetters]
  have hset (g : Flag) : f = g ∧ set g = true ↔ f = g ∧ set f = true :=
    and_congr_right fun h => by rw [h]
  cases m with
  | SOBEL | PREWITT | LAPLACIAN => simp [withFlags, Instr.flags, allowedFlags, hborder, hset]
  | CLAHE | EQUALIZE => simp [withFlags, Instr.flags, allowedFlags, hdegen, hset]
  | HIST | SIGMOID | LUTAPPLY => simp [withFlags, Instr.flags, allowedFlags]
  | CANNY =>
    cases hk : set .K <;> cases f <;> simp [withFlags, Instr.flags, allowedFlags, hborder, alphaOf, hk]
  | GAMMA => cases hi : set .I <;> cases f <;> simp [withFlags, Instr.flags, allowedFlags, exponentOf, hi]

/-- A text assembles exactly if its mnemonic allows its letters (R82). -/
theorem assemble_eq_some_iff (m : Mnemonic) (letters : List Flag) (i : Instr) :
    assemble m letters = some i ↔
      (∀ f ∈ letters, f ∈ allowedFlags m) ∧ withFlags (fun f => letters.contains f) m = i := by
  simp [assemble]

theorem assemble_eq_none_iff (m : Mnemonic) (letters : List Flag) :
    assemble m letters = none ↔ ∃ f ∈ letters, f ∉ allowedFlags m := by
  simp [assemble]

/-- The canonical text of every operation assembles to it (R82). -/
theorem assemble_mnemonic_flags (i : Instr) : assemble i.mnemonic i.flags = some i := by
  cases i with
  | sobel b => exact Laws.TextRoundTrip.sobel b
  | prewitt b => exact Laws.TextRoundTrip.prewitt b
  | laplacian b => exact Laws.TextRoundTrip.laplacian b
  | canny b a => exact Laws.TextRoundTrip.canny b a
  | clahe d => exact Laws.TextRoundTrip.clahe d
  | equalize d => exact Laws.TextRoundTrip.equalize d
  | hist => exact Laws.TextRoundTrip.hist
  | gamma e => exact Laws.TextRoundTrip.gamma e
  | sigmoid => exact Laws.TextRoundTrip.sigmoid
  | lutapply => exact Laws.TextRoundTrip.lutapply

theorem Instr.flags_allowed {i : Instr} {f : Flag} (h : f ∈ i.flags) : f ∈ allowedFlags i.mnemonic :=
  ((assemble_eq_some_iff _ _ i).1 (assemble_mnemonic_flags i)).1 f h

/-- An operation is its mnemonic with its flags set and no other. -/
theorem withFlags_mnemonic {i : Instr} {set : Flag → Bool} (h : ∀ f, set f = true ↔ f ∈ i.flags) :
    withFlags set i.mnemonic = i := by
  have hset : set = fun f => i.flags.contains f := by
    funext f
    rw [Bool.eq_iff_iff, h f, List.contains_iff_mem]
  rw [hset]
  exact ((assemble_eq_some_iff _ _ i).1 (assemble_mnemonic_flags i)).2

/-! ### The fields of an encoded operation (R71, R77) -/

/-- Every operation with every flag, in the order of R77's table. -/
def operations : List Instr :=
  [.sobel .skip, .sobel .clamp, .prewitt .skip, .prewitt .clamp, .laplacian .skip, .laplacian .clamp,
   .canny .skip .zero, .canny .clamp .zero, .canny .skip .keep, .canny .clamp .keep,
   .clahe .identity, .clahe .zero, .equalize .identity, .equalize .zero, .hist,
   .gamma .inverse, .gamma .direct, .sigmoid, .lutapply]

theorem mem_operations (i : Instr) : i ∈ operations := by
  cases i with
  | sobel b | prewitt b | laplacian b => cases b <;> decide
  | canny b a => cases b <;> cases a <;> decide
  | clahe d | equalize d => cases d <;> decide
  | gamma e => cases e <;> decide
  | _ => decide

/-- R77's list is that of the encoded operations. -/
theorem legalWords_eq_map_encode : legalWords = operations.map encode := by decide

theorem encode_op (i : Instr) : ((encode i).extractLsb' 0 4).toNat = i.mnemonic.opcode := by
  have h : ∀ j ∈ operations, ((encode j).extractLsb' 0 4).toNat = j.mnemonic.opcode := by decide
  exact h i (mem_operations i)

theorem opcodeMnemonic_encode (i : Instr) :
    opcodeMnemonic ((encode i).extractLsb' 0 4).toNat = some i.mnemonic :=
  (opcodeMnemonic_eq_some_iff _ _).2 (encode_op i)

theorem encode_reserved (i : Instr) :
    (encode i).extractLsb' 4 4 = 0 ∧ (encode i).extractLsb' 12 20 = 0 := by
  have h : ∀ j ∈ operations, (encode j).extractLsb' 4 4 = 0 ∧ (encode j).extractLsb' 12 20 = 0 := by decide
  exact h i (mem_operations i)

theorem encode_getLsbD_flagBit (i : Instr) (f : Flag) : (encode i).getLsbD (flagBit f) = true ↔ f ∈ i.flags := by
  have h : ∀ j ∈ operations, ∀ g ∈ allFlags, ((encode j).getLsbD (flagBit g) = true ↔ g ∈ j.flags) := by decide
  exact h i (mem_operations i) f (by cases f <;> decide)

/-! ### Decoding by the fields (R78, R86) -/

/-- A word decodes exactly if no reserved bit is 1, its OP is in the table and the operation allows the flags that
are 1; the operation is then that of OP with these flags. -/
theorem decode_eq_ok_iff (v : Word) (i : Instr) :
    decode v = .ok i ↔
      (v.extractLsb' 4 4 = 0 ∧ v.extractLsb' 12 20 = 0) ∧
        ∃ m, opcodeMnemonic (v.extractLsb' 0 4).toNat = some m ∧
          (∀ f, v.getLsbD (flagBit f) = true → f ∈ allowedFlags m) ∧
          withFlags (fun f => v.getLsbD (flagBit f)) m = i := by
  have hflags (m : Mnemonic) :
      allFlags.any (fun f => v.getLsbD (flagBit f) && !(allowedFlags m).contains f) = true ↔
        ¬ ∀ f, v.getLsbD (flagBit f) = true → f ∈ allowedFlags m := by
    have hall (f : Flag) : f ∈ allFlags := by cases f <;> decide
    simp [hall]
  by_cases hres : v.extractLsb' 4 4 = 0 ∧ v.extractLsb' 12 20 = 0
  · unfold decode
    rw [if_neg (by simpa using hres)]
    cases hop : opcodeMnemonic (v.extractLsb' 0 4).toNat with
    | none => simp
    | some m =>
      by_cases hm : ∀ f, v.getLsbD (flagBit f) = true → f ∈ allowedFlags m
      · simp only [if_neg (mt (hflags m).1 (not_not_intro hm))]
        simpa [hres] using fun _ => hm
      · simp only [if_pos ((hflags m).2 hm)]
        simp [hm]
  · unfold decode
    rw [if_pos (by rwa [← not_and_or]), iff_false_intro fun h => hres (And.left h)]
    exact iff_false_intro nofun

/-- Decoding answers the operation whose mnemonic has the word's OP and whose flags are the word's. -/
theorem decode_eq_ok_iff_fields (v : Word) (i : Instr) :
    decode v = .ok i ↔
      (v.extractLsb' 4 4 = 0 ∧ v.extractLsb' 12 20 = 0) ∧
        opcodeMnemonic (v.extractLsb' 0 4).toNat = some i.mnemonic ∧
        ∀ f, v.getLsbD (flagBit f) = true ↔ f ∈ i.flags := by
  rw [decode_eq_ok_iff]
  refine and_congr_right fun _ => ⟨?_, fun ⟨hop, hflags⟩ => ?_⟩
  · rintro ⟨m, hop, hallowed, rfl⟩
    refine ⟨by rw [mnemonic_withFlags]; exact hop, fun f => ?_⟩
    rw [mem_flags_withFlags]
    exact ⟨fun hf => ⟨hallowed f hf, hf⟩, And.right⟩
  · exact ⟨i.mnemonic, hop, fun f hf => Instr.flags_allowed ((hflags f).1 hf), withFlags_mnemonic hflags⟩

/-- Decoding an encoded operation gives it back. -/
theorem decode_encode (i : Instr) : decode (encode i) = .ok i :=
  (decode_eq_ok_iff_fields _ i).2 ⟨encode_reserved i, opcodeMnemonic_encode i, encode_getLsbD_flagBit i⟩

/-- A word that decodes to an operation has the fields of the encoded operation, so it is that word. -/
theorem eq_encode_of_decode {v : Word} {i : Instr} (h : decode v = .ok i) : v = encode i := by
  obtain ⟨⟨hmid, hhigh⟩, hop, hflags⟩ := (decode_eq_ok_iff_fields v i).1 h
  obtain ⟨hmid', hhigh'⟩ := encode_reserved i
  refine word_eq_of_fields ?_ (hmid.trans hmid'.symm) (hhigh.trans hhigh'.symm) fun f => ?_
  · apply BitVec.eq_of_toNat_eq
    rw [encode_op, (opcodeMnemonic_eq_some_iff _ _).1 hop]
  · rw [Bool.eq_iff_iff, hflags, encode_getLsbD_flagBit]

/-- A word is illegal exactly if a reserved bit is 1, its OP is not in the table, or a flag is 1 that its operation
does not allow (R78). -/
theorem decode_error_iff (v : Word) :
    (∃ e, decode v = .error e) ↔
      v.extractLsb' 4 4 ≠ 0 ∨ v.extractLsb' 12 20 ≠ 0 ∨
        opcodeMnemonic (v.extractLsb' 0 4).toNat = none ∨
        ∃ m, opcodeMnemonic (v.extractLsb' 0 4).toNat = some m ∧
          ∃ f, v.getLsbD (flagBit f) = true ∧ f ∉ allowedFlags m := by
  have hnot : (∃ e, decode v = .error e) ↔ ¬ ∃ i, decode v = .ok i := by
    cases decode v <;> simp
  rw [hnot]
  simp only [decode_eq_ok_iff]
  cases hop : opcodeMnemonic (v.extractLsb' 0 4).toNat with
  | none => simp
  | some m => simp [← or_assoc, imp_iff_not_or]

end Sys2Proof

namespace Sys2Proof.Claims

open Sys2Proof

/-- Settles O1: a word decodes to an operation exactly if it has the fields of the encoded operation. -/
theorem decodeIsTheInverseOfEncode : Obligations.DecodeIsTheInverseOfEncode :=
  fun _ i => ⟨eq_encode_of_decode, fun h => h ▸ decode_encode i⟩

/-- Settles O2: the words that decode are the encoded operations, which R77 lists. -/
theorem exactlyTheListedWordsDecode : Obligations.ExactlyTheListedWordsDecode := by
  intro v
  rw [legalWords_eq_map_encode, List.mem_map]
  constructor
  · rintro ⟨i, hi⟩
    exact ⟨i, mem_operations i, (eq_encode_of_decode hi).symm⟩
  · rintro ⟨i, -, rfl⟩
    exact ⟨i, decode_encode i⟩

/-- Settles O3: with an OP of the table, each flag is judged by the number of the operation. -/
theorem illegalWordsAreTheReservedOnes : Obligations.IllegalWordsAreTheReservedOnes := by
  intro v
  rw [decode_error_iff, opField_toNat]
  cases hop : opcodeMnemonic (v.toNat % 16) with
  | none =>
    have hreserved := (opcodeMnemonic_eq_none_iff _).1 hop
    simp only [true_or, or_true, true_iff]
    rw [← or_assoc]
    exact .inl hreserved
  | some m =>
    have hn := (opcodeMnemonic_eq_some_iff _ m).1 hop
    obtain ⟨hlow, hhigh⟩ := m.opcode_range
    have hzero : v.toNat % 16 ≠ 0 := by omega
    have htop : ¬ 0xB ≤ v.toNat % 16 := by omega
    simp only [Option.some.injEq, exists_eq_left', Flag.exists_iff, mem_allowedFlags_iff, ← hn, hzero, htop,
      reduceCtorEq, false_or, not_or, flagBit]

/-- Settles O5: the letters written are the flags set, and the mnemonic allows them. -/
theorem assembledCommandsCarryTheWrittenFlags : Obligations.AssembledCommandsCarryTheWrittenFlags := by
  intro m letters
  refine ⟨(assemble_eq_none_iff m letters).2, fun hallowed => ?_⟩
  have hop := opcodeMnemonic_encode (withFlags (fun f => letters.contains f) m)
  rw [mnemonic_withFlags] at hop
  refine ⟨_, (assemble_eq_some_iff m letters _).2 ⟨hallowed, rfl⟩, mnemonic_withFlags _ m, hop, fun f => ?_⟩
  rw [encode_getLsbD_flagBit, mem_flags_withFlags, List.contains_iff_mem]
  exact and_iff_right_of_imp (hallowed f)

/-- Settles O4: each word is that of its operation. -/
theorem writtenOutWordsDecode : Obligations.WrittenOutWordsDecode :=
  ⟨decode_encode (.sobel .clamp), decode_encode (.canny .clamp .keep), decode_encode (.clahe .zero),
    decode_encode .hist, decode_encode (.gamma .direct)⟩

end Sys2Proof.Claims

/-! PROOF. The host's script (spec/30_encoding.md R83, R85): the steps of WAIT, and what the register writes of the
pseudo-statements store. -/

namespace Sys2Proof.Machine

open Sys2Proof Sys2Proof.Claims

/-! ### WAIT (R83, R214) -/

/-- Bit 1 of STATUS is DONE (R33). -/
theorem Status.word_getLsbD_one (st : Status) : st.word.getLsbD 1 = st.done := by
  have hword := st.word_toNat
  have hbit : st.word.toNat / 2 % 2 = st.done.toNat := by
    have hbusy := st.busy.toNat_le
    have hdone := st.done.toNat_le
    omega
  rw [BitVec.getLsbD, Nat.testBit_succ, Nat.testBit_zero, hbit]
  cases st.done <;> rfl

/-- While BUSY = 1 the engine has a turn before `WAIT` reads again (assumption log 18). -/
theorem step_wait_of_busy {s : State} {rest : List HostStep} (hb : s.status.busy = true)
    (hi : s.inputs = .wait :: rest) :
    step s = .next (State.readReg { s with inputs := .engine :: .wait :: rest } (some .STATUS)) := by
  simp [step, nextTurn, hi, hb, hostStep]

/-- While BUSY = 0 one read of STATUS ends `WAIT`. -/
theorem step_wait_of_idle {s : State} {rest : List HostStep} (hb : s.status.busy = false)
    (hi : s.inputs = .wait :: rest) :
    step s = .next (State.readReg { s with inputs := rest } (some .STATUS)) := by
  simp [step, nextTurn, hi, hb, hostStep]

/-- A read of STATUS with BUSY = 0 observes the completion and ends every record (R61). -/
theorem readReg_STATUS_of_idle {s : State} (hb : s.status.busy = false) :
    (s.readReg (some .STATUS)).claim = none ∧ (s.readReg (some .STATUS)).earlier = [] := by
  have hobserves : s.readObserves (some .STATUS) = true := by simp [State.readObserves, hb]
  rw [State.readReg_claim, State.readReg_earlier, hobserves]
  exact ⟨rfl, rfl⟩

theorem run_one {s t : State} (hst : step s = .next t) : Sys2Proof.core.run 1 s = .next t := by
  rw [run_succ 0 s t hst, run_zero]

theorem run_three {s t u w : State} (hst : step s = .next t) (htu : step t = .next u) (huw : step u = .next w) :
    Sys2Proof.core.run 3 s = .next w := by
  rw [run_succ 2 s t hst, run_two htu huw]

/-! ### The register writes of the pseudo-statements (R85) -/

section

variable {s : State} (hb : s.status.busy = false)

include hb

/-- A scheduled write to CMD or a parameter register while BUSY = 0. -/
theorem step_wr_of_idle {r : RegName} (hr : r ≠ .STATUS ∧ r ≠ .IEN) (v : Word) (rest : List HostStep) :
    step { s with inputs := wr r v :: rest } = .next (State.writeIdle { s with inputs := rest } r v) := by
  obtain ⟨hstatus, hien⟩ := hr
  rw [step_regWrite (rest := rest) rfl]
  exact congrArg _ (writeReg_of_idle (s := { s with inputs := rest }) hb hstatus hien v)

/-- One write as the whole schedule. -/
theorem run_one_wr {r : RegName} (hr : r ≠ .STATUS ∧ r ≠ .IEN) (v : Word) :
    Sys2Proof.core.run 1 { s with inputs := [wr r v] } = .next (State.writeIdle { s with inputs := [] } r v) :=
  run_one (step_wr_of_idle hb hr v [])

/-- Two writes as the whole schedule, where the first starts no command. -/
theorem run_two_wr {r q : RegName} (hcmd : r ≠ .CMD) (hr : r ≠ .STATUS ∧ r ≠ .IEN) (hq : q ≠ .STATUS ∧ q ≠ .IEN)
    (v w : Word) :
    Sys2Proof.core.run 2 { s with inputs := [wr r v, wr q w] } =
      .next (State.writeIdle { s.writeIdle r v with inputs := [] } q w) := by
  have hstatus : (s.writeIdle r v).status = s.status := by
    cases r with
    | CMD => exact absurd rfl hcmd
    | _ => rfl
  have hinputs : State.writeIdle { s with inputs := [wr q w] } r v = { s.writeIdle r v with inputs := [wr q w] } := by
    cases r with
    | CMD => exact absurd rfl hcmd
    | _ => rfl
  have hfirst := step_wr_of_idle hb hr v [wr q w]
  rw [hinputs] at hfirst
  exact run_two hfirst (step_wr_of_idle (by rw [hstatus, hb]) hq w [])

end

/-- THRESH takes the two bytes that `CANNYT` writes to it (R27, R85). -/
theorem thresh_fields (low high : Byte) :
    ((high.setWidth 32 <<< 8) ||| low.setWidth 32 : Word).extractLsb' 0 8 = low ∧
      ((high.setWidth 32 <<< 8) ||| low.setWidth 32 : Word).extractLsb' 8 8 = high := by
  have hword := thresh_toNat low high
  have hlow := low.isLt
  have hhigh := high.isLt
  rw [BitVec.or_comm]
  constructor <;> apply BitVec.eq_of_toNat_eq <;>
    rw [BitVec.extractLsb'_toNat, hword, Nat.shiftRight_eq_div_pow] <;> omega

/-- A CMD write sets BUSY exactly if the word passes `validate` (R32). -/
theorem startCommand_busy_iff {s : State} (hb : s.status.busy = false) (v : Word) :
    (s.startCommand v).status.busy = true ↔ s.validate v = none := by
  cases hv : s.validate v with
  | none => simp [startCommand_accepted s v hv]
  | some e => simp [startCommand_rejected s v e hv, hb]

theorem startCommand_cmd (s : State) (v : Word) : (s.startCommand v).cmd = v := by
  cases hv : s.validate v with
  | none => rw [startCommand_accepted s v hv]; rfl
  | some e => rw [startCommand_rejected s v e hv]; rfl

end Sys2Proof.Machine

namespace Sys2Proof.Claims

open Sys2Proof Sys2Proof.Machine

/-- Settles O9: a read that finds BUSY = 1, the completion, and the read that observes it. -/
theorem waitEndsAfterTheCompletion : Obligations.WaitEndsAfterTheCompletion := by
  intro s rest hinv hb hi
  have hread := step_wait_of_busy hb hi
  have hinv' := everyStepKeepsTheInvariant _ _ hinv hread
  obtain ⟨i, -, hcomplete⟩ := hinv'.step_engine_eq hb rfl
  refine ⟨_, run_three hread hcomplete (step_wait_of_idle (rest := rest) rfl rfl), rfl, rfl,
    Status.word_getLsbD_zero _, Status.word_getLsbD_one _, ?_, ?_, rfl⟩
  · exact (readReg_STATUS_of_idle rfl).1
  · exact (readReg_STATUS_of_idle rfl).2

/-- Settles O53: each pseudo-statement by its register writes, and RUN on a rejected command by the read after it. -/
theorem pseudoStatementsExpandAsListed : Obligations.PseudoStatementsExpandAsListed := by
  intro s hb
  refine ⟨fun w h => ?img, fun a d => ?buf, fun low high => ?cannyt, ?clr, fun i => ?start, fun _ => rfl,
    fun i e he => ?rejected⟩
  case img =>
    exact ⟨_, run_two_wr hb (by decide) (by decide) (by decide) w h, BitVec.extractLsb'_toNat ..,
      BitVec.extractLsb'_toNat ..⟩
  case buf => exact ⟨_, run_two_wr hb (by decide) (by decide) (by decide) a d, rfl, rfl⟩
  case cannyt =>
    obtain ⟨hlow, hhigh⟩ := thresh_fields low high
    exact ⟨_, run_one_wr hb (by decide) _, hlow, hhigh⟩
  case clr =>
    exact ⟨_, run_one (step_regWrite (r := .STATUS) rfl), Bool.and_false _, Bool.and_false _, rfl,
      Bool.and_false _⟩
  case start =>
    exact ⟨_, run_one_wr hb (by decide) _, startCommand_cmd _ _,
      startCommand_busy_iff (s := { s with inputs := [] }) hb _⟩
  case rejected =>
    have hstart := step_wr_of_idle hb (r := .CMD) (by decide) (encode i) [.wait]
    have hreject := startCommand_rejected { s with inputs := [.wait] } (encode i) e he
    have hwait := step_wait_of_idle (s := (State.present { s with inputs := [.wait] } (encode i)).raiseInvalidInput e)
      (rest := []) hb rfl
    exact ⟨_, run_two (hstart.trans (congrArg _ hreject)) hwait, rfl, rfl, rfl⟩

end Sys2Proof.Claims

/-! PROOF. The gradient operations (spec/40_gradient.md R91 to R100): the clamped neighbourhood, the response of each
kernel over it, and the completion that writes the bytes of these responses. -/

namespace Sys2Proof.Claims

open Sys2Proof Sys2Proof.Machine

/-! ### The clamped neighbourhood (R91, R94) -/

/-- Row `r` and column `c` of a kernel weigh the pixel at the clamped offset `(c − 1, r − 1)`. -/
theorem neighbour_eq_at (img : Image) (x y r c : Nat) :
    img.neighbour x y r c = img.at (near img.w x ((c : Int) - 1)) (near img.h y ((r : Int) - 1)) := by
  simp only [Image.neighbour, Image.samp, near, add_sub_assoc]

/-- A clamped coordinate lies in the image. -/
theorem near_lt {n v : Nat} (h : v < n) (d : Int) : near n v d < n :=
  clamped_lt n (by omega) _

theorem source_neighbour {s : State} {x y : Nat} (hxy : inImage s x y) (r c : Nat) :
    s.source.neighbour x y r c = sample s x y ((c : Int) - 1) ((r : Int) - 1) := by
  obtain ⟨hx, hy⟩ := hxy
  rw [neighbour_eq_at]
  exact source_at_eq_src ⟨near_lt hx _, near_lt hy _⟩

/-! ### The responses (R9, R93, R94) -/

theorem luma1000_eq_luma (p : Pixel) : (luma1000 p : Int) = luma p := by
  simp [luma1000, luma]

theorem sum3_eq_colourSum (p : Pixel) : (sum3 p : Int) = colourSum p := by
  simp [sum3, colourSum]

/-- The sum of a kernel's coefficients, each times the grey value `l dx dy` at its offset. -/
def weighted (k : Config.Kernel) (l : Int → Int → Int) : Int :=
  windowSum fun r c => Config.coef k r c * l ((c : Int) - 1) ((r : Int) - 1)

/-- The response of an image whose neighbourhood of `(x, y)` has the grey values `l`. -/
theorem resp_eq_weighted (k : Config.Kernel) {g : Pixel → Nat} {img : Image} {x y : Nat} {l : Int → Int → Int}
    (hl : ∀ r c : Nat, (g (img.neighbour x y r c) : Int) = l ((c : Int) - 1) ((r : Int) - 1)) :
    resp k g img x y = weighted k l := by
  simp only [resp, weighted, hl]

/-- The nine terms of a kernel written out row by row. -/
theorem weighted_rows (k₀₀ k₀₁ k₀₂ k₁₀ k₁₁ k₁₂ k₂₀ k₂₁ k₂₂ : Int) (l : Int → Int → Int) :
    weighted [[k₀₀, k₀₁, k₀₂], [k₁₀, k₁₁, k₁₂], [k₂₀, k₂₁, k₂₂]] l =
      k₀₀ * l (-1) (-1) + k₀₁ * l 0 (-1) + k₀₂ * l 1 (-1) + (k₁₀ * l (-1) 0 + k₁₁ * l 0 0 + k₁₂ * l 1 0) +
        (k₂₀ * l (-1) 1 + k₂₁ * l 0 1 + k₂₂ * l 1 1) := by
  rw [weighted, windowSum_eq]
  rfl

theorem weighted_sobelX (l : Int → Int → Int) : weighted Config.kernels.sobelX l = sobelX l :=
  (weighted_rows ..).trans (by rw [sobelX]; ring)

theorem weighted_sobelY (l : Int → Int → Int) : weighted Config.kernels.sobelY l = sobelY l :=
  (weighted_rows ..).trans (by rw [sobelY]; ring)

theorem weighted_prewittX (l : Int → Int → Int) : weighted Config.kernels.prewittX l = prewittX l :=
  (weighted_rows ..).trans (by rw [prewittX]; ring)

theorem weighted_prewittY (l : Int → Int → Int) : weighted Config.kernels.prewittY l = prewittY l :=
  (weighted_rows ..).trans (by rw [prewittY]; ring)

theorem weighted_laplacian (l : Int → Int → Int) :
    weighted Config.kernels.laplacian l = 4 * l 0 0 - l 0 (-1) - l (-1) 0 - l 1 0 - l 0 1 :=
  (weighted_rows ..).trans (by ring)

theorem resp_luma_source {s : State} {x y : Nat} (hxy : inImage s x y) (k : Config.Kernel) :
    resp k luma1000 s.source x y = weighted k fun dx dy => luma (sample s x y dx dy) :=
  resp_eq_weighted k fun r c => by rw [source_neighbour hxy, luma1000_eq_luma]

theorem resp_sum3_source {s : State} {x y : Nat} (hxy : inImage s x y) (k : Config.Kernel) :
    resp k sum3 s.source x y = weighted k fun dx dy => colourSum (sample s x y dx dy) :=
  resp_eq_weighted k fun r c => by rw [source_neighbour hxy, sum3_eq_colourSum]

/-- The integer square root of `S` is `Nat.sqrt`, and `S` is the sum of the squared responses (R95). -/
theorem magByte_squaredMagnitude (kx ky : Config.Kernel) (img : Image) (x y : Nat) :
    magByte (squaredMagnitude kx ky img x y) = magnitude (resp kx luma1000 img x y) (resp ky luma1000 img x y) := by
  have hsquares (gx gy : Int) : gx.natAbs ^ 2 + gy.natAbs ^ 2 = (gx ^ 2 + gy ^ 2).toNat := by
    rw [← Int.natAbs_sq gx, ← Int.natAbs_sq gy]
    exact (Int.toNat_natCast _).symm
  rw [magByte, magnitude, squaredMagnitude, isqrt_eq_sqrt, hsquares]

theorem magByte_source {s : State} {x y : Nat} (hxy : inImage s x y) (kx ky : Config.Kernel) :
    magByte (squaredMagnitude kx ky s.source x y) =
      magnitude (weighted kx fun dx dy => luma (sample s x y dx dy))
        (weighted ky fun dx dy => luma (sample s x y dx dy)) := by
  rw [magByte_squaredMagnitude, resp_luma_source hxy, resp_luma_source hxy]

/-! ### The output (R92, R96, R97) -/

theorem processed_iff (b : Border) (s : State) (x y : Nat) :
    processed b s.imgW s.imgH x y = true ↔ processedAt b s x y := by
  cases b <;> simp [processed, processedAt, Machine.interior, and_assoc]

theorem gradientImage_at (b : Border) (m : Nat → Nat → Nat) {s : State} {x y : Nat} (hxy : inImage s x y) :
    (gradientImage b m s.source).at x y =
      grey (if processed b s.imgW s.imgH x y then m x y else 0) (src s x y).a := by
  rw [gradientImage, Image.at_ofFn s.source.w s.source.h _ _ _ hxy.1 hxy.2, source_at_eq_src hxy]
  rfl

/-- The completion of an operation that writes a gradient image of the byte `m` and neither HIST nor LUT. -/
theorem gradient_completion {i : Instr} {s : State} (hready : Ready i s) {b : Border} {m : Nat → Nat → Nat}
    (himg : (effectOf i s).dst = some (gradientImage b m s.source))
    (hhist : writesHist i = false) (hlut : writesLut i = false) :
    exec i s = .next (completionOf i s) ∧ Completes i s (completionOf i s) ∧ KeepsFiles s (completionOf i s) ∧
      ∀ x y, inImage s x y →
        (processedAt b s x y → dst s (completionOf i s) x y = grey (m x y) (src s x y).a) ∧
        (¬ processedAt b s x y → dst s (completionOf i s) x y = ⟨0, 0, 0, (src s x y).a⟩) := by
  have hframe := completes_completionOf i s
  refine ⟨hready.exec_eq, hframe, ⟨hframe.hist hhist, hframe.lut hlut⟩, fun x y hxy => ?_⟩
  rw [dst_completionOf hready himg hxy, gradientImage_at b m hxy, ← processed_iff]
  exact ⟨fun hp => by rw [if_pos hp], fun hp => by rw [if_neg hp]; rfl⟩

/-- Settles O10: the byte is the magnitude of the responses of the two Sobel kernels. -/
theorem sobelWritesTheGradientMagnitude : Obligations.SobelWritesTheGradientMagnitude := by
  intro b s hready
  obtain ⟨hexec, hframe, hfiles, hpixels⟩ := gradient_completion hready rfl rfl rfl
  refine ⟨_, hexec, hframe, hfiles, fun x y hxy => ?_⟩
  rw [← weighted_sobelX, ← weighted_sobelY, ← magByte_source hxy]
  exact hpixels x y hxy

/-- Settles O11: the byte is the magnitude of the responses of the two Prewitt kernels. -/
theorem prewittWritesTheGradientMagnitude : Obligations.PrewittWritesTheGradientMagnitude := by
  intro b s hready
  obtain ⟨hexec, hframe, hfiles, hpixels⟩ := gradient_completion hready rfl rfl rfl
  refine ⟨_, hexec, hframe, hfiles, fun x y hxy => ?_⟩
  rw [← weighted_prewittX, ← weighted_prewittY, ← magByte_source hxy]
  exact hpixels x y hxy

/-- Settles O12: the byte is the third of the absolute response of the Laplacian kernel, rounded and clamped. -/
theorem laplacianWritesTheAbsoluteResponse : Obligations.LaplacianWritesTheAbsoluteResponse := by
  intro b s hready
  obtain ⟨hexec, hframe, hfiles, hpixels⟩ := gradient_completion hready rfl rfl rfl
  refine ⟨_, hexec, hframe, hfiles, fun x y hxy => ?_⟩
  rw [← weighted_laplacian fun dx dy => colourSum (sample s x y dx dy), ← resp_sum3_source hxy]
  exact hpixels x y hxy

end Sys2Proof.Claims

/-! PROOF. The Canny classifier (spec/41_canny.md R111 to R119): the blurred image and its neighbourhood, the squared
Sobel response over it, and the completion that writes the class of every pixel. -/

namespace Sys2Proof.Claims

open Sys2Proof Sys2Proof.Machine

/-! ### The blurred image (R111) -/

/-- A window of natural numbers sums to the nine terms at their offsets. -/
theorem toNat_windowSum_offsets (f : Int → Int → Nat) :
    (windowSum fun r c => (f ((c : Int) - 1) ((r : Int) - 1) : Int)).toNat = nine f := by
  rw [windowSum_eq]
  exact Int.toNat_natCast (nine f)

theorem blurChannel_source {s : State} {x y : Nat} (hxy : inImage s x y) (ch : Pixel → Byte) :
    blurChannel s.source ch x y = (nine (fun dx dy => (ch (sample s x y dx dy)).toNat) + 4) / 9 := by
  simp only [blurChannel, source_neighbour hxy]
  rw [toNat_windowSum_offsets fun dx dy => (ch (sample s x y dx dy)).toNat]

theorem blurImage_source_at {s : State} {x y : Nat} (hxy : inImage s x y) :
    (blurImage s.source).at x y = blurred s x y := by
  rw [blurImage, Image.at_ofFn s.source.w s.source.h _ _ _ hxy.1 hxy.2, source_at_eq_src hxy,
    blurChannel_source hxy, blurChannel_source hxy, blurChannel_source hxy]
  rfl

/-- Stage 2 clamps its own coordinates: it samples the blurred image, never a blur around a position outside (R91,
R113). -/
theorem blurImage_source_neighbour {s : State} {x y : Nat} (hxy : inImage s x y) (r c : Nat) :
    (blurImage s.source).neighbour x y r c =
      blurred s (near s.imgW x ((c : Int) - 1)) (near s.imgH y ((r : Int) - 1)) := by
  obtain ⟨hx, hy⟩ := hxy
  rw [neighbour_eq_at]
  exact blurImage_source_at ⟨near_lt hx _, near_lt hy _⟩

/-! ### The squared response (R113) -/

theorem squaredMagnitude_cast (kx ky : Config.Kernel) (img : Image) (x y : Nat) :
    (squaredMagnitude kx ky img x y : Int) = resp kx luma1000 img x y ^ 2 + resp ky luma1000 img x y ^ 2 := by
  rw [squaredMagnitude, Nat.cast_add, Nat.cast_pow, Nat.cast_pow, Int.natAbs_sq, Int.natAbs_sq]

theorem resp_luma_blurImage {s : State} {x y : Nat} (hxy : inImage s x y) (k : Config.Kernel) :
    resp k luma1000 (blurImage s.source) x y = weighted k (blurredLuma s x y) :=
  resp_eq_weighted k fun r c => by rw [blurImage_source_neighbour hxy, luma1000_eq_luma, blurredLuma]

/-- The `S` that CANNY computes at a position of the image. -/
def blurredSquare (s : State) (x y : Nat) : Nat :=
  squaredMagnitude Config.kernels.sobelX Config.kernels.sobelY (blurImage s.source) x y

theorem blurredSquare_cast {s : State} {x y : Nat} (hxy : inImage s x y) :
    (blurredSquare s x y : Int) = cannySquare s x y := by
  rw [blurredSquare, squaredMagnitude_cast, resp_luma_blurImage hxy, resp_luma_blurImage hxy, weighted_sobelX,
    weighted_sobelY, cannySquare]

/-! ### The classes (R115, R116, R118) -/

theorem exceeds_iff (sq t : Nat) : exceeds sq t = true ↔ t < 255 ∧ (1000 * (t : Int)) ^ 2 < sq := by
  rw [exceeds, Bool.and_eq_true, decide_eq_true_iff, decide_eq_true_iff]
  norm_cast

/-- The test of each class, for the threshold `t`. -/
theorem processed_and_exceeds_iff {s : State} {x y : Nat} (hxy : inImage s x y) (b : Border) (t : Nat) :
    (processed b s.imgW s.imgH x y && exceeds (blurredSquare s x y) t) = true ↔ above b s x y t := by
  rw [Bool.and_eq_true, processed_iff, exceeds_iff, blurredSquare_cast hxy, above, gt_iff_lt]

theorem cannyImage_at (b : Border) (k : NoneAlpha) (low high : Nat) {s : State} {x y : Nat} (hxy : inImage s x y) :
    (cannyImage Config.kernels b k low high s.source).at x y =
      cannyPixel k (src s x y).a
        (cannyClass low high (processed b s.imgW s.imgH x y) (blurredSquare s x y)) := by
  rw [cannyImage, Image.at_ofFn s.source.w s.source.h _ _ _ hxy.1 hxy.2, source_at_eq_src hxy]
  rfl

section

variable {b : Border} {s : State} {x y low high : Nat} (hxy : inImage s x y)

include hxy

theorem cannyClass_of_above (hhigh : above b s x y high) :
    cannyClass low high (processed b s.imgW s.imgH x y) (blurredSquare s x y) = .Strong := by
  rw [cannyClass, if_pos ((processed_and_exceeds_iff hxy b high).2 hhigh)]

theorem cannyClass_of_between (hhigh : ¬ above b s x y high) (hlow : above b s x y low) :
    cannyClass low high (processed b s.imgW s.imgH x y) (blurredSquare s x y) = .Weak := by
  rw [cannyClass, if_neg (mt (processed_and_exceeds_iff hxy b high).1 hhigh),
    if_pos ((processed_and_exceeds_iff hxy b low).2 hlow)]

theorem cannyClass_of_not_above (hhigh : ¬ above b s x y high) (hlow : ¬ above b s x y low) :
    cannyClass low high (processed b s.imgW s.imgH x y) (blurredSquare s x y) = .None := by
  rw [cannyClass, if_neg (mt (processed_and_exceeds_iff hxy b high).1 hhigh),
    if_neg (mt (processed_and_exceeds_iff hxy b low).1 hlow)]

end

theorem cannyPixel_none (k : NoneAlpha) (a : Byte) :
    cannyPixel k a .None = ⟨0, 0, 0, if k = .keep then a else 0⟩ := by
  cases k <;> rfl

/-- Settles O13: a pixel's class is that of its squared response over the blurred image, the Strong test first. -/
theorem cannyWritesTheClassOfEveryPixel : Obligations.CannyWritesTheClassOfEveryPixel := by
  intro b k s hready
  have hframe := completes_completionOf (.canny b k) s
  refine ⟨_, hready.exec_eq, hframe, ⟨hframe.hist rfl, hframe.lut rfl⟩, fun x y hxy => ?_⟩
  rw [dst_completionOf hready rfl hxy, cannyImage_at b k _ _ hxy]
  refine ⟨fun hhigh => ?strong, fun hhigh hlow => ?weak, fun hhigh hlow => ?none⟩
  case strong => rw [cannyClass_of_above hxy hhigh]; rfl
  case weak => rw [cannyClass_of_between hxy hhigh hlow]; rfl
  case none => rw [cannyClass_of_not_above hxy hhigh hlow, cannyPixel_none]

end Sys2Proof.Claims

/-! PROOF. CLAHE (spec/42_clahe.md R126 to R136): the tiles as a partition of the image, the table of a tile entry by
entry, and the completion that maps every pixel through the table of its tile. -/

namespace Sys2Proof.Claims

open Sys2Proof Sys2Proof.Machine

/-! ### The tiles along one side of the image (R126) -/

/-- A number in an interval whose start is the multiple `k` of its length, cut at `n`, has the quotient `k`, and the
ceiling division counts that interval. -/
theorem quotient_of_interval {v n len k : Nat} (hlow : k * len ≤ v) (hhigh : v < min n (k * len + len)) :
    v < n ∧ v / len = k ∧ k < ceilDiv n len := by
  obtain ⟨hn, hnext⟩ := Nat.lt_min.1 hhigh
  have hk : (k + 1) * len = k * len + len := Nat.succ_mul k len
  refine ⟨hn, Nat.div_eq_of_lt_le hlow (by omega), ?_⟩
  rw [ceilDiv, ← Nat.add_one_le_iff, Nat.le_div_iff_mul_le (by omega)]
  omega

theorem tileSide_pos {extent grid : Nat} (hgrid : 0 < grid) (hextent : 0 < extent) : 0 < tileSide extent grid :=
  Nat.div_pos (by omega) hgrid

/-! ### The tile of a position (R126) -/

section

variable {w h grid tx ty x y : Nat}

theorem inside_of_covers (hcov : covers (tileAt w h grid tx ty) x y) : x < w ∧ y < h := by
  obtain ⟨hx1, hx2, hy1, hy2⟩ := hcov
  exact ⟨(quotient_of_interval hx1 hx2).1, (quotient_of_interval hy1 hy2).1⟩

/-- A tile that contains a position has the position's quotients by the two tile sides as its indices. -/
theorem index_of_covers (hcov : covers (tileAt w h grid tx ty) x y) :
    x / tileSide w grid = tx ∧ y / tileSide h grid = ty := by
  obtain ⟨hx1, hx2, hy1, hy2⟩ := hcov
  obtain ⟨-, hx, -⟩ := quotient_of_interval hx1 hx2
  obtain ⟨-, hy, -⟩ := quotient_of_interval hy1 hy2
  exact ⟨hx, hy⟩

/-- A tile that contains a position exists. -/
theorem exists_of_covers (hcov : covers (tileAt w h grid tx ty) x y) :
    tx < tileCount w grid ∧ ty < tileCount h grid := by
  obtain ⟨hx1, hx2, hy1, hy2⟩ := hcov
  obtain ⟨-, -, hx⟩ := quotient_of_interval hx1 hx2
  obtain ⟨-, -, hy⟩ := quotient_of_interval hy1 hy2
  exact ⟨hx, hy⟩

/-- Every position of the image is contained in the tile that its quotients name. -/
theorem covers_quotients (hgrid : 0 < grid) (hx : x < w) (hy : y < h) :
    covers (tileAt w h grid (x / tileSide w grid) (y / tileSide h grid)) x y := by
  have hside (v extent : Nat) (hv : v < extent) : v < v / tileSide extent grid * tileSide extent grid +
      tileSide extent grid := Nat.lt_div_mul_add (tileSide_pos hgrid (by omega))
  exact ⟨Nat.div_mul_le_self _ _, Nat.lt_min.2 ⟨hx, hside x w hx⟩,
    Nat.div_mul_le_self _ _, Nat.lt_min.2 ⟨hy, hside y h hy⟩⟩

end

/-- CLAHE looks a pixel up in the table of the tile that contains it (R132, R133). -/
theorem claheImage_at (d : Degen) (limit : Nat) {grid : Nat} {img : Image} {tx ty x y : Nat}
    (hcov : covers (tileAt img.w img.h grid tx ty) x y) :
    (claheImage d limit grid img).at x y =
      through (tileTable d limit ((tileAt img.w img.h grid tx ty).pixels img)) (img.at x y) := by
  obtain ⟨hx, hy⟩ := inside_of_covers hcov
  obtain ⟨htx, hty⟩ := exists_of_covers hcov
  obtain ⟨hqx, hqy⟩ := index_of_covers hcov
  rw [claheImage, Image.at_ofFn img.w img.h _ _ _ hx hy, hqx, hqy, tileTables_getD d _ limit grid img tx ty htx hty,
    tableApply_eq_through]

/-- Settles O26: the tile of a position is the one that its quotients by the tile sides name. -/
theorem everyPixelLiesInExactlyOneTile : Obligations.EveryPixelLiesInExactlyOneTile := by
  intro d limit grid img x y hgrid hx hy
  have hcov := covers_quotients hgrid hx hy
  obtain ⟨htx, hty⟩ := exists_of_covers hcov
  refine ⟨_, _, ⟨htx, hty, hcov⟩, fun ux uy _ _ hother => ?_, claheImage_at d limit hcov⟩
  obtain ⟨hux, huy⟩ := index_of_covers hother
  exact ⟨hux.symm, huy.symm⟩

/-! ### The pixels of a tile (R126, R127) -/

/-- A tile's pixels are those of the positions it contains. -/
theorem pixels_congr {t : Tile} {img other : Image} (h : ∀ x y, covers t x y → img.at x y = other.at x y) :
    t.pixels img = t.pixels other := by
  refine List.flatMap_congr fun dy hdy => List.map_congr_left fun dx hdx => ?_
  rw [List.mem_range] at hdx hdy
  exact h _ _ ⟨by omega, by omega, by omega, by omega⟩

theorem pixels_length (t : Tile) (img : Image) : (t.pixels img).length = (t.x2 - t.x1) * (t.y2 - t.y1) := by
  simp [Tile.pixels, List.length_flatMap, Nat.mul_comm]

/-- Counting in a list made from a range, as a sum. -/
theorem countP_map_range (q : Pixel → Bool) (f : Nat → Pixel) (n : Nat) :
    ((List.range n).map f).countP q = ∑ k ∈ Finset.range n, if q (f k) = true then 1 else 0 := by
  rw [List.countP_map, ← Finset.card_filter, ← Nat.count_eq_card_filter_range]
  simp [Nat.count, Function.comp_def]

/-- Counting the pixels of a tile is counting the positions it contains, row by row. -/
theorem countP_pixels (t : Tile) (img : Image) (q : Pixel → Bool) :
    (t.pixels img).countP q =
      ((Finset.Ico t.x1 t.x2 ×ˢ Finset.Ico t.y1 t.y2).filter fun p => q (img.at p.1 p.2) = true).card := by
  rw [Finset.card_filter, Finset.sum_product_right, Finset.sum_Ico_eq_sum_range, Tile.pixels, List.countP_flatMap]
  refine congrArg List.sum (List.map_congr_left fun dy _ => ?_)
  rw [Function.comp_apply, countP_map_range, Finset.sum_Ico_eq_sum_range]

/-! ### The table of a tile (R127 to R131) -/

/-- The tile `(tx, ty)` of the model, for the source image of `s`. -/
def sourceTile (s : State) (tx ty : Nat) : Tile := tileAt s.imgW s.imgH s.gridSize.toNat tx ty

theorem covers_of_inTile {s : State} {tx ty x y : Nat} (h : inTile s tx ty x y) : covers (sourceTile s tx ty) x y := by
  obtain ⟨-, -, -, -, hcov⟩ := h
  exact hcov

theorem source_at_of_covers {s : State} {tx ty x y : Nat} (hcov : covers (sourceTile s tx ty) x y) :
    s.source.at x y = src s x y :=
  source_at_eq_src (inside_of_covers hcov)

/-- The histogram of a tile counts the positions of each bin in it (R127). -/
theorem histogramOf_tile_getD (s : State) (tx ty i : Nat) (hi : i < 256) :
    (histogramOf ((sourceTile s tx ty).pixels s.source)).getD i 0 =
      countIn s (tileX1 s tx) (tileY1 s ty) (tileX2 s tx) (tileY2 s ty) i := by
  rw [histogramOf_getD _ _ hi, countP_pixels, countIn]
  refine congrArg Finset.card (Finset.filter_congr fun p hp => ?_)
  have hcov : covers (sourceTile s tx ty) p.1 p.2 := by
    simpa only [covers, Finset.mem_product, Finset.mem_Ico, and_assoc] using hp
  rw [source_at_of_covers hcov, beq_iff_eq]
  rfl

/-- The histogram of a tile, clipped at the tile's limit. -/
def clippedHistogram (s : State) (tx ty : Nat) : List Nat :=
  let ps := (sourceTile s tx ty).pixels s.source
  clipped (clipBound s.clipLimit.toNat ps.length) (histogramOf ps)

theorem tileTable_eq_claheTable (d : Degen) (s : State) (tx ty : Nat) :
    tileTable d s.clipLimit.toNat ((sourceTile s tx ty).pixels s.source) =
      claheTable d (cdfOf (clippedHistogram s tx ty)) := rfl

theorem clippedHistogram_length (s : State) (tx ty : Nat) : (clippedHistogram s tx ty).length = 256 := by
  simp [clippedHistogram, clipped]

/-- The clipped histogram entry by entry (R128). -/
theorem clippedHistogram_getD (s : State) (tx ty i : Nat) (hi : i < 256) :
    (clippedHistogram s tx ty).getD i 0 = clippedCount s tx ty i := by
  rw [clippedHistogram, clipped_getD _ _ _ (by simpa using hi), histogramOf_tile_getD s tx ty i hi, pixels_length]
  rfl

/-- The running sums of a tile's clipped histogram are its CDF (R129). -/
theorem cdfOf_clippedHistogram_getD (s : State) (tx ty i : Nat) (hi : i < 256) :
    (cdfOf (clippedHistogram s tx ty)).getD i 0 = cdf (clippedCount s tx ty) i := by
  rw [cdfOf_getD _ _ (by rwa [clippedHistogram_length]), sum_take_eq_sum_getD, cdf]
  refine Finset.sum_congr rfl fun j hj => clippedHistogram_getD s tx ty j ?_
  have := Finset.mem_range.1 hj
  omega

theorem entry_tableOf (f : Nat → Nat) (v : Byte) : entry (tableOf f) v = BitVec.ofNat 8 (f v.toNat) :=
  tableOf_at f v

theorem entry_degenerateTable (d : Degen) (v : Byte) :
    entry (degenerateTable d) v = BitVec.ofNat 8 (degenerate d v.toNat) := by
  cases d with
  | identity => exact entry_tableOf (fun i => i) v
  | zero => exact entry_tableOf (fun _ => 0) v

/-- The table of a tile entry by entry, the degenerate one where the span of the CDF is 0 (R130, R131). -/
theorem entry_tileTable (d : Degen) (s : State) (tx ty : Nat) (v : Byte) :
    entry (tileTable d s.clipLimit.toNat ((sourceTile s tx ty).pixels s.source)) v =
      BitVec.ofNat 8 (tileEntry d s tx ty v.toNat) := by
  have hcdf (i : Nat) (hi : i < 256) := cdfOf_clippedHistogram_getD s tx ty i hi
  rw [tileTable_eq_claheTable]
  simp only [claheTable, tileEntry, hcdf 0 (by decide), hcdf 255 (by decide)]
  generalize cdf (clippedCount s tx ty) 255 - cdf (clippedCount s tx ty) 0 = span
  by_cases hspan : span = 0
  · rw [if_pos hspan, if_pos hspan]
    exact entry_degenerateTable d v
  · rw [if_neg hspan, if_neg hspan, entry_tableOf, hcdf v.toNat v.isLt, rhu, ← Nat.mul_assoc]

/-! ### The completion (R132 to R136) -/

/-- CLAHE writes each pixel of a tile as looked up in the tile's table. -/
theorem dst_clahe {d : Degen} {s : State} (hready : Ready (.clahe d) s) {tx ty x y : Nat}
    (hcov : covers (sourceTile s tx ty) x y) :
    dst s (completionOf (.clahe d) s) x y =
      through (tileTable d s.clipLimit.toNat ((sourceTile s tx ty).pixels s.source)) (src s x y) := by
  have hpixel := claheImage_at (img := s.source) d s.clipLimit.toNat hcov
  rw [source_at_of_covers hcov] at hpixel
  exact (dst_completionOf hready rfl (inside_of_covers hcov)).trans hpixel

/-- Settles O14: a pixel is looked up in the table of its tile, whose entries are those of R129 to R131. -/
theorem claheMapsEveryPixelThroughItsTile : Obligations.ClaheMapsEveryPixelThroughItsTile := by
  intro d s hready _
  refine ⟨_, hready.exec_eq, completes_completionOf _ s, fun tx ty x y _ htile => ?_⟩
  rw [dst_clahe hready (covers_of_inTile htile), through, entry_tileTable, entry_tileTable, entry_tileTable]

/-- Settles O27: the two sources have the same pixels in the tile, so the tile has the same table. -/
theorem claheTilesAreIndependent : Obligations.ClaheTilesAreIndependent := by
  intro d s u tx ty hs hu _ _ _ hwidth hheight hclip hgrid hsource
  refine ⟨_, _, hs.exec_eq, hu.exec_eq, fun x y hxy htile => ?_⟩
  have hsame : sourceTile u tx ty = sourceTile s tx ty := by
    simp only [sourceTile, State.imgW, State.imgH, hwidth, hheight, hgrid]
  have hcov := covers_of_inTile htile
  have hpixels : (sourceTile s tx ty).pixels u.source = (sourceTile s tx ty).pixels s.source := by
    obtain ⟨htx, hty, hx1, hy1, -⟩ := htile
    refine pixels_congr fun x' y' hcov' => ?_
    rw [source_at_of_covers (hsame ▸ hcov'), source_at_of_covers hcov']
    exact hsource x' y' (inside_of_covers hcov') ⟨htx, hty, hx1, hy1, hcov'⟩
  have hpixel := dst_clahe hu (hsame ▸ hcov)
  rw [hpixel, dst_clahe hs hcov, hsame, hpixels, hclip, hsource x y hxy htile]

end Sys2Proof.Claims

/-! PROOF. The histogram HIST and EQUALIZE leave (spec/43_equalize.md R141 to R143), and the monotony of EQUALIZE's
table (R151). -/

namespace Sys2Proof.Claims

open Sys2Proof Sys2Proof.Machine

/-! ### The histogram (R141 to R143) -/

/-- An operation that writes the source image's histogram leaves the global counts in HIST (R141). -/
theorem holdsHistogram_completionOf {i : Instr} {s : State} (hk : s.ownershipKept)
    (h : (effectOf i s).hist = .wrote (histogramFile (histogramOf s.source.px))) :
    HoldsHistogram s (completionOf i s) := by
  intro k hlt
  rw [completionOf_hist_wrote hk h]
  exact histogramFile_source_toNat s k hlt

/-- The entries of a HIST file that holds the global counts sum to their last CDF entry, the pixel count (R144). -/
theorem HoldsHistogram.sum_eq {s t : State} (h : HoldsHistogram s t) :
    (t.hist.toList.map BitVec.toNat).sum = s.pixelCount := by
  have hlen : (t.hist.toList.map BitVec.toNat).length = 256 := by simp
  have hentry : ∀ k ∈ Finset.range 256, (t.hist.toList.map BitVec.toNat).getD k 0 = globalCount s k := by
    intro k hk
    have hlt := Finset.mem_range.1 hk
    rw [List.getD_eq_getElem _ _ (by rwa [hlen]), List.getElem_map, Vector.getElem_toList, h k hlt]
  calc (t.hist.toList.map BitVec.toNat).sum
      = ((t.hist.toList.map BitVec.toNat).take 256).sum := by rw [List.take_of_length_le hlen.le]
    _ = ∑ k ∈ Finset.range 256, (t.hist.toList.map BitVec.toNat).getD k 0 := sum_take_eq_sum_getD _ _
    _ = cdf (globalCount s) 255 := Finset.sum_congr rfl hentry
    _ = s.pixelCount := cdf_globalCount_last s

/-- Settles O15: HIST has no destination and leaves LUT, and HIST takes the histogram of the source image. -/
theorem histWritesTheGlobalHistogram : Obligations.HistWritesTheGlobalHistogram := by
  intro s hready
  have hframe := completes_completionOf .hist s
  exact ⟨_, hready.exec_eq, hframe, finish_mem_none s _ _ _ rfl, hframe.lut rfl,
    holdsHistogram_completionOf hready.kept rfl⟩

/-- Settles O24: both operations write the histogram of the source image, in which every pixel is counted once. -/
theorem histogramSumsToThePixelCount : Obligations.HistogramSumsToThePixelCount := by
  intro i s hi hready
  have hwrote : (effectOf i s).hist = .wrote (histogramFile (histogramOf s.source.px)) := by
    rcases hi with rfl | ⟨d, rfl⟩ <;> rfl
  exact ⟨_, hready.exec_eq, (holdsHistogram_completionOf hready.kept hwrote).sum_eq⟩

/-! ### The table of EQUALIZE never decreases (R151) -/

theorem degenerate_mono (d : Degen) {i j : Nat} (hij : i ≤ j) : degenerate d i ≤ degenerate d j := by
  cases d with
  | identity => exact hij
  | zero => exact Nat.le_refl 0

theorem cdf_mono (h : Nat → Nat) {i j : Nat} (hij : i ≤ j) : cdf h i ≤ cdf h j :=
  Finset.sum_le_sum_of_subset (Finset.range_mono (Nat.succ_le_succ hij))

/-- The entries of R147 rise with the CDF, and are 0 while it is below `CDF_min`. -/
theorem globalEntry_mono (d : Degen) (s : State) (m : Nat) {i j : Nat} (hij : i ≤ j) :
    globalEntry d s m i ≤ globalEntry d s m j := by
  have hcdf := cdf_mono (globalCount s) hij
  simp only [globalEntry]
  by_cases hden : s.pixelCount - m = 0
  · rw [if_pos hden, if_pos hden]
    exact degenerate_mono d hij
  rw [if_neg hden, if_neg hden]
  by_cases hlow : cdf (globalCount s) i < m
  · rw [if_pos hlow]
    exact Nat.zero_le _
  · rw [if_neg hlow, if_neg (by omega)]
    exact Nat.div_le_div_right (by omega)

/-- An image without a pixel leaves no denominator, so its table is the degenerate one (R148). -/
theorem equalizeTable_of_empty (d : Degen) {s : State} (hn : s.pixelCount = 0) :
    equalizeTable .firstNonzero d s.source = degenerateTable d := by
  rw [equalizeTable, State.source_length, hn, globalTable, if_pos (Nat.zero_sub _)]

/-- The table EQUALIZE builds from the source image never decreases (R151). -/
theorem equalizeTable_mono (d : Degen) (s : State) {i j : Nat} (hij : i ≤ j) (hj : j < 256) :
    ((equalizeTable .firstNonzero d s.source)[i]).toNat ≤ ((equalizeTable .firstNonzero d s.source)[j]).toNat := by
  have hi : i < 256 := by omega
  rcases Nat.eq_zero_or_pos s.pixelCount with hn | hn
  · rw [equalizeTable_of_empty d hn, degenerateTable_toNat d i hi, degenerateTable_toNat d j hj]
    exact degenerate_mono d hij
  · obtain ⟨m, hm⟩ := exists_isCdfMin s hn
    rw [equalizeTable_toNat d s m hm i hi, equalizeTable_toNat d s m hm j hj]
    exact globalEntry_mono d s m hij

/-- Settles O25: LUT takes the table of the source image. -/
theorem equalizeTableNeverDecreases : Obligations.EqualizeTableNeverDecreases := by
  intro d s hready
  have hlut : (completionOf (.equalize d) s).lut = equalizeTable .firstNonzero d s.source :=
    completionOf_lut_wrote hready.kept rfl
  refine ⟨_, hready.exec_eq, fun i j hj hij => ?_⟩
  simp only [hlut]
  exact equalizeTable_mono d s hij hj

end Sys2Proof.Claims

/-! PROOF. The pointwise operations (spec/44_tone.md R156): the remap of every pixel through one table, its frame, and
LUTAPPLY. -/

namespace Sys2Proof.Claims

open Sys2Proof Sys2Proof.Machine

/-- An entry of a table whose value is a byte. -/
theorem tableOf_toNat (f : Nat → Nat) {i : Nat} (hi : i < 256) (hf : f i ≤ 255) : ((tableOf f)[i]).toNat = f i := by
  rw [tableOf_getElem f i hi, BitVec.toNat_ofNat, Nat.mod_eq_of_lt (by omega)]

/-- Where the computed image is the source image looked up in `table`, so is the destination (R156). -/
theorem dst_of_remap {i : Instr} {s : State} (hready : Ready i s) {table : Table}
    (himg : (effectOf i s).dst = some (s.source.mapPixels (Table.apply table))) {x y : Nat} (hxy : inImage s x y) :
    dst s (completionOf i s) x y = through table (src s x y) := by
  rw [dst_completionOf hready himg hxy, mapPixels_source_at _ hxy, tableApply_eq_through]

/-- Settles O20: LUTAPPLY writes neither file, and its image is the source looked up in the LUT of the acceptance. -/
theorem lutapplyRemapsThroughTheLutFile : Obligations.LutapplyRemapsThroughTheLutFile := by
  intro s hready
  have hframe := completes_completionOf .lutapply s
  exact ⟨_, hready.exec_eq, hframe, ⟨hframe.hist rfl, hframe.lut rfl⟩, fun x y hxy => dst_of_remap hready rfl hxy⟩

end Sys2Proof.Claims

/-! PROOF. The gamma table (spec/44_tone.md R157 to R160): every entry is the real power rounded half up, so what the
power does on `[0, 1]` the table does on its indices. -/

namespace Sys2Proof.Machine

open Sys2Proof

/-! ### Rounding half up, in the reals (R17) -/

/-- A number not above `x` is not above `x` rounded. -/
theorem le_floor_add_half {m : ℕ} {x : ℝ} (h : (m : ℝ) ≤ x) : (m : ℤ) ≤ ⌊x + 1 / 2⌋ :=
  Int.le_floor.2 (by push_cast; linarith)

/-- A number not below `x` is not below `x` rounded. -/
theorem floor_add_half_le {m : ℕ} {x : ℝ} (h : x ≤ m) : ⌊x + 1 / 2⌋ ≤ (m : ℤ) :=
  Int.lt_add_one_iff.1 (Int.floor_lt.2 (by push_cast; linarith))

/-- A number rounds to itself. -/
theorem floor_natCast_add_half (m : ℕ) : ⌊(m : ℝ) + 1 / 2⌋ = (m : ℤ) :=
  le_antisymm (floor_add_half_le le_rfl) (le_floor_add_half le_rfl)

/-! ### The exponent (R158) -/

/-- The exponent of the gamma curve, from the fraction the model computes with. -/
noncomputable def gammaRatio (g : ℕ) (e : GammaExp) : ℝ := ((gammaExponent g e).1 : ℝ) / (gammaExponent g e).2

/-- Two numbers divided by their common divisor keep their ratio. -/
theorem cast_div_common_ratio {a b d : ℕ} (hd : d ≠ 0) (ha : d ∣ a) (hb : d ∣ b) :
    ((a / d : ℕ) : ℝ) / ((b / d : ℕ) : ℝ) = (a : ℝ) / b := by
  have hd' : (d : ℝ) ≠ 0 := Nat.cast_ne_zero.2 hd
  rw [Nat.cast_div ha hd', Nat.cast_div hb hd', div_div_div_cancel_right₀ hd']

section

variable {g : ℕ} (hg : 0 < g)

theorem gammaRatio_inverse : gammaRatio g .inverse = 65536 / g := by
  have h := cast_div_common_ratio (Nat.gcd_pos_of_pos_left g (by norm_num : 0 < 65536)).ne'
    (Nat.gcd_dvd_left 65536 g) (Nat.gcd_dvd_right 65536 g)
  exact_mod_cast h

theorem gammaRatio_direct : gammaRatio g .direct = g / 65536 := by
  have h := cast_div_common_ratio (Nat.gcd_pos_of_pos_left g (by norm_num : 0 < 65536)).ne'
    (Nat.gcd_dvd_right 65536 g) (Nat.gcd_dvd_left 65536 g)
  exact_mod_cast h

include hg

theorem gammaExponent_snd_pos (e : GammaExp) : 0 < (gammaExponent g e).2 := by
  have hd := Nat.gcd_pos_of_pos_left g (by norm_num : 0 < 65536)
  cases e with
  | inverse => exact Nat.div_pos (Nat.le_of_dvd hg (Nat.gcd_dvd_right _ _)) hd
  | direct => exact Nat.div_pos (Nat.le_of_dvd (by norm_num) (Nat.gcd_dvd_left _ _)) hd

theorem gammaRatio_pos (e : GammaExp) : 0 < gammaRatio g e := by
  have hg' : (0 : ℝ) < g := Nat.cast_pos.2 hg
  cases e with
  | inverse => rw [gammaRatio_inverse]; positivity
  | direct => rw [gammaRatio_direct]; positivity

theorem gammaRatio_le_one {e : GammaExp} (h : 65536 < g ∧ e = .inverse ∨ g < 65536 ∧ e = .direct) :
    gammaRatio g e ≤ 1 := by
  have hg' : (0 : ℝ) < g := Nat.cast_pos.2 hg
  rcases h with ⟨h, rfl⟩ | ⟨h, rfl⟩
  · rw [gammaRatio_inverse, div_le_one hg']
    exact_mod_cast h.le
  · rw [gammaRatio_direct, div_le_one (by norm_num)]
    exact_mod_cast h.le

theorem one_le_gammaRatio {e : GammaExp} (h : g < 65536 ∧ e = .inverse ∨ 65536 < g ∧ e = .direct) :
    1 ≤ gammaRatio g e := by
  have hg' : (0 : ℝ) < g := Nat.cast_pos.2 hg
  rcases h with ⟨h, rfl⟩ | ⟨h, rfl⟩
  · rw [gammaRatio_inverse, one_le_div hg']
    exact_mod_cast h.le
  · rw [gammaRatio_direct, one_le_div (by norm_num)]
    exact_mod_cast h.le

end

theorem gammaRatio_unit (e : GammaExp) : gammaRatio 65536 e = 1 := by
  cases e with
  | inverse => rw [gammaRatio_inverse]; norm_num
  | direct => rw [gammaRatio_direct]; norm_num

theorem gammaRatio_two {g : ℕ} {e : GammaExp} (h : g = 0x00008000 ∧ e = .inverse ∨ g = 0x00020000 ∧ e = .direct) :
    gammaRatio g e = 2 := by
  rcases h with ⟨rfl, rfl⟩ | ⟨rfl, rfl⟩
  · rw [gammaRatio_inverse]; norm_num
  · rw [gammaRatio_direct]; norm_num

/-! ### The curve (R157) -/

/-- The gamma curve with exponent `r` at the index `i`, before rounding. -/
noncomputable def gammaCurve (r : ℝ) (i : ℕ) : ℝ := 255 * ((i : ℝ) / 255) ^ r

theorem gammaCurve_zero {r : ℝ} (hr : 0 < r) : gammaCurve r 0 = 0 := by
  rw [gammaCurve, Nat.cast_zero, zero_div, Real.zero_rpow hr.ne', mul_zero]

theorem gammaCurve_last (r : ℝ) : gammaCurve r 255 = 255 := by
  rw [gammaCurve, Nat.cast_ofNat, div_self (by norm_num), Real.one_rpow, mul_one]

theorem gammaCurve_nonneg (r : ℝ) (i : ℕ) : 0 ≤ gammaCurve r i := by
  unfold gammaCurve
  positivity

theorem gammaCurve_mono {r : ℝ} (hr : 0 ≤ r) {i j : ℕ} (hij : i ≤ j) : gammaCurve r i ≤ gammaCurve r j := by
  unfold gammaCurve
  gcongr

theorem gammaCurve_one (i : ℕ) : gammaCurve 1 i = i := by
  rw [gammaCurve, Real.rpow_one, mul_div_cancel₀ _ (by norm_num)]

theorem gammaCurve_two (i : ℕ) : gammaCurve 2 i = ((i ^ 2 : ℕ) : ℝ) / (255 : ℕ) := by
  rw [gammaCurve, Real.rpow_two]
  push_cast
  ring

theorem unit_interval_of_byte {i : ℕ} (hi : i < 256) : (0 : ℝ) ≤ (i : ℝ) / 255 ∧ (i : ℝ) / 255 ≤ 1 := by
  have h : (i : ℝ) ≤ 255 := by exact_mod_cast Nat.lt_succ_iff.1 hi
  exact ⟨by positivity, (div_le_one (by norm_num)).2 h⟩

/-- An exponent not above 1 raises every point of the curve. -/
theorem le_gammaCurve {r : ℝ} (hr : r ≤ 1) {i : ℕ} (hi : i < 256) : (i : ℝ) ≤ gammaCurve r i := by
  obtain ⟨h0, h1⟩ := unit_interval_of_byte hi
  have h := Real.self_le_rpow_of_le_one h0 h1 hr
  rw [gammaCurve]
  linarith

/-- An exponent not below 1 lowers every point of the curve. -/
theorem gammaCurve_le {r : ℝ} (hr : 1 ≤ r) {i : ℕ} (hi : i < 256) : gammaCurve r i ≤ i := by
  obtain ⟨h0, h1⟩ := unit_interval_of_byte hi
  have h := Real.rpow_le_self_of_le_one h0 h1 hr
  rw [gammaCurve]
  linarith

/-! ### The entries (R157) -/

/-- The integer comparison is the comparison with the curve: both sides of `(2m − 1)/510 ≤ (i/255)^(p/q)` are raised
to the power `q` and cleared of their denominators. -/
theorem gammaReaches_iff_le_curve {p q i m : ℕ} (hq : 0 < q) (hi : 0 < i) (hi' : i < 256) (hm : 0 < m) (hm' : m < 256) :
    gammaReaches p q i m = true ↔ (m : ℝ) ≤ gammaCurve ((p : ℝ) / q) i + 1 / 2 := by
  have hpow : (((i : ℝ) / 255) ^ ((p : ℝ) / q)) ^ q = ((i : ℝ) / 255) ^ p := by
    rw [← Real.rpow_natCast, ← Real.rpow_mul (by positivity), div_mul_cancel₀ _ (Nat.cast_ne_zero.2 hq.ne'),
      Real.rpow_natCast]
  have hhalf : (0 : ℝ) ≤ ((2 * m - 1 : ℕ) : ℝ) / 510 := by positivity
  calc gammaReaches p q i m = true
      ↔ (2 * m - 1) ^ q * 255 ^ p ≤ i ^ p * 510 ^ q := gammaReaches_iff p q i m hq hi hi' hm hm'
    _ ↔ ((2 * m - 1 : ℕ) : ℝ) ^ q * 255 ^ p ≤ (i : ℝ) ^ p * 510 ^ q := by norm_cast
    _ ↔ (((2 * m - 1 : ℕ) : ℝ) / 510) ^ q ≤ ((i : ℝ) / 255) ^ p := by
      rw [div_pow, div_pow, div_le_div_iff₀ (by positivity) (by positivity)]
    _ ↔ ((2 * m - 1 : ℕ) : ℝ) / 510 ≤ ((i : ℝ) / 255) ^ ((p : ℝ) / q) := by
      rw [← hpow, pow_le_pow_iff_left₀ hhalf (by positivity) hq.ne']
    _ ↔ (m : ℝ) ≤ gammaCurve ((p : ℝ) / q) i + 1 / 2 := by
      rw [gammaCurve, div_le_iff₀ (by norm_num), Nat.cast_sub (by omega)]
      push_cast
      constructor <;> intro h <;> linarith

section

variable {g : ℕ} (hg : 0 < g) (e : GammaExp)

include hg

/-- Every entry is the point of the curve rounded half up (R157). -/
theorem gammaEntry_eq_floor {i : ℕ} (hi : i < 256) :
    ((gammaEntry g e i : ℕ) : ℤ) = ⌊gammaCurve (gammaRatio g e) i + 1 / 2⌋ := by
  have hr := gammaRatio_pos hg e
  unfold gammaEntry
  split
  · rename_i h0
    rw [h0, gammaCurve_zero hr]
    exact_mod_cast (floor_natCast_add_half 0).symm
  split
  · rename_i hlast
    rw [hlast, gammaCurve_last]
    exact_mod_cast (floor_natCast_add_half 255).symm
  · rename_i h0 hlast
    have hnonneg : 0 ≤ gammaCurve (gammaRatio g e) i + 1 / 2 := by
      linarith [gammaCurve_nonneg (gammaRatio g e) i]
    have hlast' : ⌊gammaCurve (gammaRatio g e) i + 1 / 2⌋ ≤ ((255 : ℕ) : ℤ) :=
      floor_add_half_le ((gammaCurve_mono hr.le (Nat.lt_succ_iff.1 hi)).trans_eq (by rw [gammaCurve_last]; norm_num))
    obtain ⟨top, htop⟩ := Int.eq_ofNat_of_zero_le (Int.floor_nonneg.2 hnonneg)
    rw [htop] at hlast' ⊢
    refine congrArg Nat.cast (bitSearch_eq _ top 8 0 (Nat.zero_le _) (by omega) fun m hm0 hm => ?_)
    rw [gammaReaches_iff_le_curve (gammaExponent_snd_pos hg e) (by omega) hi hm0 (by omega), ← gammaRatio,
      ← Int.cast_natCast m, ← Int.le_floor, htop]
    exact Int.ofNat_le

/-- The table never decreases (R159, P2). -/
theorem gammaEntry_mono {i j : ℕ} (hij : i ≤ j) (hj : j < 256) : gammaEntry g e i ≤ gammaEntry g e j := by
  have hcurve := gammaCurve_mono (gammaRatio_pos hg e).le hij
  rw [← Int.ofNat_le, gammaEntry_eq_floor hg e (by omega), gammaEntry_eq_floor hg e hj]
  exact Int.floor_mono (by linarith)

/-- Every entry is a byte (R159, P3): none is above the last. -/
theorem gammaEntry_le {i : ℕ} (hi : i < 256) : gammaEntry g e i ≤ 255 :=
  gammaEntry_mono hg e (Nat.lt_succ_iff.1 hi) (by norm_num)

end

end Sys2Proof.Machine

namespace Sys2Proof.Claims

open Sys2Proof Sys2Proof.Machine

/-- Settles O21: P1 to P6 are what the curve does at its ends, between them, and for the exponents 1 and 2. -/
theorem gammaTableHasItsNamedProperties : Obligations.GammaTableHasItsNamedProperties := by
  intro g e hg _
  have hfloor : ∀ i, i < 256 → ((gammaEntry g e i : ℕ) : ℤ) = ⌊gammaCurve (gammaRatio g e) i + 1 / 2⌋ :=
    fun i hi => gammaEntry_eq_floor hg e hi
  refine ⟨rfl, rfl, fun i j => gammaEntry_mono hg e, fun i => gammaEntry_le hg e, ?_, ?_, ?_, ?_⟩
  · rintro rfl i hi
    rw [← Int.natCast_inj, hfloor i hi, gammaRatio_unit, gammaCurve_one, floor_natCast_add_half]
  · intro h i hi
    rw [← Int.natCast_inj, hfloor i hi, gammaRatio_two h, gammaCurve_two, rhu_eq_floor _ _ (by norm_num)]
  · intro h i hi
    rw [← Int.ofNat_le, hfloor i hi]
    exact le_floor_add_half (le_gammaCurve (gammaRatio_le_one hg h) hi)
  · intro h i hi
    rw [← Int.ofNat_le, hfloor i hi]
    exact floor_add_half_le (gammaCurve_le (one_le_gammaRatio hg h) hi)

theorem gammaPower_eq_gammaRatio (s : State) (e : GammaExp) : gammaPower s e = gammaRatio s.gamma.toNat e := by
  cases e with
  | inverse => exact gammaRatio_inverse.symm
  | direct => exact gammaRatio_direct.symm

/-- Settles O17: LUT takes the gamma table, entry by entry the rounded power, and the image is looked up in it. -/
theorem gammaAppliesTheExactlyRoundedPower : Obligations.GammaAppliesTheExactlyRoundedPower := by
  intro e s hready hgamma
  have hg : 0 < s.gamma.toNat := Nat.pos_of_ne_zero fun h => hgamma (BitVec.eq_of_toNat_eq h)
  have hframe := completes_completionOf (.gamma e) s
  have hlut : (completionOf (.gamma e) s).lut = gammaTable s.gamma.toNat e := completionOf_lut_wrote hready.kept rfl
  have hentry : ∀ i (hi : i < 256), ((completionOf (.gamma e) s).lut[i]).toNat = gammaEntry s.gamma.toNat e i := by
    intro i hi
    rw [hlut]
    exact tableOf_toNat _ hi (gammaEntry_le hg e hi)
  refine ⟨_, hready.exec_eq, hframe, hframe.hist rfl, hentry 0 (by norm_num), fun i hi _ => ?_, fun x y hxy => ?_⟩
  · rw [hentry i hi, gammaEntry_eq_floor hg e hi, gammaPower_eq_gammaRatio, gammaCurve]
  · rw [hlut]
    exact dst_of_remap hready rfl hxy

end Sys2Proof.Claims

/-! PROOF. The sigmoid table (spec/44_tone.md R162 to R166): its entries by the sign of CONTRAST, its properties, and
the copy at CONTRAST = 0. -/

namespace Sys2Proof.Claims

open Sys2Proof Sys2Proof.Machine

/-! ### The factor (R162) -/

theorem factor_eq_exp (c : ℤ) : factor c = Real.exp (c.natAbs / 16384) := by
  have habs : ((c.natAbs : ℕ) : ℝ) = |(c : ℝ)| := by rw [Nat.cast_natAbs, Int.cast_abs]
  rw [factor, habs, abs_div, abs_of_pos (by norm_num : (0 : ℝ) < 65536)]
  ring_nf

theorem one_le_factor (c : ℤ) : 1 ≤ factor c := Real.one_le_exp (by positivity)

theorem factor_pos (c : ℤ) : 0 < factor c := Real.exp_pos _

/-- The factor at either end of the range is `e^4`, which is about 54.598. -/
theorem factor_bounds_of_full {c : ℤ} (hc : c.natAbs = 65536) : 54.59 < factor c ∧ factor c < 54.6 := by
  have hpow : factor c = Real.exp 1 ^ 4 := by rw [factor_eq_exp, hc, ← Real.exp_nat_mul]; norm_num
  rw [hpow]
  constructor
  · calc (54.59 : ℝ) < 2.7182818283 ^ 4 := by norm_num
      _ < Real.exp 1 ^ 4 := by gcongr; exact Real.exp_one_gt_d9
  · calc Real.exp 1 ^ 4 < 2.7182818286 ^ 4 := by gcongr; exact Real.exp_one_lt_d9
      _ < 54.6 := by norm_num

/-! ### The entries by the sign of CONTRAST (R163) -/

theorem sigmoidEntry_of_zero (i : ℕ) : sigmoidEntry 0 i = i := if_pos rfl

section

variable {c : ℤ} (hc : c.natAbs ≤ 65536) {i : ℕ} (hi : i < 256)

include hc hi

theorem sigmoidEntry_of_pos (hpos : 0 < c) :
    ((sigmoidEntry c i : ℕ) : ℤ) = min 255 ⌊(i : ℝ) * factor c + 1 / 2⌋ := by
  rw [sigmoidEntry_eq c hc i hi, if_neg hpos.ne', scaled, if_pos hpos, factor_eq_exp]

/-- Division by the factor never exceeds a byte, so the clamp does nothing. -/
theorem sigmoidEntry_of_neg (hneg : c < 0) : ((sigmoidEntry c i : ℕ) : ℤ) = ⌊(i : ℝ) / factor c + 1 / 2⌋ := by
  have hshrink : (i : ℝ) / factor c ≤ i := div_le_self (by positivity) (one_le_factor c)
  have hbyte := floor_add_half_le hshrink
  rw [sigmoidEntry_eq c hc i hi, if_neg hneg.ne, scaled, if_neg (by omega), ← factor_eq_exp, min_eq_right (by omega)]

/-- Every entry is a byte (R165, Q3). -/
theorem sigmoidEntry_le : sigmoidEntry c i ≤ 255 := by
  rw [← Int.ofNat_le, sigmoidEntry_eq c hc i hi]
  split
  · omega
  · exact min_le_left _ _

/-- A positive contrast never darkens (R165, Q5). -/
theorem le_sigmoidEntry_of_pos (hpos : 0 < c) : i ≤ sigmoidEntry c i := by
  have hgrow : (i : ℝ) ≤ i * factor c := le_mul_of_one_le_right (by positivity) (one_le_factor c)
  have hle := le_floor_add_half hgrow
  rw [← Int.ofNat_le, sigmoidEntry_of_pos hc hi hpos]
  omega

/-- A product that rounds to 255 or more saturates (R165, Q5). -/
theorem sigmoidEntry_saturates (hpos : 0 < c) (h : 254.5 ≤ (i : ℝ) * factor c) : sigmoidEntry c i = 255 := by
  have hle : (255 : ℤ) ≤ ⌊(i : ℝ) * factor c + 1 / 2⌋ := Int.le_floor.2 (by push_cast; linarith)
  rw [← Int.natCast_inj, sigmoidEntry_of_pos hc hi hpos, min_eq_left hle]
  rfl

/-- A negative contrast never brightens (R165, Q5). -/
theorem sigmoidEntry_le_of_neg (hneg : c < 0) : sigmoidEntry c i ≤ i := by
  rw [← Int.ofNat_le, sigmoidEntry_of_neg hc hi hneg]
  exact floor_add_half_le (div_le_self (by positivity) (one_le_factor c))

end

section

variable {c : ℤ} (hc : c.natAbs ≤ 65536)

include hc

/-- The product or quotient 0 rounds to 0 (R165, Q1). -/
theorem sigmoidEntry_at_zero : sigmoidEntry c 0 = 0 := by
  have hround : ⌊(0 : ℝ) + 1 / 2⌋ = 0 := by exact_mod_cast floor_natCast_add_half 0
  rcases lt_trichotomy c 0 with hneg | rfl | hpos
  · exact Nat.le_zero.1 (sigmoidEntry_le_of_neg hc (by norm_num) hneg)
  · exact sigmoidEntry_of_zero 0
  · rw [← Int.natCast_inj, sigmoidEntry_of_pos hc (by norm_num) hpos, Nat.cast_zero, zero_mul, hround]
    rfl

/-- The table never decreases (R165, Q2). -/
theorem sigmoidEntry_mono {i j : ℕ} (hij : i ≤ j) (hj : j < 256) : sigmoidEntry c i ≤ sigmoidEntry c j := by
  have hi : i < 256 := by omega
  have hfactor := factor_pos c
  rcases lt_trichotomy c 0 with hneg | rfl | hpos
  · rw [← Int.ofNat_le, sigmoidEntry_of_neg hc hi hneg, sigmoidEntry_of_neg hc hj hneg]
    gcongr
  · rwa [sigmoidEntry_of_zero, sigmoidEntry_of_zero]
  · rw [← Int.ofNat_le, sigmoidEntry_of_pos hc hi hpos, sigmoidEntry_of_pos hc hj hpos]
    gcongr

end

/-- An entry of the table at CONTRAST = +1, from the bounds of the factor. -/
theorem sigmoidEntry_at_one {i v : ℕ} (hi : i < 256) (hv : v ≤ 255) (hlow : (v : ℝ) - 1 / 2 ≤ i * 54.59)
    (hhigh : (i : ℝ) * 54.6 < v + 1 / 2) : sigmoidEntry 65536 i = v := by
  obtain ⟨hfl, hfh⟩ := factor_bounds_of_full (c := 65536) rfl
  have hi0 : (0 : ℝ) ≤ i := by positivity
  have hround : ⌊(i : ℝ) * factor 65536 + 1 / 2⌋ = (v : ℤ) := by
    rw [Int.floor_eq_iff, Int.cast_natCast]
    constructor <;> nlinarith
  rw [← Int.natCast_inj, sigmoidEntry_of_pos (by decide) hi (by norm_num), hround, min_eq_right (by omega)]

/-- From entry 5 on the table at CONTRAST = +1 is saturated. -/
theorem sigmoidEntry_at_one_saturated {i : ℕ} (hi5 : 5 ≤ i) (hi : i < 256) : sigmoidEntry 65536 i = 255 := by
  have hfl := (factor_bounds_of_full (c := 65536) rfl).1
  have hi' : (5 : ℝ) ≤ i := by exact_mod_cast hi5
  exact sigmoidEntry_saturates (by decide) hi (by norm_num) (by nlinarith)

/-- The last entry of the table at CONTRAST = −1. -/
theorem sigmoidEntry_at_neg_one : sigmoidEntry (-65536) 255 = 5 := by
  obtain ⟨hfl, hfh⟩ := factor_bounds_of_full (c := -65536) rfl
  have hpos := factor_pos (-65536)
  have hlow : (4.5 : ℝ) ≤ 255 / factor (-65536) := (le_div_iff₀ hpos).2 (by linarith)
  have hhigh : 255 / factor (-65536) < 5.5 := (div_lt_iff₀ hpos).2 (by linarith)
  rw [← Int.natCast_inj, sigmoidEntry_of_neg (by decide) (by norm_num) (by norm_num), Int.floor_eq_iff]
  push_cast
  constructor <;> linarith

/-- Settles O22: Q1 to Q6 by the sign of CONTRAST, and the two ends of the range by the bounds of `e^4`. -/
theorem sigmoidTableHasItsNamedProperties : Obligations.SigmoidTableHasItsNamedProperties := by
  intro c hc
  refine ⟨sigmoidEntry_at_zero hc, fun i j => sigmoidEntry_mono hc, fun i => sigmoidEntry_le hc, ?_, ?_,
    fun hneg i hi => sigmoidEntry_le_of_neg hc hi hneg, ?_, ?_⟩
  · rintro rfl i _
    exact sigmoidEntry_of_zero i
  · exact fun hpos i hi => ⟨le_sigmoidEntry_of_pos hc hi hpos, sigmoidEntry_saturates hc hi hpos⟩
  · rintro rfl
    refine ⟨?_, ?_, ?_, ?_, fun i => sigmoidEntry_at_one_saturated⟩ <;>
      exact sigmoidEntry_at_one (by norm_num) (by norm_num) (by norm_num) (by norm_num)
  · rintro rfl
    exact sigmoidEntry_at_neg_one

/-! ### The completion (R164, R166) -/

/-- With the ownership kept, SIGMOID leaves its table in LUT (R166). -/
theorem sigmoid_lut {s : State} (hready : Ready .sigmoid s) :
    (completionOf .sigmoid s).lut = sigmoidTable s.contrast.toInt :=
  completionOf_lut_wrote hready.kept rfl

theorem sigmoid_lut_toNat {s : State} (hready : Ready .sigmoid s) (hc : s.contrast.toInt.natAbs ≤ 65536) {i : ℕ}
    (hi : i < 256) : ((completionOf .sigmoid s).lut[i]).toNat = sigmoidEntry s.contrast.toInt i := by
  rw [sigmoid_lut hready]
  exact tableOf_toNat _ hi (sigmoidEntry_le hc hi)

/-- Settles O18: LUT takes the sigmoid table, entry by entry as R163 says, and the image is looked up in it. -/
theorem sigmoidScalesByTheExponentialFactor : Obligations.SigmoidScalesByTheExponentialFactor := by
  intro s hready hc
  have hframe := completes_completionOf .sigmoid s
  refine ⟨_, hready.exec_eq, hframe, hframe.hist rfl, fun i hi => ?_, fun x y hxy => ?_⟩
  · rw [sigmoid_lut_toNat hready hc hi]
    exact ⟨fun hzero => by rw [hzero, sigmoidEntry_of_zero], sigmoidEntry_of_pos hc hi, sigmoidEntry_of_neg hc hi⟩
  · rw [sigmoid_lut hready]
    exact dst_of_remap hready rfl hxy

/-- A byte of the source image is the byte of the source region at its place (R53). -/
theorem source_bytes_getD {s : State} {k : ℕ} (hk : k < s.regionLen) (d : Byte) :
    s.source.bytes.getD k d = s.operandMem.read (s.srcAddr + k) := by
  have hp : k / 4 < s.pixelCount := by rw [State.regionLen] at hk; omega
  have hpixel : s.source.px[k / 4]? = some (s.operandMem.pixel (s.srcAddr + 4 * (k / 4))) := by
    simp [State.source, hp]
  have hbyte := flatMap_bytes_getElem? s.source.px (k / 4) (k % 4) (Nat.mod_lt _ (by norm_num))
  rw [Nat.div_add_mod, hpixel, Option.bind_some] at hbyte
  have hk' : s.srcAddr + k = s.srcAddr + 4 * (k / 4) + k % 4 := by omega
  rw [List.getD_eq_getElem?_getD, Image.bytes, hbyte, hk']
  have hr : k % 4 < 4 := Nat.mod_lt _ (by norm_num)
  interval_cases k % 4 <;> rfl

/-- Through the table at CONTRAST = 0 every pixel stays as it is (R164). -/
theorem apply_sigmoidTable_zero (p : Pixel) : Table.apply (sigmoidTable 0) p = p := by
  have hentry : ∀ v : Byte, Table.at (sigmoidTable 0) v = v := fun v => by
    rw [sigmoidTable, tableOf_at, sigmoidEntry_of_zero, BitVec.ofNat_toNat, BitVec.setWidth_eq]
  simp only [Table.apply, hentry]

/-- Settles O19: the table is the identity, so the computed image is the source image. -/
theorem sigmoidAtZeroCopiesTheSource : Obligations.SigmoidAtZeroCopiesTheSource := by
  intro s hready hzero
  have hc : s.contrast.toInt = 0 := by rw [hzero]; rfl
  have hcopy : s.source.mapPixels (Table.apply (sigmoidTable s.contrast.toInt)) = s.source := by
    rw [hc, funext apply_sigmoidTable_zero, Image.mapPixels, List.map_id']
  refine ⟨_, hready.exec_eq, fun i hi => ?_, fun k hk => ?_⟩
  · rw [sigmoid_lut_toNat hready (by rw [hc]; decide) hi, hc, sigmoidEntry_of_zero]
  · rw [completionOf_read_dst hready (congrArg some hcopy) hk, source_bytes_getD hk]

end Sys2Proof.Claims

/-! PROOF. The checks of a command word (spec/60_exceptions.md R177 to R179): each branch of `validate` is one check of
R178, and the branches are taken in the order of the codes. -/

namespace Sys2Proof.Claims

open Sys2Proof Sys2Proof.Machine

/-! ### The first of the numbered checks that fails (R178) -/

/-- None of the checks 1 to `n − 1` fails. -/
def noneFailsBelow (fails : Nat → Prop) (n : Nat) : Prop := ∀ m, 1 ≤ m → m < n → ¬ fails m

/-- The answer is the first failing one of the checks 1 to 9, or `none` where none fails. -/
def reportsFirst (fails : Nat → Prop) : Option InvalidInput → Prop
  | none => noneFailsBelow fails 10
  | some e => fails e.code.toNat ∧ noneFailsBelow fails e.code.toNat

section

variable {fails : Nat → Prop}

theorem noneFailsBelow_one : noneFailsBelow fails 1 := fun _ hlow hhigh => absurd hlow (by omega)

theorem noneFailsBelow_succ {n : Nat} (hbelow : noneFailsBelow fails n) (hn : ¬ fails n) :
    noneFailsBelow fails (n + 1) := by
  intro m hlow hhigh
  rcases Nat.lt_succ_iff_lt_or_eq.1 hhigh with hlt | rfl
  · exact hbelow m hlow hlt
  · exact hn

/-- At most one check is the first that fails. -/
theorem firstFailing_unique {m n : Nat} (hm1 : 1 ≤ m) (hn1 : 1 ≤ n) (hm : fails m) (hn : fails n)
    (hbelow_m : noneFailsBelow fails m) (hbelow_n : noneFailsBelow fails n) : m = n := by
  rcases Nat.lt_trichotomy m n with hlt | heq | hgt
  · exact absurd hm (hbelow_n m hm1 hlt)
  · exact heq
  · exact absurd hn (hbelow_m n hn1 hgt)

/-- One check of the chain: it is reported if it fails, and the rest is asked only where it does not. -/
theorem reportsFirst_ite {c : Prop} [Decidable c] (e : InvalidInput) {rest : Option InvalidInput}
    (hcheck : c ↔ fails e.code.toNat) (hbelow : noneFailsBelow fails e.code.toNat)
    (hrest : noneFailsBelow fails (e.code.toNat + 1) → reportsFirst fails rest) :
    reportsFirst fails (if c then some e else rest) := by
  by_cases hc : c
  · rw [if_pos hc]
    exact ⟨hcheck.1 hc, hbelow⟩
  · rw [if_neg hc]
    exact hrest (noneFailsBelow_succ hbelow (mt hcheck.2 hc))

end

/-! ### Each check of the model is the check of its number (R177) -/

/-- The first check is that of the encoding (R77, R78). -/
theorem failsCheck_cmd_iff (s : State) (v : Word) : failsCheck s v 1 ↔ ¬ ∃ i, decode v = .ok i := by
  rw [exactlyTheListedWordsDecode v]
  simp [failsCheck, legalWord]

/-- The word of an operation has the operation's number as OP (R71, R72). -/
theorem decode_op {v : Word} {i : Instr} (h : decode v = .ok i) : v.toNat % 16 = i.mnemonic.opcode := by
  rw [← opField_toNat, eq_encode_of_decode h, encode_op]

/-- Only HIST has no destination (R51). -/
theorem writesDst_iff_opcode (i : Instr) : writesDst i = true ↔ i.mnemonic.opcode ≠ 7 := by
  have h : ∀ j ∈ operations, (writesDst j = true ↔ j.mnemonic.opcode ≠ 7) := by decide
  exact h i (mem_operations i)

/-- GAMMA, SIGMOID and LUTAPPLY may work in place (R56). -/
theorem inPlaceAllowed_iff_opcode (i : Instr) :
    inPlaceAllowed i = true ↔ i.mnemonic.opcode = 8 ∨ i.mnemonic.opcode = 9 ∨ i.mnemonic.opcode = 10 := by
  have h : ∀ j ∈ operations, (inPlaceAllowed j = true ↔
      j.mnemonic.opcode = 8 ∨ j.mnemonic.opcode = 9 ∨ j.mnemonic.opcode = 10) := by decide
  exact h i (mem_operations i)

theorem failsDim_iff (s : State) (v : Word) : s.failsDim = true ↔ failsCheck s v 2 := by
  simp [State.failsDim, failsCheck]

section

variable {s : State} {v : Word} {i : Instr} (hop : v.toNat % 16 = i.mnemonic.opcode)

include hop

theorem failsAlign_iff : s.failsAlign (writesDst i) = true ↔ failsCheck s v 3 := by
  simp only [State.failsAlign, failsCheck, hop, Bool.or_eq_true, Bool.and_eq_true, decide_eq_true_eq,
    writesDst_iff_opcode]

theorem failsRange_iff : s.failsRange (writesDst i) = true ↔ failsCheck s v 4 := by
  have hout (a : Nat) : (!addressable a s.regionLen) = true ↔ a + 4 * (s.imgW * s.imgH) > 2 ^ 32 := by
    rw [Bool.not_eq_true', ← Bool.not_eq_true, addressable_iff, Nat.not_le]
    rfl
  simp only [State.failsRange, failsCheck, hop, Bool.or_eq_true, Bool.and_eq_true, hout, writesDst_iff_opcode]

theorem failsOverlap_iff : s.failsOverlap i = true ↔ failsCheck s v 5 := by
  have hallowed : (!(inPlaceAllowed i && decide (s.srcAddr = s.dstAddr))) = true ↔
      ¬ ((i.mnemonic.opcode = 8 ∨ i.mnemonic.opcode = 9 ∨ i.mnemonic.opcode = 10) ∧ s.srcAddr = s.dstAddr) := by
    rw [Bool.not_eq_true', ← Bool.not_eq_true, Bool.and_eq_true, inPlaceAllowed_iff_opcode, decide_eq_true_eq]
  simp only [State.failsOverlap, State.regionsMeet, failsCheck, hop, Bool.and_eq_true, decide_eq_true_eq, hallowed,
    writesDst_iff_opcode, and_assoc]
  rfl

end

theorem failsContrast_iff (s : State) :
    s.failsContrast = true ↔ s.contrast.toInt < -65536 ∨ s.contrast.toInt > 65536 := by
  rw [State.failsContrast, Bool.or_eq_true, decide_eq_true_iff, decide_eq_true_iff]
  rfl

/-! ### The checks 6 to 9, each of one operation (R177) -/

section

variable {s : State} {v : Word}

/-- E_CLIP and E_GRID are checks of CLAHE alone. -/
theorem noneFailsBelow_eight_of_not_clahe (hop : v.toNat % 16 ≠ 5) (hbelow : noneFailsBelow (failsCheck s v) 6) :
    noneFailsBelow (failsCheck s v) 8 :=
  noneFailsBelow_succ (noneFailsBelow_succ hbelow fun ⟨h, _⟩ => hop h) fun ⟨h, _⟩ => hop h

/-- E_GAMMA is a check of GAMMA alone. -/
theorem noneFailsBelow_nine_of_not_gamma (hop : v.toNat % 16 ≠ 8) (hbelow : noneFailsBelow (failsCheck s v) 8) :
    noneFailsBelow (failsCheck s v) 9 :=
  noneFailsBelow_succ hbelow fun ⟨h, _⟩ => hop h

/-- E_CONTRAST is a check of SIGMOID alone. -/
theorem noneFailsBelow_ten_of_not_sigmoid (hop : v.toNat % 16 ≠ 9) (hbelow : noneFailsBelow (failsCheck s v) 9) :
    noneFailsBelow (failsCheck s v) 10 :=
  noneFailsBelow_succ hbelow fun ⟨h, _⟩ => hop h

/-- An operation asks the checks of its own parameters; those of the others do not fail for it. -/
theorem ownParameterError_reportsFirst {i : Instr} (hop : v.toNat % 16 = i.mnemonic.opcode)
    (hbelow : noneFailsBelow (failsCheck s v) 6) : reportsFirst (failsCheck s v) (s.ownParameterError i) := by
  have hclahe : i.mnemonic.opcode ≠ 5 → noneFailsBelow (failsCheck s v) 8 := fun h =>
    noneFailsBelow_eight_of_not_clahe (hop ▸ h) hbelow
  have hgamma : i.mnemonic.opcode ≠ 8 → noneFailsBelow (failsCheck s v) 8 → noneFailsBelow (failsCheck s v) 9 :=
    fun h => noneFailsBelow_nine_of_not_gamma (hop ▸ h)
  have hsigmoid : i.mnemonic.opcode ≠ 9 → noneFailsBelow (failsCheck s v) 9 →
      noneFailsBelow (failsCheck s v) 10 := fun h =>
    noneFailsBelow_ten_of_not_sigmoid (hop ▸ h)
  cases i with
  | clahe d =>
    refine reportsFirst_ite .E_CLIP (and_iff_right hop).symm hbelow fun h7 => ?_
    refine reportsFirst_ite .E_GRID (and_iff_right hop).symm h7 fun h8 => ?_
    exact hsigmoid nofun (hgamma nofun h8)
  | gamma e =>
    refine reportsFirst_ite .E_GAMMA (and_iff_right hop).symm (hclahe nofun) fun h9 => ?_
    exact hsigmoid nofun h9
  | sigmoid =>
    have hcheck : s.failsContrast = true ↔ failsCheck s v 9 :=
      (failsContrast_iff s).trans (and_iff_right hop).symm
    exact reportsFirst_ite .E_CONTRAST hcheck (hgamma nofun (hclahe nofun)) id
  | _ => exact hsigmoid nofun (hgamma nofun (hclahe nofun))

/-! ### `validate` (R178, R179) -/

/-- The checks of a decoded operation, those of the regions before its own. -/
theorem validateInstr_reportsFirst {i : Instr} (hop : v.toNat % 16 = i.mnemonic.opcode)
    (hbelow : noneFailsBelow (failsCheck s v) 2) : reportsFirst (failsCheck s v) (s.validateInstr i) := by
  refine reportsFirst_ite .E_DIM (failsDim_iff s v) hbelow fun h3 => ?_
  refine reportsFirst_ite .E_ALIGN (failsAlign_iff hop) h3 fun h4 => ?_
  refine reportsFirst_ite .E_RANGE (failsRange_iff hop) h4 fun h5 => ?_
  refine reportsFirst_ite .E_OVERLAP (failsOverlap_iff hop) h5 fun h6 => ?_
  exact ownParameterError_reportsFirst hop h6

end

/-- `validate` answers the first failing check of R178, and `none` where none fails. -/
theorem validate_reportsFirst (s : State) (v : Word) : reportsFirst (failsCheck s v) (s.validate v) := by
  have hcmd := failsCheck_cmd_iff s v
  unfold State.validate
  cases hdecode : decode v with
  | error e => exact ⟨hcmd.2 (by simp [hdecode]), noneFailsBelow_one⟩
  | ok i =>
    have hlegal : ¬ failsCheck s v 1 := fun h => hcmd.1 h ⟨i, hdecode⟩
    exact validateInstr_reportsFirst (decode_op hdecode) (noneFailsBelow_succ noneFailsBelow_one hlegal)

theorem validate_eq_none_iff (s : State) (v : Word) :
    s.validate v = none ↔ ∀ n, 1 ≤ n → n ≤ 9 → ¬ failsCheck s v n := by
  have hreport := validate_reportsFirst s v
  cases hv : s.validate v with
  | none =>
    rw [hv] at hreport
    exact iff_of_true rfl fun n hlow hhigh => hreport n hlow (by omega)
  | some e =>
    rw [hv] at hreport
    obtain ⟨hlow, hhigh⟩ := e.code_range
    exact iff_of_false nofun fun hnone => hnone _ hlow hhigh hreport.1

/-- The n-th check is the first that fails exactly if `validate` answers the sub-code with the number n. -/
theorem validate_code_iff (s : State) (v : Word) {n : Nat} (hlow : 1 ≤ n) (hhigh : n ≤ 9) :
    (∃ e, s.validate v = some e ∧ e.code.toNat = n) ↔
      failsCheck s v n ∧ ∀ m, 1 ≤ m → m < n → ¬ failsCheck s v m := by
  have hreport := validate_reportsFirst s v
  constructor
  · rintro ⟨e, hv, rfl⟩
    rwa [hv] at hreport
  · rintro ⟨hfails, hbelow⟩
    cases hv : s.validate v with
    | none => exact absurd hfails ((validate_eq_none_iff s v).1 hv n hlow hhigh)
    | some e =>
      rw [hv] at hreport
      obtain ⟨hcode, hbelow_code⟩ := hreport
      exact ⟨e, rfl, firstFailing_unique e.code_range.1 hlow hcode hfails hbelow_code hbelow⟩

/-! ### What a CMD write reports (R32, R176) -/

/-- A CMD write while BUSY = 0 starts the command. -/
theorem hostStep_CMD_of_idle {s : State} (hb : s.status.busy = false) (v : Word) :
    hostStep (.regWrite 0x000 v) s = .next (s.startCommand v) := by
  have hstep := hostStep_regWrite_regOffset .CMD v s
  rwa [writeReg_of_idle hb (by decide) (by decide)] at hstep

/-- ERR is 1 exactly after a rejection, and ERRCODE is then the code of what `validate` answered. -/
theorem startCommand_errcode_iff (s : State) (v : Word) (n : Nat) :
    ((s.startCommand v).status.err = true ∧ (s.startCommand v).status.errcode.toNat = n) ↔
      ∃ e, s.validate v = some e ∧ e.code.toNat = n := by
  cases hv : s.validate v with
  | none => simp [startCommand_accepted s v hv]
  | some e => simp [startCommand_rejected s v e hv]

/-- Settles O38: ERRCODE is the number of the first failing check, and BUSY is 1 where there is none. -/
theorem commandWriteReportsTheFirstFailingCheck : Obligations.CommandWriteReportsTheFirstFailingCheck := by
  intro s v hb
  refine ⟨_, hostStep_CMD_of_idle hb v, fun n hlow hhigh => ?_, ?_⟩
  · exact (startCommand_errcode_iff s v n).trans (validate_code_iff s v hlow hhigh)
  · exact (startCommand_busy_iff hb v).trans (validate_eq_none_iff s v)

/-- Settles O39: the word is stored with the previous report cleared, and the error is raised on top of that. -/
theorem rejectedCommandOnlyReports : Obligations.RejectedCommandOnlyReports := by
  intro s v e hb hv
  have hstatus : ((s.present v).raiseInvalidInput e).status = ⟨false, false, true, s.status.wrbusy, e.code⟩ := by
    simp [← hb]
  rw [hostStep_CMD_of_idle hb, startCommand_rejected s v e hv, ← hstatus]
  rfl

/-! ### The interrupt line (R183 to R185) -/

theorem irq_iff (s : State) :
    s.irq = true ↔ (s.status.done = true ∧ s.ien.doneIe = true) ∨ (s.status.err = true ∧ s.ien.errIe = true) := by
  simp [State.irq]

/-- With DONE and ERR 0 the line is low, whatever is enabled (R183). -/
theorem irq_of_no_report {s : State} (hdone : s.status.done = false) (herr : s.status.err = false) :
    s.irq = false := by
  simp [State.irq, hdone, herr]

/-- Settles O44: the formula of R183, at the enables an IEN write stores and at the flags a STATUS write clears. -/
theorem irqFollowsTheEnabledReports : Obligations.IrqFollowsTheEnabledReports := by
  refine ⟨irq_iff, fun s v => ?ienWrite, fun s v hdone herr => ?statusWrite⟩
  case ienWrite => exact ⟨_, hostStep_regWrite_regOffset .IEN v s, rfl, irq_iff _⟩
  case statusWrite =>
    obtain ⟨t, hstep, -, -, hdone_iff, herr_iff, -⟩ := statusWriteClearsTheNamedFlags s v
    refine ⟨t, hstep, irq_of_no_report ?_ ?_⟩
    · rw [← Bool.not_eq_true, hdone_iff, hdone]
      simp
    · rw [← Bool.not_eq_true, herr_iff, herr]
      simp

end Sys2Proof.Claims

/-! PROOF. What a result depends on (spec/30_encoding.md R79, spec/70_reset_and_hazards.md R212): the fields of the
registers an operation reads, and the effect it computes from them, the source region and LUT. -/

namespace Sys2Proof.Claims

open Sys2Proof Sys2Proof.Machine

/-! ### Fields from the values of their registers (R25 to R29) -/

/-- A register of one field at bit 0 determines the field (R22). -/
theorem field_eq_of_word_eq {n : Nat} (hn : n ≤ 32) {x y : BitVec n} (h : x.setWidth 32 = y.setWidth 32) :
    x = y := by
  have hnat := congrArg BitVec.toNat h
  rw [BitVec.toNat_setWidth_of_le hn, BitVec.toNat_setWidth_of_le hn] at hnat
  exact BitVec.eq_of_toNat_eq hnat

/-- THRESH determines both thresholds (R27). -/
theorem thresholds_eq_of_regValue {s u : State} (h : u.regValue .THRESH = s.regValue .THRESH) :
    u.threshLow = s.threshLow ∧ u.threshHigh = s.threshHigh := by
  have hnat := congrArg BitVec.toNat h
  simp only [State.regValue, thresh_toNat] at hnat
  have hu := u.threshLow.isLt
  have hs := s.threshLow.isLt
  exact ⟨BitVec.eq_of_toNat_eq (by omega), BitVec.eq_of_toNat_eq (by omega)⟩

/-! ### The effect from the operands read (R79) -/

/-- `u` gives the operation `i` the operands that `s` gives it: the registers it reads, and no others, the bytes of
the source region, and for LUTAPPLY the LUT (R79, R212). -/
structure SameReads (i : Instr) (s u : State) : Prop where
  params : ∀ r ∈ paramsRead i, u.regValue r = s.regValue r
  source : ∀ k, k < s.regionLen → u.operandMem.read (s.srcAddr + k) = s.operandMem.read (s.srcAddr + k)
  lut : i = .lutapply → u.operandLut = s.operandLut

section

variable {i : Instr} {s u : State} (h : SameReads i s u)

include h

/-- Every operation reads SRC_BASE, WIDTH and HEIGHT (R79). -/
theorem SameReads.srcBase : u.srcBase = s.srcBase :=
  h.params .SRC_BASE (by cases i <;> simp [paramsRead])

theorem SameReads.width : u.width = s.width :=
  field_eq_of_word_eq (by decide) (h.params .WIDTH (by cases i <;> simp [paramsRead]))

theorem SameReads.height : u.height = s.height :=
  field_eq_of_word_eq (by decide) (h.params .HEIGHT (by cases i <;> simp [paramsRead]))

/-- An operation with a destination reads DST_BASE (R79). -/
theorem SameReads.dstBase (hw : writesDst i = true) : u.dstBase = s.dstBase := by
  refine h.params .DST_BASE ?_
  cases i with
  | hist => cases hw
  | _ => simp [paramsRead]

theorem SameReads.regionLen : u.regionLen = s.regionLen := by
  simp only [State.regionLen, State.pixelCount, State.imgW, State.imgH, h.width, h.height]

theorem SameReads.source_eq : u.source = s.source := by
  refine source_congr h.srcBase h.width h.height fun j hlow hhigh => ?_
  have hread := h.source (j - s.srcAddr) (by omega)
  rwa [Nat.add_sub_cancel' hlow] at hread

/-- An operation computes its effect from what it reads alone (R79). -/
theorem SameReads.effectOf_eq : effectOf i u = effectOf i s := by
  have hsource := h.source_eq
  cases i with
  | sobel b => simp only [effectOf, sobelEffect, hsource]
  | prewitt b => simp only [effectOf, prewittEffect, hsource]
  | laplacian b => simp only [effectOf, laplacianEffect, hsource]
  | canny b a =>
    obtain ⟨hlow, hhigh⟩ := thresholds_eq_of_regValue (h.params .THRESH (by simp [paramsRead]))
    simp only [effectOf, cannyEffect, hsource, hlow, hhigh]
  | clahe d =>
    have hclip : u.clipLimit = s.clipLimit := h.params .CLIP_LIMIT (by simp [paramsRead])
    have hgrid : u.gridSize = s.gridSize :=
      field_eq_of_word_eq (by decide) (h.params .GRID_SIZE (by simp [paramsRead]))
    simp only [effectOf, claheEffect, hsource, hclip, hgrid]
  | equalize d => simp only [effectOf, equalizeEffect, hsource]
  | hist => simp only [effectOf, histEffect, hsource]
  | gamma e =>
    have hgamma : u.gamma = s.gamma := h.params .GAMMA (by simp [paramsRead])
    simp only [effectOf, gammaEffect, hsource, hgamma]
  | sigmoid =>
    have hcontrast : u.contrast = s.contrast := h.params .CONTRAST (by simp [paramsRead])
    simp only [effectOf, sigmoidEffect, hsource, hcontrast]
  | lutapply => simp only [effectOf, lutapplyEffect, hsource, h.lut rfl]

/-! ### The result from the effect (R212) -/

variable (hs : Ready i s) (hu : Ready i u)

include hs hu

/-- With the ownership kept in both, the two completions write the same bytes to the destination (R212). -/
theorem SameReads.read_dst (hw : writesDst i = true) {k : Nat} (hk : k < s.regionLen) :
    (completionOf i u).mem.read (s.dstAddr + k) = (completionOf i s).mem.read (s.dstAddr + k) := by
  obtain ⟨img, himg⟩ := exists_dst_image hw s
  have hbase : u.dstAddr = s.dstAddr := congrArg BitVec.toNat (h.dstBase hw)
  rw [completionOf_read_dst hs himg hk, ← hbase,
    completionOf_read_dst hu (h.effectOf_eq ▸ himg) (h.regionLen.symm ▸ hk)]

/-- With the ownership kept in both, the two completions write the same histogram (R212). -/
theorem SameReads.hist_eq {v : Histogram} (hv : (effectOf i s).hist = .wrote v) :
    (completionOf i u).hist = (completionOf i s).hist :=
  (completionOf_hist_wrote hu.kept (h.effectOf_eq ▸ hv)).trans (completionOf_hist_wrote hs.kept hv).symm

/-- With the ownership kept in both, the two completions write the same table (R212). -/
theorem SameReads.lut_eq {v : Table} (hv : (effectOf i s).lut = .wrote v) :
    (completionOf i u).lut = (completionOf i s).lut :=
  (completionOf_lut_wrote hu.kept (h.effectOf_eq ▸ hv)).trans (completionOf_lut_wrote hs.kept hv).symm

end

/-- Settles O28: the same reads give the same effect, and the effect is what a completion leaves. -/
theorem resultsDependOnTheOperandsAlone : Obligations.ResultsDependOnTheOperandsAlone := by
  intro i s u hs hu hparams hsource hlut
  have h : SameReads i s u := ⟨hparams, hsource, hlut⟩
  refine ⟨_, _, hs.exec_eq, hu.exec_eq, fun hw k hk => h.read_dst hs hu hw hk, fun hi => ?hist, fun hi => ?lut⟩
  case hist => rcases hi with rfl | ⟨d, rfl⟩ <;> exact h.hist_eq hs hu rfl
  case lut => rcases hi with rfl | ⟨e, rfl⟩ | ⟨d, rfl⟩ <;> exact h.lut_eq hs hu rfl

end Sys2Proof.Claims

/-! PROOF. Broken ownership (spec/70_reset_and_hazards.md R206): a completion whatever the host did to the regions, and
the destination bytes the host wrote while the operation was pending. -/

namespace Sys2Proof.Claims

open Sys2Proof Sys2Proof.Machine

/-! ### The completion with regions inside memory (R44, R55) -/

/-- Regions inside the memory space are all a completion needs, whatever the ownership record holds (R55). -/
theorem exec_eq_of_regions {i : Instr} {s : State} (hsrc : s.srcAddr + s.regionLen ≤ addressSpace)
    (hdst : writesDst i = true → s.dstAddr + s.regionLen ≤ addressSpace) :
    exec i s = .next (completionOf i s) := by
  rw [exec_eq_complete]
  refine complete_eq_next _ _ ((addressable_iff _ _).2 hsrc) fun hsome => ?_
  exact (addressable_iff _ _).2 (hdst (effectOf_dst_isSome i s ▸ hsome))

/-- Settles O29: the frame of a completion rests on no ownership. -/
theorem everyCompletionReportsDoneWhateverTheHostDid :
    Obligations.EveryCompletionReportsDoneWhateverTheHostDid :=
  fun i s hsrc hdst => ⟨_, exec_eq_of_regions hsrc hdst, completes_completionOf i s⟩

/-! ### The destination after a completion (R206) -/

/-- A destination byte after a completion is settled between the host's and the engine's (R206). -/
theorem completionOf_read_settled {i : Instr} {s : State} (hm : s.mem.wf = true)
    (hdst : s.dstAddr + s.regionLen ≤ addressSpace) {img : Image} (himg : (effectOf i s).dst = some img) {k : Nat}
    (hk : k < s.regionLen) :
    (completionOf i s).mem.read (s.dstAddr + k) =
      s.settledByte s.dstAddr k (img.bytes.getD k Config.unlistedByte) := by
  have hlen := effectOf_dst_bytes_length i s img himg
  rw [completionOf, finish_mem_some s _ _ _ img himg,
    Memory.read_writeBytes_same _ _ _ k (by simpa [hlen] using hk) hm (by simpa [hlen] using hdst),
    List.getElem_mapIdx, List.getD_eq_getElem _ _ (hlen ▸ hk)]

/-- With no source byte written, a byte the host did not write is the engine's (R206). -/
theorem settledByte_of_unhit {s : State} (hsrc : s.srcHit = false) {dst k : Nat} (h : s.dstHit (dst + k) = false)
    (b : Byte) : s.settledByte dst k b = b := by
  simp [State.settledByte, hsrc, h]

/-- With no source byte written, any byte is the host's or the engine's (R206). -/
theorem settledByte_cases {s : State} (hsrc : s.srcHit = false) (dst k : Nat) (b : Byte) :
    s.settledByte dst k b = s.mem.read (dst + k) ∨ s.settledByte dst k b = b := by
  simp only [State.settledByte, hsrc, Bool.false_eq_true, if_false]
  split
  · exact .inl rfl
  · exact .inr rfl

/-! ### The same state without the host's writes to the destination -/

/-- The state as it would be had the record of the pending operation taken no write to the destination (R206). -/
def forgetDstWrites (s : State) : State :=
  { s with claim := s.claim.map fun c => { c with dstHit := [] } }

theorem forgetDstWrites_srcHit (s : State) : (forgetDstWrites s).srcHit = s.srcHit := by
  cases hc : s.claim <;> simp [forgetDstWrites, State.srcHit, hc]

theorem forgetDstWrites_dstHit (s : State) (a : Nat) : (forgetDstWrites s).dstHit a = false := by
  cases hc : s.claim <;> simp [forgetDstWrites, State.dstHit, hc]

/-- The record of host writes is no operand (R79). -/
theorem sameReads_forgetDstWrites (i : Instr) (s : State) : SameReads i s (forgetDstWrites s) where
  params r _ := by cases r <;> rfl
  source k _ := by cases hc : s.claim <;> simp [forgetDstWrites, State.operandMem, hc]
  lut _ := by cases hc : s.claim <;> simp [forgetDstWrites, State.operandLut, hc]

/-- Without a source write either, the host kept the ownership (R61). -/
theorem forgetDstWrites_ownershipKept {s : State} (h : s.srcHit = false) : (forgetDstWrites s).ownershipKept :=
  ⟨(forgetDstWrites_srcHit s).trans h, forgetDstWrites_dstHit s⟩

/-- Without the host's writes to the destination, each of its bytes is the one the operation computes (R206). -/
theorem completionOf_forgetDstWrites_read {i : Instr} {s : State} (hready : Ready i (forgetDstWrites s)) {img : Image}
    (himg : (effectOf i s).dst = some img) {k : Nat} (hk : k < s.regionLen) :
    (completionOf i (forgetDstWrites s)).mem.read (s.dstAddr + k) = img.bytes.getD k Config.unlistedByte := by
  rw [← (sameReads_forgetDstWrites i s).effectOf_eq] at himg
  exact completionOf_read_dst hready himg hk

/-- Settles O30: without the recorded writes the byte is that of the computed image, between which and the host's
byte a written one is settled. -/
theorem hostWrittenDestinationByteIsTheHostsOrTheEngines :
    Obligations.HostWrittenDestinationByteIsTheHostsOrTheEngines := by
  intro i s hm hw hsrc hdst hhit
  obtain ⟨img, himg⟩ := exists_dst_image hw s
  have hready : Ready i (forgetDstWrites s) := ⟨hm, hsrc, fun _ => hdst, forgetDstWrites_ownershipKept hhit⟩
  have hexec := hready.exec_eq
  refine ⟨_, _, exec_eq_of_regions hsrc fun _ => hdst, hexec, fun a hlow hhigh => ?_⟩
  obtain ⟨k, rfl⟩ := Nat.exists_eq_add_of_le hlow
  have hk : k < s.regionLen := Nat.lt_of_add_lt_add_left hhigh
  rw [completionOf_forgetDstWrites_read hready himg hk, completionOf_read_settled hm hdst himg hk]
  exact ⟨fun _ => settledByte_cases hhit _ _ _, fun hunhit => settledByte_of_unhit hhit hunhit _⟩

end Sys2Proof.Claims

/-! PROOF. Reset (spec/10_state.md R47, spec/70_reset_and_hazards.md R200 to R203): the registers after `rst`, and
memory, of which only the destination of an abandoned operation changes. -/

namespace Sys2Proof.Claims

open Sys2Proof Sys2Proof.Machine

/-! ### The registers (R47) -/

theorem reset_hist_getElem (i : Nat) (hi : i < 256) : State.reset.hist[i] = 0 := by
  simp [State.reset]

theorem reset_lut_getElem_toNat (i : Nat) (hi : i < 256) : (State.reset.lut[i]).toNat = i := by
  simp [State.reset]

/-- The reset state holds the values of R47's table. -/
theorem atReset_reset : AtReset State.reset where
  cmd := rfl
  status := by decide
  ien := by decide
  srcBase := rfl
  dstBase := rfl
  width := rfl
  height := rfl
  threshLow := rfl
  threshHigh := rfl
  clipLimit := rfl
  gridSize := rfl
  gamma := rfl
  contrast := rfl
  hist := reset_hist_getElem
  lut := reset_lut_getElem_toNat

/-- Settles O56: the values are those of the table, and with no report standing `irq` is 0. -/
theorem resetLeavesTheListedValues : Obligations.ResetLeavesTheListedValues :=
  ⟨atReset_reset, irq_of_no_report rfl rfl⟩

/-- The reset values are a matter of the registers, HIST and LUT only (R47). -/
theorem AtReset.withHostView {t : State} (h : AtReset t) (mem : Memory) (earlier : List Claim)
    (inputs : List HostStep) (rdata : Word) (mdata : List Byte) (free : Nat) :
    AtReset { t with
      mem := mem, earlier := earlier, inputs := inputs, rdata := rdata, mdata := mdata, free := free } :=
  { h with }

/-- `rst` leaves every register, HIST and LUT at its reset value (R200). -/
theorem atReset_assertReset (s : State) : AtReset s.assertReset :=
  atReset_reset.withHostView _ _ _ _ _ _

/-! ### Memory (R202, R203) -/

theorem memAfterReset_of_idle {s : State} (hb : s.status.busy = false) : s.memAfterReset = s.mem := by
  simp [State.memAfterReset, hb]

theorem memAfterReset_of_busy {s : State} (hb : s.status.busy = true) :
    s.memAfterReset =
      s.mem.writeBytes s.dstAddr (s.pendingBytes.mapIdx fun k b => s.abandonedByte k b) := by
  simp [State.memAfterReset, hb]

/-- Outside the destination region `rst` keeps every byte (R203). -/
theorem memAfterReset_outside (s : State) {a : Nat} (h : a < s.dstAddr ∨ s.dstAddr + s.regionLen ≤ a) :
    s.memAfterReset.read a = s.mem.read a := by
  cases hb : s.status.busy with
  | false => rw [memAfterReset_of_idle hb]
  | true =>
    have hlen : s.pendingBytes.length ≤ s.regionLen := by
      rcases pendingBytes_length s with hnone | ⟨-, -, -, hall⟩ <;> omega
    rw [memAfterReset_of_busy hb]
    refine Memory.read_writeBytes_other _ _ _ _ ?_
    rw [List.length_mapIdx]
    omega

/-- With no source byte written, an abandoned byte is the old one or the operation's (R202). -/
theorem abandonedByte_cases {s : State} (h : s.srcHit = false) (k : Nat) (b : Byte) :
    s.abandonedByte k b = s.mem.read (s.dstAddr + k) ∨ s.abandonedByte k b = b := by
  simp only [State.abandonedByte, h, Bool.false_eq_true, if_false]
  split
  · exact .inl rfl
  · exact .inr rfl

/-- A destination byte of an operation that `rst` abandons is old, or the one its completion would have left
(R202). -/
theorem memAfterReset_old_or_new {i : Instr} {s : State} (hready : Ready i s) (hb : s.status.busy = true)
    (hi : decode s.cmd = .ok i) (hw : writesDst i = true) {k : Nat} (hk : k < s.regionLen) :
    s.memAfterReset.read (s.dstAddr + k) = s.mem.read (s.dstAddr + k) ∨
      s.memAfterReset.read (s.dstAddr + k) = (completionOf i s).mem.read (s.dstAddr + k) := by
  obtain ⟨img, himg⟩ := exists_dst_image hw s
  have hlen := effectOf_dst_bytes_length i s img himg
  have hbyte : s.memAfterReset.read (s.dstAddr + k) =
      s.abandonedByte k (img.bytes.getD k Config.unlistedByte) := by
    rw [memAfterReset_of_busy hb, pendingBytes_eq hi himg,
      Memory.read_writeBytes_same _ _ _ k (by simpa [hlen] using hk) hready.memory
        (by simpa [hlen] using hready.destination hw),
      List.getElem_mapIdx, List.getD_eq_getElem _ _ (hlen ▸ hk)]
  rw [hbyte, completionOf_read_dst hready himg hk]
  exact abandonedByte_cases hready.kept.source k _

/-- `rst` while an operation without a destination is pending leaves memory (R58, R202). -/
theorem memAfterReset_of_no_dst {i : Instr} {s : State} (hi : decode s.cmd = .ok i) (hw : writesDst i = false) :
    s.memAfterReset = s.mem := by
  cases hb : s.status.busy with
  | false => exact memAfterReset_of_idle hb
  | true =>
    have hnone : s.pendingBytes = [] := by
      rcases pendingBytes_length s with h0 | ⟨j, hj, hwj, -⟩
      · exact List.length_eq_zero_iff.1 h0
      · obtain rfl : j = i := Except.ok.inj (hj.symm.trans hi)
        simp [hw] at hwj
    rw [memAfterReset_of_busy hb, hnone]
    rfl

/-- Settles O57: the registers are those of the reset state, and a byte of memory is old, or in the destination of an
abandoned operation may be new. -/
theorem rstResetsEveryRegisterAndSparesMemory : Obligations.RstResetsEveryRegisterAndSparesMemory := by
  intro s
  refine ⟨_, rfl, atReset_assertReset s, irq_of_no_report rfl rfl, memAfterReset_of_idle,
    fun a => memAfterReset_outside s, fun hinv hb hkept => ?_⟩
  obtain ⟨i, hi, hrun⟩ := hinv.runPending_eq hb
  have hready := ready_of_inv hinv hb hi hkept
  refine ⟨_, hrun, fun a => ?_⟩
  rw [State.assertReset_mem]
  cases hw : writesDst i with
  | false => exact .inl (by rw [memAfterReset_of_no_dst hi hw])
  | true =>
    by_cases ha : s.dstAddr ≤ a ∧ a < s.dstAddr + s.regionLen
    · obtain ⟨k, rfl⟩ := Nat.exists_eq_add_of_le ha.1
      exact memAfterReset_old_or_new hready hb hi hw (by omega)
    · exact .inl (memAfterReset_outside s (by omega))

end Sys2Proof.Claims
